-- ==== Sys2Proof/Word.lean ====
section
/-! DEFINITION. The word types of CRUX-QRE (spec 00 R7): every value is unsigned and bit 0 is the least significant bit. -/

namespace Sys2Proof

/-- A cell of a byte window, and an element of GF(16) or GF(256) (R7, R190). -/
abbrev Byte := BitVec 8

/-- A coordinate, an image dimension or a capstone index (R27, R42, R45). -/
abbrev Half := BitVec 16

/-- A host register or the data of a host access (R7, R62). -/
abbrev Word := BitVec 32

end Sys2Proof
end

