-- ==== Sys2Proof/Syntax.lean ====
section
/-! DEFINITION. The commands of CRUX-QRE, one constructor per row of the opcode table (spec 30 R91, R100). -/

namespace Sys2Proof

/-- A command, as the CMD word selects it (R90, R91). The operands are not in the command: they travel in
ARG0 and ARG1 (R94). The ignored bits of R92 and R93 are not part of a command. -/
inductive Instr where
  /-- NOP (R124). -/
  | nop
  /-- BEGIN (R125). -/
  | beginFrame
  /-- THRESHOLD with INV = 0 (R140). -/
  | threshold
  /-- THRESHOLD.INV, INV = 1 (R140). -/
  | thresholdInv
  /-- REGION_CODE (R165). -/
  | regionCode
  /-- FILL with SPANS = 0 (R168). -/
  | fill
  /-- FILL.SPANS, SPANS = 1 (R168). -/
  | fillSpans
  /-- FMT_CORRECT (R220). -/
  | fmtCorrect
  /-- RS_CORRECT (R224). -/
  | rsCorrect
  /-- The reserved opcode 0x7 (R126). -/
  | reserved7
  /-- A reserved opcode 0x8..0xF, with its OP value (R126). -/
  | reserved8F (op : BitVec 4)
deriving DecidableEq, Repr

end Sys2Proof
end

