-- ==== Sys2Proof/WellFormed.lean ====
section
/-! DEFINITION. Which terms of `Instr` stand for a command word (spec 30 R91, R96). -/

namespace Sys2Proof

/-- The one constraint of the table: the row RESERVED_8_F has OP[3] = 1 (R91). -/
def Instr.wellFormed : Instr → Bool
  | .nop | .beginFrame | .threshold | .thresholdInv | .regionCode | .fill | .fillSpans
  | .fmtCorrect | .rsCorrect | .reserved7 => true
  | .reserved8F op => decide (8 ≤ op.toNat)

end Sys2Proof
end

