-- ==== Sys2Proof/Decode.lean ====
section
/-! DEFINITION. Decoding a CMD word (spec 30 R90 to R97) and, after it, the encoder (R100). -/

namespace Sys2Proof

/-- The OP field, bits 3:0 (R90). -/
def opField (w : Word) : BitVec 4 := w.extractLsb' 0 4

/-- The INV flag, bit 4 (R90). -/
def invField (w : Word) : Bool := w.getLsbD 4

/-- The SPANS flag, bit 5 (R90). -/
def spansField (w : Word) : Bool := w.getLsbD 5

/-- The command a CMD word encodes (R91). Every word is some command (R96). INV is read for THRESHOLD only
and SPANS for FILL only (R92); bits 31:6 are never read (R93). -/
def decode (w : Word) : Instr :=
  match (opField w).toNat with
  | 0 => .nop
  | 1 => .beginFrame
  | 2 => if invField w then .thresholdInv else .threshold
  | 3 => .regionCode
  | 4 => if spansField w then .fillSpans else .fill
  | 5 => .fmtCorrect
  | 6 => .rsCorrect
  | 7 => .reserved7
  | _ => .reserved8F (opField w)

/-- Why a string of bytes is no command word: a command is exactly one 32-bit word (R90, R97). -/
inductive DecodeError where
  | tooShort
  | tooLong
deriving DecidableEq, Repr

/-- The 32-bit word whose bytes are given lowest first (R61). -/
def wordOfBytes (b0 b1 b2 b3 : Byte) : Word := b3 ++ b2 ++ b1 ++ b0

/-- Decoding total on any bytes, lowest byte first. -/
def decodeBytes : List Byte → Except DecodeError Instr
  | [b0, b1, b2, b3] => .ok (decode (wordOfBytes b0 b1 b2 b3))
  | _ :: _ :: _ :: _ :: _ :: _ => .error .tooLong
  | _ => .error .tooShort

/-- Byte k of a word, byte 0 the least significant. -/
def byteOfWord (w : Word) (k : Nat) : Byte := w.extractLsb' (8 * k) 8

/-- The bytes of a word, lowest first. -/
def bytesOfWord (w : Word) : List Byte :=
  [byteOfWord w 0, byteOfWord w 1, byteOfWord w 2, byteOfWord w 3]

/-- The OP value of a command (R91). -/
def Instr.opcode : Instr → BitVec 4
  | .nop => 0x0
  | .beginFrame => 0x1
  | .threshold => 0x2
  | .thresholdInv => 0x2
  | .regionCode => 0x3
  | .fill => 0x4
  | .fillSpans => 0x4
  | .fmtCorrect => 0x5
  | .rsCorrect => 0x6
  | .reserved7 => 0x7
  | .reserved8F op => op

/-- The CMD word of a command, with every ignored bit zero (R100). -/
def encode : Instr → Word
  | .nop => 0x00000000
  | .beginFrame => 0x00000001
  | .threshold => 0x00000002
  | .thresholdInv => 0x00000012
  | .regionCode => 0x00000003
  | .fill => 0x00000004
  | .fillSpans => 0x00000024
  | .fmtCorrect => 0x00000005
  | .rsCorrect => 0x00000006
  | .reserved7 => 0x00000007
  | .reserved8F op => op.setWidth 32

/-- The bits of the CMD word that a command's row reads; every other bit is ignored (R92, R93). -/
def readMask : Instr → Word
  | .threshold | .thresholdInv => 0x0000001F
  | .fill | .fillSpans => 0x0000002F
  | .nop | .beginFrame | .regionCode | .fmtCorrect | .rsCorrect | .reserved7 | .reserved8F _ => 0x0000000F

/-- The command the decoder reads from an instruction of `nbits` bits `w`: its bytes as the bus carries
them, bits above `nbits` zero (host query). -/
def decodeTableWord (nbits w : Nat) : Option Instr :=
  if nbits ≤ 32 then
    (decodeBytes (bytesOfWord (BitVec.ofNat 32 (w % 2 ^ nbits)))).toOption
  else none

end Sys2Proof
end

