-- ==== Sys2Proof/Config.lean ====
section
/-! DEFINITION. The implementation parameters of spec 00 R5 and the free values of R10.
Nothing here is state (R20). -/

namespace Sys2Proof

/-- Which of several levels with equal maximal between-class variance is kept (R5, R146). -/
inductive OtsuTie where
  | last
  | first
deriving DecidableEq, Repr

/-- The parameters a model of CRUX-QRE takes (R5).
Every operation that depends on one takes `Params` as an argument; a meaning supplies `Config.params`. -/
structure Params where
  /-- MAX_W -/
  maxW : Nat
  /-- MAX_H -/
  maxH : Nat
  /-- MAX_REGIONS -/
  maxRegions : Nat
  /-- FF_DEPTH -/
  ffDepth : Nat
  /-- SPAN_FIFO_DEPTH -/
  spanFifoDepth : Nat
  /-- OTSU_TIE -/
  otsuTie : OtsuTie
  /-- LOG0 -/
  log0 : Nat
deriving DecidableEq, Repr

/-- The legal values of R5's table. -/
abbrev Params.legal (p : Params) : Prop :=
  (1 ≤ p.maxW ∧ p.maxW ≤ 65535) ∧ (1 ≤ p.maxH ∧ p.maxH ≤ 65535) ∧ p.maxW * p.maxH ≤ 2 ^ 20 ∧
  (1 ≤ p.maxRegions ∧ p.maxRegions ≤ 254) ∧ 1 ≤ p.ffDepth ∧
  (1 ≤ p.spanFifoDepth ∧ p.spanFifoDepth ≤ 255) ∧ p.log0 ≤ 254

/-- MAX_POLY: the length of every polynomial register (R5, R196). -/
abbrev maxPoly : Nat := 64

/-- NPAR_MAX: the largest number of parity bytes of a block (R5, R224). -/
abbrev nparMax : Nat := 63

/-- MARGIN_DIV: the border excluded from the histogram is a MARGIN_DIV-th of each side (R5, R142). -/
abbrev marginDiv : Nat := 5

/-- FMT_BITS: the length of a format word (R5). -/
abbrev fmtBits : Nat := 15

/-- FMT_SYND: the number of format syndromes (R5). -/
abbrev fmtSynd : Nat := 6

namespace Config

/-- What this implementation chose for MAX_W, before it is brought into R5's range (log entry 6). -/
opaque rawMaxW : Nat

/-- What this implementation chose for MAX_H, before it is brought into R5's range (log entry 6). -/
opaque rawMaxH : Nat

/-- What this implementation chose for MAX_REGIONS, before it is brought into R5's range (log entry 6). -/
opaque rawMaxRegions : Nat

/-- What this implementation chose for FF_DEPTH, before it is brought into R5's range (log entry 6). -/
opaque rawFfDepth : Nat

/-- What this implementation chose for SPAN_FIFO_DEPTH, before it is brought into R5's range (log entry 6). -/
opaque rawSpanFifoDepth : Nat

/-- MAX_W of this hardware: some value of 1..65535 (R5, OPEN). -/
def maxW : Nat := 1 + rawMaxW % 65535

/-- MAX_H of this hardware: some value of 1..65535 with MAX_W * MAX_H at most 2^20 (R5, OPEN). -/
def maxH : Nat := 1 + rawMaxH % min 65535 (2 ^ 20 / maxW)

/-- The parameters of this hardware: the OPEN ones unknown inside their legal ranges,
OTSU_TIE = LAST and LOG0 = 0 as R5 gives them (log entries 6 and 7). -/
def params : Params where
  maxW := maxW
  maxH := maxH
  maxRegions := 1 + rawMaxRegions % 254
  ffDepth := 1 + rawFfDepth
  spanFifoDepth := 1 + rawSpanFifoDepth % 255
  otsuTie := .last
  log0 := 0

/-- R10's draw of a byte: the content of a memory byte that nothing has written since its contents
last became unspecified. The arguments are the number of that occurrence and the byte's aperture offset
(log entry 5). -/
opaque freeByte : Nat → Nat → Byte

/-- R282's unspecified CAPSTONE storage at reset: the arguments are the number of the reset and the
entry (log entry 9). -/
opaque freeCapstone : Nat → Nat → Half

end Config
end Sys2Proof
end

