-- ==== Sys2Proof/Machine/State.lean ====
section
/-! DEFINITION. The state of CRUX-QRE (spec 10 R20), as plain data, and its reset (70 R280 to R283). -/

namespace Sys2Proof.Machine

/-! ## Memory -/

/-- The byte windows BLOCK, SYND, SIGMA, OMEGA, GRAY and LABEL (R36 to R41), keyed by aperture offset (R60).
A listed byte is one that was written since its contents last became unspecified; an unlisted byte reads as the
free value `State.unlisted` (R10, log entry 5). -/
abbrev Memory := List Host.Cell

/-- Base of BLOCK (R60). -/
abbrev blockBase : Nat := 0x001000
/-- Base of SYND (R60). -/
abbrev syndBase : Nat := 0x001100
/-- Base of SIGMA (R60). -/
abbrev sigmaBase : Nat := 0x001140
/-- Base of OMEGA (R60). -/
abbrev omegaBase : Nat := 0x001180
/-- End of OMEGA, the first reserved offset after it (R60). -/
abbrev bufferEnd : Nat := 0x0011C0
/-- Base of the region table (R60). -/
abbrev regionBase : Nat := 0x002000
/-- Base of GRAY (R60). -/
abbrev grayBase : Nat := 0x100000
/-- Base of LABEL (R60). -/
abbrev labelBase : Nat := 0x200000
/-- The first offset beyond the aperture (R60). -/
abbrev apertureEnd : Nat := 0x300000

/-- The canonical form of a memory: offsets strictly rising. Which bytes are listed is itself part of
the memory, so equal memories are equal lists (log entry 5). -/
abbrev Memory.wf (m : Memory) : Prop := m.Pairwise (fun c d => c.1 < d.1)

/-- The offsets that hold a memory byte: the six byte windows (R60). -/
abbrev mapped (a : Nat) : Prop :=
  (blockBase ≤ a ∧ a < bufferEnd) ∨ (grayBase ≤ a ∧ a < apertureEnd)

/-! ## Parts of the state -/

/-- STATUS.CODE: the values that are ever written (R251). -/
inductive StatusCode where
  | ok
  | formatEcc
  | dataEcc
  | badParam
  | badCommand
  | notReady
deriving DecidableEq, Repr

/-- An entry of the span FIFO (R45). -/
structure Span where
  y : Half
  left : Half
  right : Half
deriving DecidableEq, Repr

/-- A frame of the flood-fill stack (R46, R161). -/
structure Frame where
  y : Half
  right : Half
  up : Half
  down : Half
deriving DecidableEq, Repr

/-- An entry of the region table (R42). -/
structure Region where
  seedX : Half
  seedY : Half
  area : Word
  capstone : Half
deriving DecidableEq, Repr

/-- The command in execution: the CMD word and the copies taken at issue (R47, R120). -/
structure Cmd where
  word : Word
  arg0 : Word
  arg1 : Word
  width : Half
  height : Half
deriving DecidableEq, Repr

/-- The working values of a FILL.SPANS between two engine steps (R46, R161, R168, R170):
the flood-fill stack, top first, the counts of VISIT, the span that PUSH_SPAN is holding, if any, and the FF_OVF from before
the command, which STATUS shows until the completion (R74, log entry 26). -/
structure FillRun where
  stack : List Frame
  spans : Nat
  pixels : Nat
  held : Option Span
  ffOvfBefore : Bool
deriving DecidableEq, Repr

/-- The engine phase (R47). BUSY has two forms: the command has been issued and has not run (R120, R123),
or a FILL.SPANS is between its pushes (R170). -/
inductive Phase where
  | idle
  | issued
  | filling (run : FillRun)
deriving DecidableEq, Repr

/-- The width of a host access (R62). -/
inductive Width where
  | w8
  | w16
  | w32
deriving DecidableEq, Repr

/-- A host access at an aperture offset (R8, R60). -/
inductive Access where
  | rd (width : Width) (offset : Nat)
  | wr (width : Width) (offset : Nat) (value : Word)
deriving DecidableEq, Repr

/-- What may happen to the block next (R6, R74, R280): a host access, a turn of the engine, a
platform reset. -/
inductive Event where
  | host (a : Access)
  | engine
  | reset
deriving DecidableEq, Repr

/-! ## State -/

/-- The state of the block (R20), and four fields of the model's own at the end. -/
structure State where
  /-- The engine phase; STATUS.BUSY is 1 when it is not idle (R47). -/
  phase : Phase
  /-- The command in execution (R47). -/
  cur : Cmd
  /-- STATUS.LABELS_VALID (R23, R44). -/
  labelsValid : Bool
  /-- STATUS.FF_OVF (R23). -/
  ffOvf : Bool
  /-- STATUS.CODE (R23, R251). -/
  code : StatusCode
  /-- STATUS.LAST_OP (R23). -/
  lastOp : BitVec 4
  /-- ERR.OVERRUN (R24). -/
  errOverrun : Bool
  /-- ERR.ACCERR (R24). -/
  errAccerr : Bool
  /-- INT_STATUS.DONE (R25). -/
  intDone : Bool
  /-- INT_ENABLE.DONE_EN (R26). -/
  doneEn : Bool
  /-- INT_ENABLE.SPAN_EN (R26). -/
  spanEn : Bool
  /-- WIDTH (R27). -/
  width : Half
  /-- HEIGHT (R28). -/
  height : Half
  /-- REGION_NEXT (R29). -/
  regionNext : BitVec 9
  /-- ARG0 (R30). -/
  arg0 : Word
  /-- ARG1 (R30). -/
  arg1 : Word
  /-- RES0 (R31). -/
  res0 : Word
  /-- RES1 (R31). -/
  res1 : Word
  /-- THRESH bits 7:0 (R32). -/
  threshT : Byte
  /-- THRESH bit 8 (R32). -/
  threshInv : Bool
  /-- The span FIFO, head first (R45). -/
  fifo : List Span
  /-- The region table (R42). -/
  regions : Vector Region 256
  /-- GRAY, LABEL, BLOCK, SYND, SIGMA and OMEGA (R36 to R41). -/
  mem : Memory
  /-- The model's own: which occurrence of "unspecified" the unwritten bytes of GRAY and LABEL come from (log entry 5). -/
  imageDraws : Nat
  /-- The model's own: the same for BLOCK, SYND, SIGMA and OMEGA (log entry 5). -/
  bufferDraws : Nat
  /-- The model's own: the events still to come, in order (R74, log entry 1). -/
  agenda : List Event
  /-- The model's own: the value the last host read returned (log entry 8). -/
  readData : Word
deriving DecidableEq, Repr

/-- Why the machine stops with a fault: never. No command and no access raises a trap (R250), so
the type has no constructor (log entry 18). -/
inductive Fault where
deriving DecidableEq, Repr

/-- Why the model gives an event no meaning. -/
inductive Refusal where
  /-- Raised by `exec` for a command that has no meaning yet; safe. No arm raises it. -/
  | notModelled (mnemonic : String)
  /-- Raised by a host access beyond offset 0x2FFFFF, which is outside the block and the platform's business
  (R70); safe. -/
  | outsideAperture
deriving DecidableEq, Repr

/-- The region table's storage after the `n`-th reset: unallocated entries all (R282). Their CAPSTONE is
a free value, their seed and area a design choice; neither can be observed (log entry 9). -/
def Region.tableAtReset (n : Nat) : Vector Region 256 :=
  ⟨((List.range 256).map fun id => ⟨0, 0, 0, Config.freeCapstone n id⟩).toArray, by simp⟩

/-- The block right after reset (R280 to R283): every register at the value of R281, memory with nothing
written (R282), FIFO empty, engine idle (R283). The fields `cur`, `agenda`, `readData`, `imageDraws` and
`bufferDraws` are design choices (log entries 1, 5, 8, 10). -/
def State.reset : State where
  phase := .idle
  cur := ⟨0, 0, 0, 0, 0⟩
  labelsValid := false
  ffOvf := false
  code := .ok
  lastOp := 0
  errOverrun := false
  errAccerr := false
  intDone := false
  doneEn := false
  spanEn := false
  width := 0
  height := 0
  regionNext := 2
  arg0 := 0
  arg1 := 0
  res0 := 0
  res1 := 0
  threshT := 0
  threshInv := false
  fifo := []
  regions := Region.tableAtReset 0
  mem := []
  imageDraws := 0
  bufferDraws := 0
  agenda := []
  readData := 0

end Sys2Proof.Machine
end

