-- ==== Sys2Proof/Machine/Ops.lean ====
section
/-! DEFINITION. The named operations over memory and registers, and the two ends of a command's life:
issue and completion (spec 40 R120, R121). Nothing traps (60 R250, R257), so no exception entry exists;
completion is the one operation every command ends in. -/

namespace Sys2Proof.Machine

/-! ## Memory -/

/-- The listed byte at an offset, if it is listed. -/
def Memory.lookup : Memory → Nat → Option Byte
  | [], _ => none
  | (k, v) :: m, a => if k = a then some v else Memory.lookup m a

/-- Lists `b` at offset `a`, keeping the offsets rising. -/
def Memory.write : Memory → Nat → Byte → Memory
  | [], a, b => [(a, b)]
  | (k, v) :: m, a, b =>
    if a < k then (a, b) :: (k, v) :: m
    else if a = k then (a, b) :: m
    else (k, v) :: Memory.write m a b

/-- Lists `f 0`, …, `f (n - 1)` at the `n` offsets from `base`. -/
def Memory.writeRange (m : Memory) (base : Nat) : Nat → (Nat → Byte) → Memory
  | 0, _ => m
  | n + 1, f => Memory.write (Memory.writeRange m base n f) (base + n) (f n)

/-- Unlists every byte of GRAY and LABEL, the windows at the top of the aperture (R60, R127). -/
def Memory.dropImage (m : Memory) : Memory := m.filter fun c => decide (c.1 < grayBase)

/-- What an unlisted byte reads as: a free value (R10, log entry 5). -/
def State.unlisted (s : State) (a : Nat) : Byte :=
  Config.freeByte (if a < grayBase then s.bufferDraws else s.imageDraws) a

/-- The one read of a memory byte. -/
def State.readByte (s : State) (a : Nat) : Byte := (Memory.lookup s.mem a).getD (s.unlisted a)

/-- The one write of a memory byte. -/
def State.writeByte (s : State) (a : Nat) (b : Byte) : State :=
  { s with mem := Memory.write s.mem a b }

/-- Writes of `n` bytes from `base` on. -/
def State.writeBytes (s : State) (base n : Nat) (f : Nat → Byte) : State :=
  { s with mem := Memory.writeRange s.mem base n f }

/-- GRAY byte `o` (R36). -/
def State.gray (s : State) (o : Nat) : Byte := s.readByte (grayBase + o)

/-- LABEL cell `o` (R37). -/
def State.label (s : State) (o : Nat) : Byte := s.readByte (labelBase + o)

/-- BLOCK[k] (R38). -/
def State.block (s : State) (k : Nat) : Byte := s.readByte (blockBase + k)

/-- SYND[k] (R39). -/
def State.synd (s : State) (k : Nat) : Byte := s.readByte (syndBase + k)

/-- SIGMA[k] (R40). -/
def State.sigma (s : State) (k : Nat) : Byte := s.readByte (sigmaBase + k)

/-- OMEGA[k] (R41). -/
def State.omega (s : State) (k : Nat) : Byte := s.readByte (omegaBase + k)

/-! ## Engine phase, frame state and region table -/

/-- STATUS.BUSY (R23, R47). -/
def State.busy (s : State) : Bool :=
  match s.phase with
  | .idle => false
  | .issued => true
  | .filling _ => true

/-- What BEGIN, THRESHOLD and resize do alike: REGION_NEXT becomes 2, so that every region entry is
unallocated, FF_OVF is cleared and the span FIFO emptied; LABELS_VALID becomes `valid`
(R125, R127, R140). -/
def State.newFrame (s : State) (valid : Bool) : State :=
  { s with regionNext := 2, labelsValid := valid, ffOvf := false, fifo := [] }

/-- Entry `n` is allocated exactly when 2 ≤ n < REGION_NEXT (R29, R43). -/
def State.allocated (s : State) (n : BitVec 8) : Bool :=
  decide (2 ≤ n.toNat ∧ n.toNat < s.regionNext.toNat)

/-- The storage of region-table entry `n` (R42). -/
def State.region (s : State) (n : BitVec 8) : Region := s.regions[n.toNat]'n.isLt

/-- Replaces the storage of region-table entry `n`. -/
def State.setRegion (s : State) (n : BitVec 8) (r : Region) : State :=
  { s with regions := s.regions.set n.toNat r n.isLt }

/-! ## Life of a command -/

/-- R120: the CMD write `w` is issued, with its operands captured. -/
def State.issue (s : State) (w : Word) : State :=
  { s with
    phase := .issued
    cur := ⟨w, s.arg0, s.arg1, s.width, s.height⟩ }

/-- R121: the command with OP value `op` completes with status `code` and results `r0`, `r1`. -/
def State.complete (s : State) (op : BitVec 4) (code : StatusCode) (r0 r1 : Word) : State :=
  { s with
    phase := .idle
    res0 := r0
    res1 := r1
    code := code
    lastOp := op
    intDone := true }

/-- R122: a completion with BAD_PARAM, BAD_COMMAND or NOT_READY, with RES0 = RES1 = 0. -/
def State.completeError (s : State) (op : BitVec 4) (code : StatusCode) : State :=
  s.complete op code 0 0

/-- R127: the GRAY and LABEL contents become unspecified and the region state clears. -/
def State.resized (s : State) : State :=
  State.newFrame { s with mem := Memory.dropImage s.mem, imageDraws := s.imageDraws + 1 } false

/-- R280: a platform reset asserted and released. The block is as after reset with fresh unspecified
contents; a command in execution is abandoned. The agenda and the read data are not the block's. -/
def State.platformReset (s : State) : State :=
  { State.reset with
    regions := Region.tableAtReset (s.bufferDraws + 1)
    imageDraws := s.imageDraws + 1
    bufferDraws := s.bufferDraws + 1
    agenda := s.agenda
    readData := s.readData }

end Sys2Proof.Machine
end

