-- ==== Sys2Proof/Machine/Flags.lean ====
section
/-! DEFINITION. Every status, error and interrupt flag: the words of STATUS, ERR, INT_STATUS and INT_ENABLE
(spec 10 R23 to R26), what sets the error flags (60 R253), and the interrupt output (R255). -/

namespace Sys2Proof.Machine

/-- The number of a status code (R251). -/
def StatusCode.toByte : StatusCode → Byte
  | .ok => 0x00
  | .formatEcc => 0x01
  | .dataEcc => 0x02
  | .badParam => 0x03
  | .badCommand => 0x04
  | .notReady => 0x05

/-- A flag as one bit. -/
def bit (b : Bool) : BitVec 1 := BitVec.ofBool b

/-- STATUS.SPAN_NE, a live view of the FIFO (R23). -/
def State.spanNe (s : State) : Bool := !s.fifo.isEmpty

/-- STATUS.SPAN_COUNT, a live view of the FIFO (R23). -/
def State.spanCount (s : State) : Byte := BitVec.ofNat 8 s.fifo.length

/-- FF_OVF as STATUS shows it: while a FILL.SPANS is between its pushes, the value from before the command, since its own
write of FF_OVF becomes visible with the completion (R23, R74, log entry 26). -/
def State.ffOvfShown (s : State) : Bool :=
  match s.phase with
  | .idle => s.ffOvf
  | .issued => s.ffOvf
  | .filling run => run.ffOvfBefore

/-- The STATUS word (R23). -/
def State.statusWord (s : State) : Word :=
  s.spanCount ++ (0 : BitVec 4) ++ s.lastOp ++ s.code.toByte ++ (0 : BitVec 4) ++
    bit s.spanNe ++ bit s.ffOvfShown ++ bit s.labelsValid ++ bit s.busy

/-- The ERR word (R24). -/
def State.errWord (s : State) : Word :=
  (0 : BitVec 30) ++ bit s.errAccerr ++ bit s.errOverrun

/-- The INT_STATUS word (R25). -/
def State.intStatusWord (s : State) : Word :=
  (0 : BitVec 30) ++ bit s.spanNe ++ bit s.intDone

/-- The INT_ENABLE word (R26). -/
def State.intEnableWord (s : State) : Word :=
  (0 : BitVec 30) ++ bit s.spanEn ++ bit s.doneEn

/-- The interrupt output (R255). -/
def State.irq (s : State) : Bool := (s.intDone && s.doneEn) || (s.spanNe && s.spanEn)

/-- The access was malformed (R253). -/
def State.setAccerr (s : State) : State := { s with errAccerr := true }

/-- The access was well-formed and dropped because BUSY = 1 (R71, R253). -/
def State.setOverrun (s : State) : State := { s with errOverrun := true }

/-- A write to ERR: each 1 clears its flag, each 0 leaves it (R24). -/
def State.writeErr (s : State) (v : Word) : State :=
  { s with
    errOverrun := s.errOverrun && !v.getLsbD 0
    errAccerr := s.errAccerr && !v.getLsbD 1 }

/-- A write to INT_STATUS: a 1 in bit 0 clears DONE; bit 1 is ignored (R25). -/
def State.writeIntStatus (s : State) (v : Word) : State :=
  { s with intDone := s.intDone && !v.getLsbD 0 }

/-- A write to INT_ENABLE: bits 1:0 are stored (R26). -/
def State.writeIntEnable (s : State) (v : Word) : State :=
  { s with doneEn := v.getLsbD 0, spanEn := v.getLsbD 1 }

end Sys2Proof.Machine
end

