-- ==== Sys2Proof/Machine/Bus.lean ====
section
/-! DEFINITION. Host accesses (spec 10 R21 to R35, 20 R60 to R73, 60 R253) and the host's register operations:
command issue, resize, write-one-to-clear, capstone link write and span pop. -/

namespace Sys2Proof.Machine

/-! ## The map (R60) -/

/-- The registers of R21. -/
inductive Reg where
  | cmd
  | status
  | err
  | intStatus
  | intEnable
  | width
  | height
  | regionNext
  | arg0
  | arg1
  | res0
  | res1
  | thresh
  | spanY
  | spanX
deriving DecidableEq, Repr

/-- The register at word `k` of the register page, at offset 4·k (R21). -/
def regAt : Nat → Option Reg
  | 0 => some .cmd
  | 1 => some .status
  | 2 => some .err
  | 3 => some .intStatus
  | 4 => some .intEnable
  | 5 => some .width
  | 6 => some .height
  | 7 => some .regionNext
  | 8 => some .arg0
  | 9 => some .arg1
  | 10 => some .res0
  | 11 => some .res1
  | 12 => some .thresh
  | 13 => some .spanY
  | 14 => some .spanX
  | _ => none

/-- What an aligned offset of the aperture names (R60). A buffer is BLOCK (read/write) or one of SYND, SIGMA and
OMEGA (read-only); an image is GRAY (read/write) or LABEL (read-only). -/
inductive Target where
  | register (r : Reg)
  | buffer (writable : Bool)
  | regionWord (id : BitVec 8) (word : Nat)
  | image (writable : Bool) (base : Nat)
  | reserved
deriving DecidableEq, Repr

/-- The target of an offset inside the aperture (R35, R60, R68, R70). -/
def targetOf (off : Nat) : Target :=
  if off < blockBase then
    match regAt (off / 4) with
    | some r => .register r
    | none => .reserved
  else if off < syndBase then .buffer true
  else if off < bufferEnd then .buffer false
  else if off < regionBase then .reserved
  else if off < 0x003000 then .regionWord (BitVec.ofNat 8 ((off - regionBase) / 16)) ((off - regionBase) % 16 / 4)
  else if off < grayBase then .reserved
  else if off < labelBase then .image true grayBase
  else .image false labelBase

/-- The number of byte lanes of an access (R62). -/
def Width.lanes : Width → Nat
  | .w8 => 1
  | .w16 => 2
  | .w32 => 4

/-- R63: naturally aligned. -/
def aligned (w : Width) (off : Nat) : Bool := off % w.lanes == 0

/-- W·H from WIDTH and HEIGHT: lanes at or beyond it are out of range (R65). -/
def State.imageSize (s : State) : Nat := s.width.toNat * s.height.toNat

/-- Some lane of an access at image offset `o` is out of range (R65, R66). -/
def State.laneOutOfRange (s : State) (w : Width) (o : Nat) : Bool := decide (s.imageSize < o + w.lanes)

/-- The little-endian word made of the bytes `f 0`, … in the lanes of an access (R61). -/
def gatherLanes (w : Width) (f : Nat → Byte) : Word :=
  match w with
  | .w8 => (f 0).setWidth 32
  | .w16 => (f 1 ++ f 0).setWidth 32
  | .w32 => f 3 ++ f 2 ++ f 1 ++ f 0

/-- Writes the lanes of `v` for which `ok` holds, the lowest first (R61, R65). -/
def State.writeLanes (s : State) (base : Nat) (w : Width) (v : Word) (ok : Nat → Bool) : State :=
  (List.range w.lanes).foldl (fun acc k => if ok k then acc.writeByte (base + k) (byteOfWord v k) else acc) s

/-! ## Reads -/

/-- A well-formed read of a gated location: its value, or 0 and OVERRUN while BUSY = 1 (R71). -/
def State.gatedRead (s : State) (value : Word) : Word × State :=
  if s.busy then (0, s.setOverrun) else (value, s)

/-- A malformed read: 0 and ACCERR (R62, R63, R70). -/
def State.badRead (s : State) : Word × State := (0, s.setAccerr)

/-- The word of THRESH (R32). -/
def State.threshWord (s : State) : Word := (0 : BitVec 23) ++ bit s.threshInv ++ s.threshT

/-- SPAN_Y: the y of the head entry, 0 when the FIFO is empty (R33). -/
def State.spanYWord (s : State) : Word :=
  match s.fifo with
  | [] => 0
  | sp :: _ => sp.y.setWidth 32

/-- A read of SPAN_X: pops the head entry; with the FIFO empty it returns 0 and sets ACCERR (R34, R173). -/
def State.popSpan (s : State) : Word × State :=
  match s.fifo with
  | [] => s.badRead
  | sp :: rest => (sp.right ++ sp.left, { s with fifo := rest })

/-- An aligned 32-bit read of a register (R21 to R34, R64, R71). -/
def readReg (r : Reg) (s : State) : Word × State :=
  match r with
  | .cmd => s.gatedRead 0
  | .status => (s.statusWord, s)
  | .err => (s.errWord, s)
  | .intStatus => (s.intStatusWord, s)
  | .intEnable => (s.intEnableWord, s)
  | .width => s.gatedRead (s.width.setWidth 32)
  | .height => s.gatedRead (s.height.setWidth 32)
  | .regionNext => s.gatedRead (s.regionNext.setWidth 32)
  | .arg0 => s.gatedRead s.arg0
  | .arg1 => s.gatedRead s.arg1
  | .res0 => s.gatedRead s.res0
  | .res1 => s.gatedRead s.res1
  | .thresh => s.gatedRead s.threshWord
  | .spanY => (s.spanYWord, s)
  | .spanX => s.popSpan

/-- Word `k` of region-table entry `id`: 0 in every word of an unallocated entry (R43, R68). -/
def State.regionWord (s : State) (id : BitVec 8) (k : Nat) : Word :=
  if s.allocated id then
    match k with
    | 0 => (s.region id).seedY ++ (s.region id).seedX
    | 1 => (s.region id).area
    | 2 => (s.region id).capstone.setWidth 32
    | _ => 0
  else 0

/-- A read of the GRAY or LABEL window: each lane in range is read, the others read 0; any lane out of range
makes the access malformed (R65, R66). -/
def readImage (w : Width) (base off : Nat) (s : State) : Word × State :=
  if s.laneOutOfRange w (off - base) then
    if s.busy then s.badRead
    else (gatherLanes w fun k => if off - base + k < s.imageSize then s.readByte (off + k) else 0, s.setAccerr)
  else s.gatedRead (gatherLanes w fun k => s.readByte (off + k))

/-- MemRead(off, n): the value read and the block after it (R60 to R71). -/
def busRead (w : Width) (off : Nat) (s : State) : Word × State :=
  if !aligned w off then s.badRead
  else
    match targetOf off with
    | .register r => if w = .w32 then readReg r s else s.badRead
    | .buffer _ => s.gatedRead (gatherLanes w fun k => s.readByte (off + k))
    | .regionWord id k => if w = .w32 then s.gatedRead (s.regionWord id k) else s.badRead
    | .image _ base => readImage w base off s
    | .reserved => s.badRead

/-! ## Writes -/

/-- A well-formed write of a gated location: `act`, or dropped with OVERRUN while BUSY = 1 (R71). -/
def State.gatedWrite (s : State) (act : State) : State := if s.busy then s.setOverrun else act

/-- A write of WIDTH: a value above MAX_W is malformed; an accepted one resizes (R27, R127). -/
def writeWidth (p : Params) (v : Half) (s : State) : State :=
  if p.maxW < v.toNat then s.setAccerr
  else s.gatedWrite (State.resized { s with width := v })

/-- A write of HEIGHT: as WIDTH, with MAX_H (R28, R127). -/
def writeHeight (p : Params) (v : Half) (s : State) : State :=
  if p.maxH < v.toNat then s.setAccerr
  else s.gatedWrite (State.resized { s with height := v })

/-- An aligned 32-bit write of a register (R21 to R34, R64, R71). -/
def writeReg (p : Params) (r : Reg) (v : Word) (s : State) : State :=
  match r with
  | .cmd => s.gatedWrite (s.issue v)
  | .err => s.writeErr v
  | .intStatus => s.writeIntStatus v
  | .intEnable => s.writeIntEnable v
  | .width => writeWidth p (v.extractLsb' 0 16) s
  | .height => writeHeight p (v.extractLsb' 0 16) s
  | .arg0 => s.gatedWrite { s with arg0 := v }
  | .arg1 => s.gatedWrite { s with arg1 := v }
  | .status | .regionNext | .res0 | .res1 | .thresh | .spanY | .spanX => s.setAccerr

/-- The capstone link write: word +8 of an allocated entry takes bits 15:0 (R68, R171). Any other word, and
an unallocated entry, is malformed. -/
def writeRegionWord (id : BitVec 8) (k : Nat) (v : Word) (s : State) : State :=
  if k = 2 ∧ s.allocated id then
    s.gatedWrite (s.setRegion id { s.region id with capstone := v.extractLsb' 0 16 })
  else s.setAccerr

/-- A write of the GRAY window: each lane in range is written; any lane out of range makes the access
malformed (R65). -/
def writeGray (w : Width) (off : Nat) (v : Word) (s : State) : State :=
  if s.laneOutOfRange w (off - grayBase) then
    if s.busy then s.setAccerr
    else (s.writeLanes off w v fun k => decide (off - grayBase + k < s.imageSize)).setAccerr
  else s.gatedWrite (s.writeLanes off w v fun _ => true)

/-- MemWrite(off, n, v): the block after it (R60 to R71). Bits of `v` above the access width are not
carried (log entry 21). -/
def busWrite (p : Params) (w : Width) (off : Nat) (v : Word) (s : State) : State :=
  if !aligned w off then s.setAccerr
  else
    match targetOf off with
    | .register r => if w = .w32 then writeReg p r v s else s.setAccerr
    | .buffer true => s.gatedWrite (s.writeLanes off w v fun _ => true)
    | .buffer false => s.setAccerr
    | .regionWord id k => if w = .w32 then writeRegionWord id k v s else s.setAccerr
    | .image true _ => writeGray w off v s
    | .image false _ => s.setAccerr
    | .reserved => s.setAccerr

/-! ## One access -/

/-- The offset an access names. -/
def Access.offset : Access → Nat
  | .rd _ off => off
  | .wr _ off _ => off

/-- A host access (R60 to R73). A read leaves its value in `readData` (log entry 8). -/
def busAccess (p : Params) (a : Access) (s : State) : State :=
  match a with
  | .rd w off => { (busRead w off s).2 with readData := (busRead w off s).1 }
  | .wr w off v => busWrite p w off v s

/-- A host access, refused beyond the aperture (R70, log entry 11). -/
def hostAccess (a : Access) (s : State) : Host.Outcome State Fault Refusal :=
  if apertureEnd ≤ a.offset then .refused .outsideAperture
  else .next (busAccess Config.params a s)

end Sys2Proof.Machine
end

