-- ==== Sys2Proof/Machine/Control.lean ====
section
/-! DEFINITION. The control commands NOP and BEGIN and the reserved opcodes (spec 40 R124 to R126). -/

namespace Sys2Proof.Machine

/-- NOP completes with OK (R124). -/
def execNop (s : State) : Host.Outcome State Fault Refusal :=
  .next (s.complete Instr.nop.opcode .ok 0 0)

/-- BEGIN starts a new frame: LABELS_VALID and FF_OVF are cleared, the regions and the FIFO emptied (R125). -/
def execBeginFrame (s : State) : Host.Outcome State Fault Refusal :=
  .next ((s.newFrame false).complete Instr.beginFrame.opcode .ok 0 0)

/-- The reserved opcode 0x7 completes with BAD_COMMAND (R126). -/
def execReserved7 (s : State) : Host.Outcome State Fault Refusal :=
  .next (s.completeError Instr.reserved7.opcode .badCommand)

/-- A reserved opcode 0x8..0xF completes with BAD_COMMAND and its own LAST_OP (R126). -/
def execReserved8F (op : BitVec 4) (s : State) : Host.Outcome State Fault Refusal :=
  .next (s.completeError (Instr.reserved8F op).opcode .badCommand)

end Sys2Proof.Machine
end

