-- ==== Sys2Proof/Machine/Galois.lean ====
section
/-! DEFINITION. Galois-field tables, polynomials and Berlekamp–Massey (spec 43 R190 to R202). -/

namespace Sys2Proof.Machine

/-! ## Fields -/

/-- EXP256[0..255], one line per row of the table (R191). -/
def exp256Table : List Nat :=
  [1, 2, 4, 8, 16, 32, 64, 128, 29, 58, 116, 232, 205, 135, 19, 38] ++
  [76, 152, 45, 90, 180, 117, 234, 201, 143, 3, 6, 12, 24, 48, 96, 192] ++
  [157, 39, 78, 156, 37, 74, 148, 53, 106, 212, 181, 119, 238, 193, 159, 35] ++
  [70, 140, 5, 10, 20, 40, 80, 160, 93, 186, 105, 210, 185, 111, 222, 161] ++
  [95, 190, 97, 194, 153, 47, 94, 188, 101, 202, 137, 15, 30, 60, 120, 240] ++
  [253, 231, 211, 187, 107, 214, 177, 127, 254, 225, 223, 163, 91, 182, 113, 226] ++
  [217, 175, 67, 134, 17, 34, 68, 136, 13, 26, 52, 104, 208, 189, 103, 206] ++
  [129, 31, 62, 124, 248, 237, 199, 147, 59, 118, 236, 197, 151, 51, 102, 204] ++
  [133, 23, 46, 92, 184, 109, 218, 169, 79, 158, 33, 66, 132, 21, 42, 84] ++
  [168, 77, 154, 41, 82, 164, 85, 170, 73, 146, 57, 114, 228, 213, 183, 115] ++
  [230, 209, 191, 99, 198, 145, 63, 126, 252, 229, 215, 179, 123, 246, 241, 255] ++
  [227, 219, 171, 75, 150, 49, 98, 196, 149, 55, 110, 220, 165, 87, 174, 65] ++
  [130, 25, 50, 100, 200, 141, 7, 14, 28, 56, 112, 224, 221, 167, 83, 166] ++
  [81, 162, 89, 178, 121, 242, 249, 239, 195, 155, 43, 86, 172, 69, 138, 9] ++
  [18, 36, 72, 144, 61, 122, 244, 245, 247, 243, 251, 235, 203, 139, 11, 22] ++
  [44, 88, 176, 125, 250, 233, 207, 131, 27, 54, 108, 216, 173, 71, 142, 1]

/-- LOG256[0..255], one line per row of the table (R191). Entry 0 is the parameter LOG0 and is not read here. -/
def log256Table : List Nat :=
  [0, 0, 1, 25, 2, 50, 26, 198, 3, 223, 51, 238, 27, 104, 199, 75] ++
  [4, 100, 224, 14, 52, 141, 239, 129, 28, 193, 105, 248, 200, 8, 76, 113] ++
  [5, 138, 101, 47, 225, 36, 15, 33, 53, 147, 142, 218, 240, 18, 130, 69] ++
  [29, 181, 194, 125, 106, 39, 249, 185, 201, 154, 9, 120, 77, 228, 114, 166] ++
  [6, 191, 139, 98, 102, 221, 48, 253, 226, 152, 37, 179, 16, 145, 34, 136] ++
  [54, 208, 148, 206, 143, 150, 219, 189, 241, 210, 19, 92, 131, 56, 70, 64] ++
  [30, 66, 182, 163, 195, 72, 126, 110, 107, 58, 40, 84, 250, 133, 186, 61] ++
  [202, 94, 155, 159, 10, 21, 121, 43, 78, 212, 229, 172, 115, 243, 167, 87] ++
  [7, 112, 192, 247, 140, 128, 99, 13, 103, 74, 222, 237, 49, 197, 254, 24] ++
  [227, 165, 153, 119, 38, 184, 180, 124, 17, 68, 146, 217, 35, 32, 137, 46] ++
  [55, 63, 209, 91, 149, 188, 207, 205, 144, 135, 151, 178, 220, 252, 190, 97] ++
  [242, 86, 211, 171, 20, 42, 93, 158, 132, 60, 57, 83, 71, 109, 65, 162] ++
  [31, 45, 67, 216, 183, 123, 164, 118, 196, 23, 73, 236, 127, 12, 111, 246] ++
  [108, 161, 59, 82, 41, 157, 85, 170, 251, 96, 134, 177, 187, 204, 62, 90] ++
  [203, 89, 95, 176, 156, 169, 160, 81, 11, 245, 22, 235, 122, 117, 44, 215] ++
  [79, 174, 213, 233, 230, 231, 173, 232, 116, 214, 244, 234, 168, 80, 88, 175]

/-- EXP16[0..15] (R192). -/
def exp16Table : List Nat := [1, 2, 4, 8, 3, 6, 12, 11, 5, 10, 7, 14, 15, 13, 9, 1]

/-- LOG16[0..15] (R192). -/
def log16Table : List Nat := [0, 0, 1, 4, 2, 8, 5, 10, 3, 14, 9, 7, 6, 13, 11, 12]

/-- EXP256[k], for k in 0..255 (R191). -/
def exp256 (k : Nat) : Byte := BitVec.ofNat 8 (exp256Table.getD k 0)

/-- LOG256[v], whose entry for the zero element is the parameter LOG0 (R191). -/
def log256 (log0 : Nat) (v : Byte) : Nat := if v = 0 then log0 else log256Table.getD v.toNat 0

/-- EXP16[k], for k in 0..15 (R192). An element of GF(16) is a byte below 16. -/
def exp16 (k : Nat) : Byte := BitVec.ofNat 8 (exp16Table.getD k 0)

/-- LOG16[v] (R192). -/
def log16 (v : Byte) : Nat := log16Table.getD v.toNat 0

/-- A field descriptor F = (p, EXP, LOG) (R190, R194). -/
structure FieldTables where
  p : Nat
  exp : Nat → Byte
  log : Byte → Nat

/-- The descriptor GF16 (R194). -/
def gf16 : FieldTables := ⟨15, exp16, log16⟩

/-- The descriptor GF256 (R194), with LOG0 as its parameter. -/
def gf256 (log0 : Nat) : FieldTables := ⟨255, exp256, log256 log0⟩

/-- The table product of two elements, without a guard for zero (R193). -/
def FieldTables.mul (F : FieldTables) (a b : Byte) : Byte := F.exp ((F.log a + F.log b) % F.p)

/-- The table quotient of two elements, without a guard for zero (R193). -/
def FieldTables.div (F : FieldTables) (a b : Byte) : Byte := F.exp ((F.p - F.log b + F.log a) % F.p)

/-! ## Polynomials -/

/-- A polynomial register: MAX_POLY coefficients, lowest degree first (R196). -/
abbrev Poly := List Byte

/-- The polynomial with coefficient `f i` at x^i (R196). -/
def polyTab (f : Nat → Byte) : Poly := (List.range maxPoly).map f

/-- P[i]; coefficients at or above MAX_POLY do not exist (R196). -/
def polyCoef (P : Poly) (i : Nat) : Byte := P.getD i 0

/-- The polynomial 1. -/
def polyOne : Poly := polyTab fun i => if i = 0 then 1 else 0

/-- The sum (exclusive or) of `f 0`, …, `f (n - 1)` (R9, R190). -/
def xorSum (n : Nat) (f : Nat → Byte) : Byte := (List.range n).foldl (fun acc i => acc ^^^ f i) 0

/-- POLY_EVAL(P, x, F) (R197). -/
def polyEval (F : FieldTables) (P : Poly) (x : Byte) : Byte :=
  if x = 0 then polyCoef P 0
  else xorSum maxPoly fun i =>
    if polyCoef P i = 0 then 0 else F.exp ((F.log (polyCoef P i) + F.log x * i) % F.p)

/-- POLY_ADD(dst, src, c, shift, F): dst + c·x^shift·src, truncated at MAX_POLY (R198). -/
def polyAdd (F : FieldTables) (dst src : Poly) (c : Byte) (shift : Nat) : Poly :=
  if c = 0 then dst
  else polyTab fun j =>
    if shift ≤ j ∧ polyCoef src (j - shift) ≠ 0
    then polyCoef dst j ^^^ F.mul (polyCoef src (j - shift)) c
    else polyCoef dst j

/-! ## Berlekamp–Massey -/

/-- The registers C, B, L, m and b of BM (R199). -/
structure BmState where
  c : Poly
  b : Poly
  len : Nat
  m : Nat
  last : Byte
deriving DecidableEq, Repr

/-- BM's registers before the first step (R199). -/
def BmState.start : BmState := ⟨polyOne, polyOne, 0, 1, 1⟩

/-- The discrepancy d of step n (R199). -/
def bmDiscrepancy (F : FieldTables) (S : Poly) (st : BmState) (n : Nat) : Byte :=
  polyCoef S n ^^^ xorSum st.len fun k =>
    if polyCoef st.c (k + 1) = 0 ∨ polyCoef S (n - (k + 1)) = 0 then 0
    else F.mul (polyCoef st.c (k + 1)) (polyCoef S (n - (k + 1)))

/-- Step n of BM (R199). -/
def bmStep (F : FieldTables) (S : Poly) (st : BmState) (n : Nat) : BmState :=
  let d := bmDiscrepancy F S st n
  let mult := F.div d st.last
  if d = 0 then { st with m := st.m + 1 }
  else if 2 * st.len ≤ n then
    { c := polyAdd F st.c st.b mult st.m, b := st.c, len := n + 1 - st.len, m := 1, last := d }
  else { st with c := polyAdd F st.c st.b mult st.m, m := st.m + 1 }

/-- BM(S, N, F): the error locator σ is the register `c`, and L is `len` (R199). -/
def bm (F : FieldTables) (S : Poly) (n : Nat) : BmState :=
  (List.range n).foldl (bmStep F S) BmState.start

end Sys2Proof.Machine
end

