-- ==== Sys2Proof/Machine/Operands.lean ====
section
/-! DEFINITION. The operand formats of the command in execution (spec 30 R94) and the result
formats (R95). A field R94 does not list is never read. -/

namespace Sys2Proof.Machine

/-- W, the image width captured at issue (R120). -/
def Cmd.w (c : Cmd) : Nat := c.width.toNat

/-- H, the image height captured at issue (R120). -/
def Cmd.h (c : Cmd) : Nat := c.height.toNat

/-- x of REGION_CODE and FILL: ARG0[15:0] (R94). -/
def Cmd.seedX (c : Cmd) : Half := c.arg0.extractLsb' 0 16

/-- y of REGION_CODE and FILL: ARG0[31:16] (R94). -/
def Cmd.seedY (c : Cmd) : Half := c.arg0.extractLsb' 16 16

/-- FROM of FILL: ARG1[7:0] (R94). -/
def Cmd.fromLabel (c : Cmd) : Byte := c.arg1.extractLsb' 0 8

/-- TO of FILL: ARG1[15:8] (R94). -/
def Cmd.toLabel (c : Cmd) : Byte := c.arg1.extractLsb' 8 8

/-- u of FMT_CORRECT: ARG0[14:0] (R94). -/
def Cmd.fmtWord (c : Cmd) : BitVec 15 := c.arg0.extractLsb' 0 15

/-- bs of RS_CORRECT: ARG0[7:0] (R94). -/
def Cmd.blockSize (c : Cmd) : Nat := (c.arg0.extractLsb' 0 8).toNat

/-- dw of RS_CORRECT: ARG0[15:8] (R94). -/
def Cmd.dataWords (c : Cmd) : Nat := (c.arg0.extractLsb' 8 8).toNat

/-- The seed lies in the image (R166, R169). -/
def Cmd.seedInImage (c : Cmd) : Bool :=
  decide (c.seedX.toNat < c.w ∧ c.seedY.toNat < c.h)

/-- RES0 of REGION_CODE when it answers "none" (R95). -/
def noRegion : Word := 0xFFFFFFFF

/-- RES1 of REGION_CODE (R95). -/
def reasonExisting : Word := 0
/-- RES1 of REGION_CODE (R95). -/
def reasonNew : Word := 1
/-- RES1 of REGION_CODE (R95). -/
def reasonWhite : Word := 2
/-- RES1 of REGION_CODE (R95). -/
def reasonOutOfRange : Word := 3
/-- RES1 of REGION_CODE (R95). -/
def reasonTableFull : Word := 4

/-- RES1 of the ECC commands: bits 7:0 the count, bits 15:8 the BM length L (R95). -/
def eccResult (len count : Nat) : Word :=
  (0 : Half) ++ BitVec.ofNat 8 len ++ BitVec.ofNat 8 count

end Sys2Proof.Machine
end

