-- ==== Sys2Proof/Machine/Ecc.lean ====
section
/-! DEFINITION. FMT_CORRECT and RS_CORRECT (spec 44 R220 to R233). -/

namespace Sys2Proof.Machine

/-- The first `n` coefficients are all zero. -/
def allZero (S : Poly) (n : Nat) : Bool := (List.range n).all fun i => polyCoef S i == 0

/-- SYND[0..63], SIGMA[0..63] and OMEGA[0..63] take the values given (R39 to R41). -/
def writeEccArrays (s : State) (synd sigma omega : Poly) : State :=
  ((s.writeBytes syndBase maxPoly (polyCoef synd)).writeBytes sigmaBase maxPoly (polyCoef sigma)).writeBytes
    omegaBase maxPoly (polyCoef omega)

/-- The zero polynomial. -/
def polyZero : Poly := polyTab fun _ => 0

/-! ## Format word -/

/-- FMT_SYNDROMES(u): S[i] is the word evaluated at α^(i+1), for i in 0..5 (R221). -/
def fmtSyndromes (u : BitVec 15) : Poly :=
  polyTab fun i =>
    if i < fmtSynd then xorSum fmtBits fun j => if u.getLsbD j then exp16 (((i + 1) * j) % 15) else 0
    else 0

/-- Bit position i is in error: σ(α^(−i)) = 0 (R222). -/
def fmtIsError (sigma : Poly) (i : Nat) : Bool := polyEval gf16 sigma (exp16 (15 - i)) == 0

/-- The word with every bit in error flipped, and how many there were (R220, R222). -/
def fmtFlip (sigma : Poly) (u : BitVec 15) : BitVec 15 × Nat :=
  (List.range fmtBits).foldl
    (fun acc i => if fmtIsError sigma i then (acc.1 ^^^ (1 <<< i), acc.2 + 1) else acc) (u, 0)

/-- FMT_CORRECT(u) (R220, R223). -/
def fmtCommand (op : BitVec 4) (s : State) : State :=
  let u := s.cur.fmtWord
  let S := fmtSyndromes u
  if allZero S fmtSynd then
    (writeEccArrays s S polyOne polyZero).complete op .ok (u.setWidth 32) 0
  else
    let r := bm gf16 S fmtSynd
    let flipped := fmtFlip r.c u
    let written := writeEccArrays s S r.c polyZero
    let res1 := eccResult r.len flipped.2
    if allZero (fmtSyndromes flipped.1) fmtSynd then written.complete op .ok (flipped.1.setWidth 32) res1
    else written.complete op .formatEcc (u.setWidth 32) res1

/-! ## Reed–Solomon block -/

/-- RS_SYNDROMES(BLOCK, bs, npar): S[i] is the block evaluated at α^i, for i in 0..npar−1;
BLOCK[bs−1−j] is the coefficient of x^j (R225). -/
def rsSyndromes (F : FieldTables) (s : State) (bs npar : Nat) : Poly :=
  polyTab fun i =>
    if i < npar then
      xorSum bs fun j =>
        if s.block (bs - 1 - j) = 0 then 0
        else F.exp ((F.log (s.block (bs - 1 - j)) + i * j) % F.p)
    else 0

/-- DERIV(σ): the formal derivative (R226). -/
def polyDeriv (sigma : Poly) : Poly :=
  polyTab fun k => if k ≤ 62 ∧ k % 2 = 0 then polyCoef sigma (k + 1) else 0

/-- EVALUATOR(S, σ, npar): ω[k] is the sum of σ[i]·S[k−i+1] over i in 0..k, for k in 0..npar−2 (R227). -/
def evaluator (F : FieldTables) (S sigma : Poly) (npar : Nat) : Poly :=
  polyTab fun k =>
    if k + 2 ≤ npar then
      xorSum (k + 1) fun i =>
        if polyCoef sigma i = 0 ∨ polyCoef S (k - i + 1) = 0 then 0
        else F.mul (polyCoef sigma i) (polyCoef S (k - i + 1))
    else 0

/-- The magnitude to XOR in at codeword index i, if α^(−i) is a root of σ.
The division has no zero guard (R228). -/
def rsMagnitude (F : FieldTables) (sigma deriv omega : Poly) (i : Nat) : Option Byte :=
  let x := F.exp (255 - i)
  if polyEval F sigma x = 0 then some (F.div (polyEval F omega x) (polyEval F deriv x)) else none

/-- CORRECT(σ, σ′, ω, bs): the block with every magnitude XORed in, and how many there were (R228). -/
def rsCorrectBlock (F : FieldTables) (sigma deriv omega : Poly) (bs : Nat) (s : State) : State × Nat :=
  (List.range bs).foldl
    (fun acc i =>
      match rsMagnitude F sigma deriv omega i with
      | none => acc
      | some e => (acc.1.writeByte (blockBase + (bs - 1 - i)) (acc.1.block (bs - 1 - i) ^^^ e), acc.2 + 1))
    (s, 0)

/-- R224's operand check fails. -/
def rsBadParam (bs dw : Nat) : Bool := decide (bs = 0 ∨ bs ≤ dw ∨ nparMax < bs - dw)

/-- RS_CORRECT(bs, dw) (R224, R230). -/
def rsCommand (p : Params) (op : BitVec 4) (s : State) : State :=
  let F := gf256 p.log0
  let bs := s.cur.blockSize
  let dw := s.cur.dataWords
  let npar := bs - dw
  if rsBadParam bs dw then s.completeError op .badParam
  else
    let S := rsSyndromes F s bs npar
    if allZero S npar then (writeEccArrays s S polyOne polyZero).complete op .ok 0 0
    else
      let r := bm F S npar
      let omega := evaluator F S r.c npar
      let corrected := rsCorrectBlock F r.c (polyDeriv r.c) omega bs (writeEccArrays s S r.c omega)
      let code := if allZero (rsSyndromes F corrected.1 bs npar) npar then .ok else .dataEcc
      corrected.1.complete op code 0 (eccResult r.len corrected.2)

/-- FMT_CORRECT (R220). -/
def execFmtCorrect (s : State) : Host.Outcome State Fault Refusal :=
  .next (fmtCommand Instr.fmtCorrect.opcode s)

/-- RS_CORRECT (R224). -/
def execRsCorrect (s : State) : Host.Outcome State Fault Refusal :=
  .next (rsCommand Config.params Instr.rsCorrect.opcode s)

end Sys2Proof.Machine
end

