-- ==== Sys2Proof/Machine/Regions.lean ====
section
/-! DEFINITION. The region labeler: the flood fill, REGION_CODE, FILL and FILL.SPANS (spec 42 R160 to R173). -/

namespace Sys2Proof.Machine

/-! ## Flood fill -/

/-- What a flood fill works with: the image size captured at issue, the two labels, and the stack bound
FF_DEPTH (R160, R161). -/
structure FillCtx where
  w : Nat
  h : Nat
  source : Byte
  target : Byte
  depth : Nat
deriving DecidableEq, Repr

/-- LABEL[y][x] (R37): index y·W + x. -/
def FillCtx.labelAt (c : FillCtx) (s : State) (x y : Nat) : Byte := s.label (y * c.w + x)

/-- LABEL[y][x] == FROM. -/
def FillCtx.isFrom (c : FillCtx) (s : State) (y x : Nat) : Bool := c.labelAt s x y == c.source

/-- The leftmost column reached from `x` while the cell to the left holds FROM (R160). -/
def extendLeft (isFrom : Nat → Bool) : Nat → Nat
  | 0 => 0
  | l + 1 => if isFrom l then extendLeft isFrom l else l + 1

/-- The rightmost column reached from `r`, at most `room` columns on, while the cell to the right holds
FROM (R160). -/
def extendRight (isFrom : Nat → Bool) : Nat → Nat → Nat
  | 0, r => r
  | room + 1, r => if isFrom (r + 1) then extendRight isFrom room (r + 1) else r

/-- The span FILL_LINE(x, y) finds (R160). -/
def lineSpan (c : FillCtx) (s : State) (x y : Nat) : Nat × Nat :=
  (extendLeft (c.isFrom s y) x, extendRight (c.isFrom s y) (c.w - 1 - x) x)

/-- LABEL[y][l..r] <- TO (R160). -/
def relabelSpan (c : FillCtx) (s : State) (y l r : Nat) : State :=
  s.writeBytes (labelBase + (y * c.w + l)) (r + 1 - l) fun _ => c.target

/-- A fill in progress: the machine, the stack (top first), and what VISIT has counted (R161, R164). -/
structure Fill where
  s : State
  stack : List Frame
  spans : Nat
  pixels : Nat

/-- FILL_LINE(x, y), the visitor's counts, and the new frame pushed on the stack (R160, R161, R164). -/
def visitLine (c : FillCtx) (f : Fill) (x y : Nat) : Fill × Span :=
  let lr := lineSpan c f.s x y
  let l := BitVec.ofNat 16 lr.1
  let r := BitVec.ofNat 16 lr.2
  let yy := BitVec.ofNat 16 y
  ({ s := relabelSpan c f.s y lr.1 lr.2
     stack := ⟨yy, r, l, l⟩ :: f.stack
     spans := f.spans + 1
     pixels := f.pixels + (lr.2 - lr.1 + 1) }, ⟨yy, l, r⟩)

/-- Moves a cursor right over at most `room` columns until it stands on a FROM cell: the cursor, and whether
it found one (R161). -/
def scanRow (isFrom : Nat → Bool) : Nat → Nat → Nat × Bool
  | 0, x => (x, false)
  | room + 1, x => if isFrom x then (x, true) else scanRow isFrom room (x + 1)

/-- A frame's next unfilled FROM neighbour, the row above first, and the frame with its cursors saved (R161). -/
def nextChild (c : FillCtx) (s : State) (f : Frame) : Frame × Option (Nat × Nat) :=
  let y := f.y.toNat
  let right := f.right.toNat
  let above := if 0 < y then scanRow (c.isFrom s (y - 1)) (right + 1 - f.up.toNat) f.up.toNat
    else (f.up.toNat, false)
  if above.2 then ({ f with up := BitVec.ofNat 16 above.1 }, some (above.1, y - 1))
  else
    let below := if y + 1 < c.h then scanRow (c.isFrom s (y + 1)) (right + 1 - f.down.toNat) f.down.toNat
      else (f.down.toNat, false)
    ({ f with up := BitVec.ofNat 16 above.1, down := BitVec.ofNat 16 below.1 },
      if below.2 then some (below.1, y + 1) else none)

/-- What a fill does next: it is over, it stops because the stack is full, or it goes on to a child
at (x, y) (R161, R162). -/
inductive Advance where
  | finished
  | overflow (stack : List Frame)
  | child (stack : List Frame) (x y : Nat)
deriving DecidableEq, Repr

/-- Pops frames until one has an unfilled FROM neighbour (R161). There is no room for the child when the stack
holds FF_DEPTH frames (R162). -/
def advance (c : FillCtx) (s : State) : List Frame → Advance
  | [] => .finished
  | f :: below =>
    match nextChild c s f with
    | (f', some (x, y)) =>
      if c.depth ≤ (f' :: below).length then .overflow (f' :: below) else .child (f' :: below) x y
    | (_, none) => advance c s below

/-- FLOOD's loop, and whether it overflowed (R161, R162). Each child relabels at least one cell, so W·H turns
are enough (R128, log entry 15). -/
def floodLoop (c : FillCtx) : Nat → Fill → Fill × Bool
  | 0, f => (f, false)
  | turns + 1, f =>
    match advance c f.s f.stack with
    | .finished => ({ f with stack := [] }, false)
    | .overflow stack => ({ f with stack := stack }, true)
    | .child stack x y => floodLoop c turns (visitLine c { f with stack := stack } x y).1

/-- A fill that has not begun. -/
def Fill.start (s : State) : Fill := ⟨s, [], 0, 0⟩

/-- FLOOD(x0, y0) (R161), and whether it overflowed. -/
def flood (c : FillCtx) (x y : Nat) (s : State) : Fill × Bool :=
  floodLoop c (c.w * c.h + 1) (visitLine c (Fill.start s) x y).1

/-! ## REGION_CODE -/

/-- The fill context of REGION_CODE: FROM = 1, TO = id (R165). -/
def regionCtx (p : Params) (c : Cmd) (id : Byte) : FillCtx := ⟨c.w, c.h, 1, id, p.ffDepth⟩

/-- The NEW case: allocates `id` = REGION_NEXT for the seed and floods its black component (R165, R167). -/
def allocateRegion (p : Params) (s : State) : State :=
  let id : BitVec 8 := s.regionNext.setWidth 8
  let x := s.cur.seedX
  let y := s.cur.seedY
  let r := flood (regionCtx p s.cur id) x.toNat y.toNat { s with regionNext := s.regionNext + 1 }
  State.setRegion { r.1.s with ffOvf := r.2 } id ⟨x, y, BitVec.ofNat 32 r.1.pixels, 0xFFFF⟩

/-- REGION_CODE(x, y) (R165, R166). -/
def regionCodeCommand (p : Params) (op : BitVec 4) (s0 : State) : State :=
  if !s0.labelsValid then s0.completeError op .notReady
  else
    let s := { s0 with ffOvf := false }
    if !s.cur.seedInImage then s.complete op .ok noRegion reasonOutOfRange
    else
      let v := s.label (s.cur.seedY.toNat * s.cur.w + s.cur.seedX.toNat)
      if 2 ≤ v.toNat then s.complete op .ok (v.setWidth 32) reasonExisting
      else if v = 0 then s.complete op .ok noRegion reasonWhite
      else if 2 + p.maxRegions ≤ s.regionNext.toNat then s.complete op .ok noRegion reasonTableFull
      else (allocateRegion p s).complete op .ok (s.regionNext.setWidth 32) reasonNew

/-! ## FILL -/

/-- The fill context of FILL (R168). -/
def fillCtx (p : Params) (c : Cmd) : FillCtx := ⟨c.w, c.h, c.fromLabel, c.toLabel, p.ffDepth⟩

/-- CHECK_FILL: the first failing check, if any (R169). -/
def fillCheck (s : State) : Option StatusCode :=
  let c := s.cur
  if !s.labelsValid then some .notReady
  else if !c.seedInImage then some .badParam
  else if c.fromLabel = c.toLabel then some .badParam
  else if s.label (c.seedY.toNat * c.w + c.seedX.toNat) ≠ c.fromLabel then some .badParam
  else none

/-- FILL completes: FF_OVF <- ovf, RES0 = spans, RES1 = pixels (R168). -/
def fillComplete (op : BitVec 4) (s : State) (ovf : Bool) (spans pixels : Nat) : State :=
  State.complete { s with ffOvf := ovf } op .ok (BitVec.ofNat 32 spans) (BitVec.ofNat 32 pixels)

/-- FILL with SPANS = 0 (R168). -/
def fillCommand (p : Params) (op : BitVec 4) (s : State) : State :=
  match fillCheck s with
  | some code => s.completeError op code
  | none =>
    let r := flood (fillCtx p s.cur) s.cur.seedX.toNat s.cur.seedY.toNat { s with ffOvf := false }
    fillComplete op r.1.s r.2 r.1.spans r.1.pixels

/-! ## FILL.SPANS, one engine step per push (R170) -/

/-- PUSH_SPAN: the span enters the FIFO, or the engine holds with it while the FIFO is full (R170). `before` is the FF_OVF
that STATUS goes on showing (R74). -/
def pushSpan (p : Params) (before : Bool) (f : Fill) (sp : Span) : State :=
  if f.s.fifo.length < p.spanFifoDepth then
    { f.s with fifo := f.s.fifo ++ [sp], phase := .filling ⟨f.stack, f.spans, f.pixels, none, before⟩ }
  else
    { f.s with phase := .filling ⟨f.stack, f.spans, f.pixels, some sp, before⟩ }

/-- The first engine step of FILL.SPANS: the checks, then the seed's span, filled, visited and pushed (R168 to R170).
FF_OVF is cleared here, at the command's start (R23, R162, R168), and STATUS shows its old value until the completion, since
only the FIFO entries, SPAN_COUNT and SPAN_NE are visible before (R74, log entries 4 and 26). -/
def fillSpansStart (p : Params) (op : BitVec 4) (s : State) : State :=
  match fillCheck s with
  | some code => s.completeError op code
  | none =>
    let v := visitLine (fillCtx p s.cur) (Fill.start { s with ffOvf := false, fifo := [] })
      s.cur.seedX.toNat s.cur.seedY.toNat
    pushSpan p s.ffOvf v.1 v.2

/-- A later engine step of FILL.SPANS: a held span is pushed when the FIFO has room; otherwise the fill
goes on to its next span, or completes (R161, R168, R170). -/
def fillSpansContinue (p : Params) (op : BitVec 4) (run : FillRun) (s : State) : State :=
  match run.held with
  | some sp =>
    if s.fifo.length < p.spanFifoDepth then pushSpan p run.ffOvfBefore ⟨s, run.stack, run.spans, run.pixels⟩ sp else s
  | none =>
    match advance (fillCtx p s.cur) s run.stack with
    | .finished => fillComplete op s false run.spans run.pixels
    | .overflow _ => fillComplete op s true run.spans run.pixels
    | .child stack x y =>
      let v := visitLine (fillCtx p s.cur) ⟨s, stack, run.spans, run.pixels⟩ x y
      pushSpan p run.ffOvfBefore v.1 v.2

/-! ## Meanings -/

/-- REGION_CODE (R165). -/
def execRegionCode (s : State) : Host.Outcome State Fault Refusal :=
  .next (regionCodeCommand Config.params Instr.regionCode.opcode s)

/-- FILL (R168). -/
def execFill (s : State) : Host.Outcome State Fault Refusal :=
  .next (fillCommand Config.params Instr.fill.opcode s)

/-- FILL.SPANS: its first engine step (R168, R170). -/
def execFillSpans (s : State) : Host.Outcome State Fault Refusal :=
  .next (fillSpansStart Config.params Instr.fillSpans.opcode s)

end Sys2Proof.Machine
end

