-- ==== Sys2Proof/Machine/Threshold.lean ====
section
/-! DEFINITION. THRESHOLD and THRESHOLD.INV (spec 41 R140 to R150). -/

namespace Sys2Proof.Machine

/-- The margin of an axis of length `n`: ⌊n / MARGIN_DIV⌋ (R142). -/
def margin (n : Nat) : Nat := n / marginDiv

/-- The length of the central window of an axis of length `n` (R142). -/
def windowLength (n : Nat) : Nat := n - 2 * margin n

/-- N, the number of pixels in the central window (R142). -/
def windowSize (w h : Nat) : Nat := windowLength w * windowLength h

/-- The GRAY values of the central window, row by row (R142, R143). -/
def windowPixels (s : State) (w h : Nat) : List Byte :=
  (List.range (windowLength h)).flatMap fun dy =>
    (List.range (windowLength w)).map fun dx =>
      s.gray ((margin h + dy) * w + (margin w + dx))

/-- hist[v]: how many of the pixels have the value v (R143). -/
def histogram (pixels : List Byte) (v : Nat) : Nat := pixels.countP fun p => p.toNat == v

/-- total: the sum of v·hist[v] over v in 0..255 (R143). -/
def histTotal (hist : Nat → Nat) : Nat := ((List.range 256).map fun v => v * hist v).sum

/-- The numerator of a level's between-class variance times N²: (sumB·wF − (total − sumB)·wB)² (R144). -/
def varianceNum (total wB wF sumB : Nat) : Nat :=
  ((sumB * wF : Int) - ((total : Int) - sumB) * wB).natAbs ^ 2

/-- BETTER: exact comparison of num/den with bestNum/bestDen (R146). -/
def better (tie : OtsuTie) (num den bestNum bestDen : Nat) : Bool :=
  match tie with
  | .last => decide (bestNum * den ≤ num * bestDen)
  | .first => decide (bestNum * den < num * bestDen)

/-- The running values of the Otsu scan (R144). `best` is none while `have` is false. -/
structure OtsuScan where
  wB : Nat
  sumB : Nat
  t : Nat
  best : Option (Nat × Nat)
deriving DecidableEq, Repr

/-- Level `t` is evaluated: it is kept if nothing was kept before or it is better (R144). -/
def OtsuScan.evaluate (tie : OtsuTie) (acc : OtsuScan) (t num den : Nat) : OtsuScan :=
  match acc.best with
  | none => { acc with t := t, best := some (num, den) }
  | some (bestNum, bestDen) =>
    if better tie num den bestNum bestDen then { acc with t := t, best := some (num, den) } else acc

/-- The scan over the levels still to come (R144). -/
def otsuScan (tie : OtsuTie) (hist : Nat → Nat) (n total : Nat) : List Nat → OtsuScan → OtsuScan
  | [], acc => acc
  | t :: levels, acc =>
    let wB := acc.wB + hist t
    if wB = 0 then otsuScan tie hist n total levels acc
    else if n - wB = 0 then acc
    else
      let sumB := acc.sumB + t * hist t
      let next := OtsuScan.evaluate tie { acc with wB := wB, sumB := sumB } t
        (varianceNum total wB (n - wB) sumB) (wB * (n - wB))
      otsuScan tie hist n total levels next

/-- OTSU(hist, N, total): the threshold T (R144 to R146). -/
def otsu (tie : OtsuTie) (hist : Nat → Nat) (n total : Nat) : Nat :=
  (otsuScan tie hist n total (List.range 256) ⟨0, 0, 0, none⟩).t

/-- CLASSIFY(v, T, inv): 1 black, 0 white (R147). -/
def classify (v t : Byte) (inv : Bool) : Byte :=
  if inv then (if t < v then 1 else 0) else (if v ≤ t then 1 else 0)

/-- T for the image in GRAY (R142 to R146). -/
def chooseThreshold (tie : OtsuTie) (s : State) (w h : Nat) : Byte :=
  let hist := histogram (windowPixels s w h)
  BitVec.ofNat 8 (otsu tie hist (windowSize w h) (histTotal hist))

/-- LABEL[o] <- CLASSIFY(GRAY[o], T, inv) for every pixel of the image (R147, R148). -/
def labelImage (s : State) (w h : Nat) (t : Byte) (inv : Bool) : State :=
  s.writeBytes labelBase (w * h) fun o => classify (s.gray o) t inv

/-- THRESHOLD(inv) (R140, R141, R148). -/
def thresholdCommand (p : Params) (op : BitVec 4) (inv : Bool) (s : State) : State :=
  let w := s.cur.w
  let h := s.cur.h
  if w = 0 ∨ h = 0 then s.completeError op .notReady
  else
    let t := chooseThreshold p.otsuTie s w h
    let labelled := { labelImage s w h t inv with threshT := t, threshInv := inv }
    (labelled.newFrame true).complete op .ok (t.setWidth 32) (BitVec.ofNat 32 (windowSize w h))

/-- THRESHOLD (R140). -/
def execThreshold (s : State) : Host.Outcome State Fault Refusal :=
  .next (thresholdCommand Config.params Instr.threshold.opcode false s)

/-- THRESHOLD.INV (R140). -/
def execThresholdInv (s : State) : Host.Outcome State Fault Refusal :=
  .next (thresholdCommand Config.params Instr.thresholdInv.opcode true s)

end Sys2Proof.Machine
end

