-- ==== Sys2Proof/Machine/Dispatch.lean ====
section
/-! DEFINITION. The meaning of every command, one arm per constructor. -/

namespace Sys2Proof.Machine

def exec (i : Instr) (s : State) : Host.Outcome State Fault Refusal :=
  match i with
  | .nop => Sys2Proof.Machine.execNop s
  | .beginFrame => Sys2Proof.Machine.execBeginFrame s
  | .threshold => Sys2Proof.Machine.execThreshold s
  | .thresholdInv => Sys2Proof.Machine.execThresholdInv s
  | .regionCode => Sys2Proof.Machine.execRegionCode s
  | .fill => Sys2Proof.Machine.execFill s
  | .fillSpans => Sys2Proof.Machine.execFillSpans s
  | .fmtCorrect => Sys2Proof.Machine.execFmtCorrect s
  | .rsCorrect => Sys2Proof.Machine.execRsCorrect s
  | .reserved7 => Sys2Proof.Machine.execReserved7 s
  | .reserved8F op => Sys2Proof.Machine.execReserved8F op s

end Sys2Proof.Machine
end

