-- ==== Sys2Proof/Machine/Step.lean ====
section
/-! DEFINITION. One step of the block: the next event of the agenda, or the engine's turn
(spec 20 R74, 40 R120, R123). -/

namespace Sys2Proof.Machine

/-- A turn of the engine: it takes no step while idle (R6), runs an issued command (R120, R123), or goes on with
a FILL.SPANS (R170). -/
def engineStep (s : State) : Host.Outcome State Fault Refusal :=
  match s.phase with
  | .idle => .next s
  | .issued => exec (decode s.cur.word) s
  | .filling run => .next (fillSpansContinue Config.params Instr.fillSpans.opcode run s)

/-- One step: the event the agenda names next, or the engine's turn when it names none (R74, R291,
log entry 1). -/
def step (s : State) : Host.Outcome State Fault Refusal :=
  match s.agenda with
  | [] => engineStep s
  | .engine :: rest => engineStep { s with agenda := rest }
  | .host a :: rest => hostAccess a { s with agenda := rest }
  | .reset :: rest => .next (State.platformReset { s with agenda := rest })

/-- The block with the CMD word `w` issued and the engine's turn next, so that the next step runs it. The CMD
word is where the engine finds its command (R47, R120, log entry 2); bits above `nbits` are zero. -/
def State.withFetchWord (s : State) (nbits w : Nat) : State :=
  { s.issue (BitVec.ofNat 32 (w % 2 ^ nbits)) with agenda := .engine :: s.agenda }

end Sys2Proof.Machine
end

