-- ==== Sys2Proof/Safety.lean ====
section
/-! DEFINITION. What counts as a safe state of the block, and the notions its claims are stated in. -/

namespace Sys2Proof.Machine

/-- The invariant of the block: what holds at reset and after every step, in states runs reach. -/
structure Inv (p : Params) (s : State) : Prop where
  /-- Memory is in its canonical form. -/
  mem_wf : Memory.wf s.mem
  /-- Only offsets of the six byte windows are listed (R60). -/
  mem_mapped : ∀ c ∈ s.mem, mapped c.1
  /-- No byte of GRAY at or beyond W·H was ever written (R65). -/
  gray_inside : ∀ c ∈ s.mem, grayBase ≤ c.1 → c.1 < labelBase → c.1 < grayBase + s.imageSize
  /-- No cell of LABEL at or beyond W·H was ever written (R148). -/
  label_inside : ∀ c ∈ s.mem, labelBase ≤ c.1 → c.1 < labelBase + s.imageSize
  /-- WIDTH is legal (R27). -/
  width_le : s.width.toNat ≤ p.maxW
  /-- HEIGHT is legal (R28). -/
  height_le : s.height.toNat ≤ p.maxH
  /-- While LABELS_VALID = 1 there is an image and every label of it has been written (R44). -/
  labels_written : s.labelsValid = true →
    0 < s.imageSize ∧ ∀ o, o < s.imageSize → (Memory.lookup s.mem (labelBase + o)).isSome = true
  /-- REGION_NEXT lies in 2..MAX_REGIONS+2 (R29). -/
  next_range : 2 ≤ s.regionNext.toNat ∧ s.regionNext.toNat ≤ p.maxRegions + 2
  /-- The span FIFO holds at most SPAN_FIFO_DEPTH entries (R45). -/
  fifo_le : s.fifo.length ≤ p.spanFifoDepth
  /-- While BUSY the captured operands equal the registers they were captured from (R77, R288). -/
  captured : s.busy = true →
    s.cur.arg0 = s.arg0 ∧ s.cur.arg1 = s.arg1 ∧ s.cur.width = s.width ∧ s.cur.height = s.height
  /-- A fill in progress is a FILL.SPANS on valid labels with FROM ≠ TO (R169), and its stack holds between
  one and FF_DEPTH frames (R46), each a span of the image with its cursors on it or just past it (R161). -/
  filling : ∀ run, s.phase = .filling run →
    decode s.cur.word = .fillSpans ∧ s.labelsValid = true ∧ s.cur.fromLabel ≠ s.cur.toLabel ∧
    0 < run.stack.length ∧ run.stack.length ≤ p.ffDepth ∧
    ∀ f ∈ run.stack, f.y.toNat < s.cur.h ∧ f.right.toNat < s.cur.w ∧
      f.up.toNat ≤ f.right.toNat + 1 ∧ f.down.toNat ≤ f.right.toNat + 1

/-! ## Access classes, from the rules' own lists of offsets -/

/-- The offset is one of the six registers reachable while BUSY = 1 (R71). -/
def Access.ungated (a : Access) : Bool :=
  a.offset == 0x004 || a.offset == 0x008 || a.offset == 0x00C || a.offset == 0x010 ||
    a.offset == 0x034 || a.offset == 0x038

/-- The width of an access. -/
def Access.width : Access → Width
  | .rd w _ => w
  | .wr w _ _ => w

/-- A reserved offset (R35, R70). -/
def reservedOffset (off : Nat) : Bool :=
  decide ((0x03C ≤ off ∧ off < 0x1000) ∨ (0x11C0 ≤ off ∧ off < 0x2000) ∨ (0x3000 ≤ off ∧ off < 0x100000))

/-- An offset of the register page or the region table, which take 32-bit accesses only (R62). -/
def wordOnlyOffset (off : Nat) : Bool := decide (off < 0x1000 ∨ (0x2000 ≤ off ∧ off < 0x3000))

/-- An offset that is read-only for the host (R64, R66, R68, R69). -/
def readOnlyOffset (s : State) (off : Nat) : Bool :=
  off == 0x004 || off == 0x01C || off == 0x028 || off == 0x02C || off == 0x030 || off == 0x034 || off == 0x038 ||
    decide (0x1100 ≤ off ∧ off < 0x11C0) || decide (0x200000 ≤ off) ||
    (decide (0x2000 ≤ off ∧ off < 0x3000) &&
      (off % 16 != 8 || !s.allocated (BitVec.ofNat 8 ((off - 0x2000) / 16))))

/-- Some lane lies beyond the image, in GRAY or LABEL (R65, R66). -/
def beyondImage (s : State) (w : Width) (off : Nat) : Bool :=
  decide (0x100000 ≤ off) && decide (s.width.toNat * s.height.toNat < off % 0x100000 + w.lanes)

/-- The access is malformed: R62 to R70, R27, R28 and R34, as R253 lists them. -/
def Access.malformed (p : Params) (s : State) (a : Access) : Bool :=
  a.offset % a.width.lanes != 0 || reservedOffset a.offset ||
    (wordOnlyOffset a.offset && a.width != .w32) || beyondImage s a.width a.offset ||
    match a with
    | .rd _ off => off == 0x038 && s.fifo.isEmpty
    | .wr _ off v => readOnlyOffset s off ||
        (off == 0x014 && decide (p.maxW < (v.extractLsb' 0 16).toNat)) ||
        (off == 0x018 && decide (p.maxH < (v.extractLsb' 0 16).toNat))

/-! ## Connected components -/

/-- (x, y) and (x', y') are 4-connected neighbours (R163). -/
def neighbours (x y x' y' : Nat) : Prop :=
  (x' = x ∧ (y' = y + 1 ∨ y = y' + 1)) ∨ (y' = y ∧ (x' = x + 1 ∨ x = x' + 1))

/-- The 4-connected component of cells holding `v` that contains the seed, in a w×h image whose cell
y·w + x holds `lab (y·w + x)` (R163). -/
inductive InComponent (w h : Nat) (lab : Nat → Byte) (v : Byte) (x0 y0 : Nat) : Nat → Nat → Prop where
  | seed : InComponent w h lab v x0 y0 x0 y0
  | step {x y x' y' : Nat} : InComponent w h lab v x0 y0 x y → neighbours x y x' y' → x' < w → y' < h →
      lab (y' * w + x') = v → InComponent w h lab v x0 y0 x' y'

/-- How many cells of the first `n` differ in label between two states. -/
def relabelled (s t : State) (n : Nat) : Nat := (List.range n).countP fun o => t.label o != s.label o

end Sys2Proof.Machine
end

