-- ==== Sys2Proof/Certificates/Slice0/Obligations.lean ====
section
/-! DEFINITION. The statements about CRUX-QRE for the provers. Each docstring names the rule of spec/ it formalises. -/

open Sys2Proof Sys2Proof.Machine

/-! ## Notions the statements use -/

/-- The state after a completion with status `code` and results `r0`, `r1` that changes nothing else (R121). -/
def Sys2Proof.Claims.completed (s : State) (op : BitVec 4) (code : StatusCode) (r0 r1 : Word) : State :=
  { s with phase := .idle, res0 := r0, res1 := r1, code := code, lastOp := op, intDone := true }

/-- The frame state after BEGIN, THRESHOLD or a resize: REGION_NEXT is 2, FF_OVF clear, the FIFO empty, and
LABELS_VALID as given (R125, R127, R140). -/
def Sys2Proof.Claims.framed (s : State) (valid : Bool) : State :=
  { s with regionNext := 2, labelsValid := valid, ffOvf := false, fifo := [] }

/-- wB of level t: the pixels of value 0..t (R144). -/
def Sys2Proof.Claims.weight (hist : Nat → Nat) (t : Nat) : Nat := ((List.range (t + 1)).map hist).sum

/-- sumB of level t: the sum of the values of those pixels (R144). -/
def Sys2Proof.Claims.mass (hist : Nat → Nat) (t : Nat) : Nat := ((List.range (t + 1)).map fun v => v * hist v).sum

/-- Level t is evaluated: it has background and foreground (R144). -/
def Sys2Proof.Claims.evaluated (hist : Nat → Nat) (n t : Nat) : Prop :=
  t < 256 ∧ 0 < Sys2Proof.Claims.weight hist t ∧ Sys2Proof.Claims.weight hist t < n

/-- num of level t, over the integers (R144). -/
def Sys2Proof.Claims.varNum (hist : Nat → Nat) (n total t : Nat) : Int :=
  ((Sys2Proof.Claims.mass hist t : Int) * ((n : Int) - Sys2Proof.Claims.weight hist t) -
    ((total : Int) - Sys2Proof.Claims.mass hist t) * Sys2Proof.Claims.weight hist t) ^ 2

/-- den of level t (R144). -/
def Sys2Proof.Claims.varDen (hist : Nat → Nat) (n t : Nat) : Int :=
  (Sys2Proof.Claims.weight hist t : Int) * ((n : Int) - Sys2Proof.Claims.weight hist t)

/-- Level T is evaluated, no level has a greater between-class variance, and no higher level has the same (R144, R146). -/
def Sys2Proof.Claims.lastMaximum (hist : Nat → Nat) (n total T : Nat) : Prop :=
  Sys2Proof.Claims.evaluated hist n T ∧
  ∀ t, Sys2Proof.Claims.evaluated hist n t →
    Sys2Proof.Claims.varNum hist n total t * Sys2Proof.Claims.varDen hist n T ≤
      Sys2Proof.Claims.varNum hist n total T * Sys2Proof.Claims.varDen hist n t ∧
    (Sys2Proof.Claims.varNum hist n total t * Sys2Proof.Claims.varDen hist n T =
      Sys2Proof.Claims.varNum hist n total T * Sys2Proof.Claims.varDen hist n t → t ≤ T)

/-- The index of the seed's cell (R36). -/
def Sys2Proof.Claims.seedCell (s : State) : Nat := s.cur.seedY.toNat * s.cur.w + s.cur.seedX.toNat

/-- The four checks of FILL all pass (R169). -/
def Sys2Proof.Claims.fillReady (s : State) : Prop :=
  s.labelsValid = true ∧ s.cur.seedX.toNat < s.cur.w ∧ s.cur.seedY.toNat < s.cur.h ∧
    s.cur.fromLabel ≠ s.cur.toLabel ∧ s.label (Sys2Proof.Claims.seedCell s) = s.cur.fromLabel

/-- Under the parameters `p`, REGION_CODE meets the NEW case: a black pixel of no region, and room in the table
(R165, R167). -/
def Sys2Proof.Claims.newReadyFor (p : Params) (s : State) : Prop :=
  s.labelsValid = true ∧ s.cur.seedX.toNat < s.cur.w ∧ s.cur.seedY.toNat < s.cur.h ∧
    s.label (Sys2Proof.Claims.seedCell s) = 1 ∧ 2 ≤ s.regionNext.toNat ∧ s.regionNext.toNat < 2 + p.maxRegions

/-- The same under the parameters of this hardware. -/
def Sys2Proof.Claims.newReady (s : State) : Prop := Sys2Proof.Claims.newReadyFor Config.params s

/-- How many spans of relabelled cells two states differ in: a relabelled cell begins one when it is the first of its row
or the cell before it was not relabelled (R160, R164). -/
def Sys2Proof.Claims.relabelledSpans (s t : State) (w n : Nat) : Nat :=
  (List.range n).countP fun o =>
    t.label o != s.label o && (o % w == 0 || t.label (o - 1) == s.label (o - 1))

/-- (x, y) is where R161's scan of frame `f` stops: the first FROM cell of the row above from cursor `up` on, or, where
that row has none, of the row below from cursor `down` on. -/
def Sys2Proof.Claims.scanStops (c : FillCtx) (s : State) (f : Frame) (x y : Nat) : Prop :=
  let clear := fun lo hi row => ∀ i, lo ≤ i → i < hi → c.labelAt s i row ≠ c.source
  let right := f.right.toNat
  c.labelAt s x y = c.source ∧ x ≤ right ∧
    ((y + 1 = f.y.toNat ∧ f.up.toNat ≤ x ∧ clear f.up.toNat x y) ∨
     (y = f.y.toNat + 1 ∧ y < c.h ∧ f.down.toNat ≤ x ∧ clear f.down.toNat x y ∧
       (0 < f.y.toNat → clear f.up.toNat (right + 1) (f.y.toNat - 1))))

/-- A host that pops one span before each turn of the engine, `n` times (R173, R287). -/
def Sys2Proof.Claims.drain (n : Nat) : List Event :=
  (List.replicate n [Event.host (.rd .w32 0x038), Event.engine]).flatten

/-- POLY_EVAL of the coefficients `P` at an element x ≠ 0 (R197). No EXP entry is 0, so no root search asks for x = 0. -/
def Sys2Proof.Claims.valueAt (F : FieldTables) (P : Nat → Byte) (x : Byte) : Byte :=
  xorSum 64 fun i => if P i = 0 then 0 else F.exp ((F.log (P i) + F.log x * i) % F.p)

/-- Coefficient k of DERIV(σ) (R226). -/
def Sys2Proof.Claims.derivCoef (sigma : Nat → Byte) (k : Nat) : Byte :=
  if k ≤ 62 ∧ k % 2 = 0 then sigma (k + 1) else 0

/-- Coefficient k of EVALUATOR(S, σ, npar): the sum of the products σ[i]·S[j + 1] with i + j = k, for k up to npar − 2
(R227). -/
def Sys2Proof.Claims.omegaCoef (synd sigma : Nat → Byte) (npar k : Nat) : Byte :=
  if k + 2 ≤ npar then
    xorSum (k + 1) fun i =>
      if sigma i = 0 ∨ synd (k - i + 1) = 0 then 0
      else exp256 ((log256 0 (sigma i) + log256 0 (synd (k - i + 1))) % 255)
  else 0

/-! ## Encoding -/

/-- R100: the nine CMD words, with reserved bits zero, encode their commands and decode to them. -/
def Obligations.CommandWordsDecode : Prop :=
  ∀ w i, (w, i) ∈ ([(0x00000000, .nop), (0x00000001, .beginFrame), (0x00000002, .threshold),
      (0x00000012, .thresholdInv), (0x00000003, .regionCode), (0x00000004, .fill), (0x00000024, .fillSpans),
      (0x00000005, .fmtCorrect), (0x00000006, .rsCorrect)] : List (Word × Instr)) →
    decode w = i ∧ encode i = w

/-- R90 to R93: a well-formed command's CMD word, with any values in the bits its row ignores, decodes to that
command, as a word and as four bytes, lowest first. -/
def Obligations.DecodeInvertsEncode : Prop :=
  ∀ (i : Instr) (junk : Word), i.wellFormed = true →
    decode (encode i ||| (junk &&& ~~~ readMask i)) = i ∧
    decodeBytes (bytesOfWord (encode i ||| (junk &&& ~~~ readMask i))) = .ok i

/-- R96, R97: every word is a well-formed command, and agrees with that command's CMD word on every bit the
command's row reads. -/
def Obligations.EveryWordIsOneCommand : Prop :=
  ∀ w : Word, (decode w).wellFormed = true ∧ w &&& readMask (decode w) = encode (decode w)

/-- R91 to R93: the decoder chooses each row of the opcode table on exactly the words of its match and mask, so bits
31:6 never matter, nor does a flag on another command's word. -/
def Obligations.OpcodeTableRowsDecode : Prop :=
  ∀ w : Word,
    (decode w = .nop ↔ w &&& 0x0000000F = 0x00000000) ∧
    (decode w = .beginFrame ↔ w &&& 0x0000000F = 0x00000001) ∧
    (decode w = .threshold ↔ w &&& 0x0000001F = 0x00000002) ∧
    (decode w = .thresholdInv ↔ w &&& 0x0000001F = 0x00000012) ∧
    (decode w = .regionCode ↔ w &&& 0x0000000F = 0x00000003) ∧
    (decode w = .fill ↔ w &&& 0x0000002F = 0x00000004) ∧
    (decode w = .fillSpans ↔ w &&& 0x0000002F = 0x00000024) ∧
    (decode w = .fmtCorrect ↔ w &&& 0x0000000F = 0x00000005) ∧
    (decode w = .rsCorrect ↔ w &&& 0x0000000F = 0x00000006) ∧
    (decode w = .reserved7 ↔ w &&& 0x0000000F = 0x00000007) ∧
    ∀ op : BitVec 4, decode w = .reserved8F op ↔ w &&& 0x00000008 = 0x00000008 ∧ op = w.extractLsb' 0 4

/-! ## Steps -/

/-- R120, R123: when the engine's turn comes and a command has been issued, the step is the meaning of the
command its CMD word decodes to, on the state without the turn that was used up. Two clauses are the model's own
choice: that the engine takes its turn when no event is left (log entry 1), and that a word placed by `withFetchWord` is
run by the very next step, from any state, a BUSY one included (log entry 2). -/
def Obligations.StepRunsIssuedCommand : Prop :=
  ∀ (s : State) (i : Instr),
    (s.phase = .issued → decode s.cur.word = i →
      (∀ rest, s.agenda = .engine :: rest → step s = exec i { s with agenda := rest }) ∧
      (s.agenda = [] → step s = exec i s)) ∧
    (∀ nbits w : Nat, decode (BitVec.ofNat 32 (w % 2 ^ nbits)) = i →
      step (s.withFetchWord nbits w) =
        exec i { s.issue (BitVec.ofNat 32 (w % 2 ^ nbits)) with agenda := s.agenda })

/-- R6, R74: an idle engine's turn changes nothing; a host access and a platform reset happen as the agenda
names them, each as one step. -/
def Obligations.StepFollowsAgenda : Prop :=
  ∀ (s : State) (rest : List Event),
    (s.phase = .idle → s.agenda = .engine :: rest → step s = .next { s with agenda := rest }) ∧
    (s.phase = .idle → s.agenda = [] → step s = .next s) ∧
    (∀ a : Access, s.agenda = .host a :: rest → step s = hostAccess a { s with agenda := rest }) ∧
    (s.agenda = .reset :: rest → step s = .next (State.platformReset { s with agenda := rest }))

/-- R250, R70: no step faults, and a step is refused exactly when it is a host access beyond the aperture. -/
def Obligations.OnlyOutsideAccessesAreRefused : Prop :=
  ∀ s : State,
    (∀ f, step s ≠ .fault f) ∧
    ((∃ r, step s = .refused r) ↔
      ∃ a rest, s.agenda = .host a :: rest ∧ apertureEnd ≤ a.offset) ∧
    (∀ r, step s = .refused r → r = .outsideAperture)

/-- R121: every command but FILL.SPANS completes: BUSY drops, DONE is set, LAST_OP is the command's OP value, and the
error flags are not cleared. That it does so in ONE turn of the engine is the model's choice (log entry 3): R123 allows a
model to treat it so, and R128 says only that the number of steps is finite. -/
def Obligations.CommandsCompleteInOneTurn : Prop :=
  ∀ (i : Instr) (s : State), i ≠ .fillSpans →
    ∃ t, exec i s = .next t ∧ t.phase = .idle ∧ t.intDone = true ∧ t.lastOp = i.opcode ∧
      t.errOverrun = s.errOverrun ∧ t.errAccerr = s.errAccerr

/-- R22, R120: a 32-bit CMD write while idle issues the command, recording the CMD word and capturing its operands;
while BUSY it is dropped and sets OVERRUN. CMD reads 0: without effect while idle, dropped while BUSY (R71). -/
def Obligations.CmdWriteIssues : Prop :=
  ∀ (s : State) (v : Word),
    (s.phase = .idle →
      hostAccess (.wr .w32 0x000 v) s =
        .next { s with
          phase := .issued
          cur := { word := v, arg0 := s.arg0, arg1 := s.arg1, width := s.width, height := s.height } } ∧
      hostAccess (.rd .w32 0x000) s = .next { s with readData := 0 }) ∧
    (s.busy = true →
      hostAccess (.wr .w32 0x000 v) s = .next { s with errOverrun := true } ∧
      hostAccess (.rd .w32 0x000) s = .next { s with errOverrun := true, readData := 0 })

/-- R122: a completion with BAD_PARAM, BAD_COMMAND or NOT_READY changes CODE, LAST_OP, BUSY, DONE, RES0 and
RES1 and nothing else. -/
def Obligations.ErrorCompletionIsPrecise : Prop :=
  ∀ (i : Instr) (s t : State), exec i s = .next t → t.phase = .idle →
    (t.code = .badParam ∨ t.code = .badCommand ∨ t.code = .notReady) →
    t = Sys2Proof.Claims.completed s i.opcode t.code 0 0

/-! ## Control commands and resize -/

/-- R124: NOP completes with OK and changes nothing else; INV and SPANS are ignored; right after reset STATUS reads
as before. -/
def Obligations.NopCompletes : Prop :=
  (∀ s : State, exec .nop s = .next (Sys2Proof.Claims.completed s 0x0 .ok 0 0)) ∧
  (∀ w : Word, w.extractLsb' 0 4 = 0x0 → decode w = .nop) ∧
  ∃ t, exec .nop (State.reset.issue 0) = .next t ∧ t.statusWord = 0 ∧ t.intDone = true

/-- R125: BEGIN empties the region table, the FIFO and the frame flags, and keeps everything else; a second BEGIN
changes nothing more. -/
def Obligations.BeginStartsFrame : Prop :=
  decode 0x00000001 = .beginFrame ∧
  ∀ s : State, ∃ t, exec .beginFrame s = .next t ∧
    t = Sys2Proof.Claims.completed (Sys2Proof.Claims.framed s false) 0x1 .ok 0 0 ∧
    t.spanNe = false ∧ t.spanCount = 0 ∧ (∀ id k, t.regionWord id k = 0) ∧
    exec .beginFrame t = .next t

/-- R126: every CMD word with OP in 0x7..0xF is BUSY from its issue, then completes with BAD_COMMAND and its own
LAST_OP, changing nothing else. -/
def Obligations.ReservedOpcodesComplete : Prop :=
  (∀ (s : State) (w : Word), 7 ≤ (w.extractLsb' 0 4).toNat →
    (s.issue w).busy = true ∧
    exec (decode w) s = .next (Sys2Proof.Claims.completed s (w.extractLsb' 0 4) .badCommand 0 0)) ∧
  ∀ s : State,
    exec .reserved7 s = .next (Sys2Proof.Claims.completed s 0x7 .badCommand 0 0) ∧
    ∀ op : BitVec 4, (Instr.reserved8F op).wellFormed = true →
      exec (.reserved8F op) s = .next (Sys2Proof.Claims.completed s op .badCommand 0 0)

/-- R27, R28, R127: a legal WIDTH or HEIGHT write while idle stores bits 15:0 and resizes: region state clears, the
other windows keep their bytes, and every byte of GRAY and LABEL becomes unspecified, a fresh free value (log
entry 5). Under every choice of the parameters an illegal value is ignored with ACCERR, in every phase (log entry 13). -/
def Obligations.SizeWritesResize : Prop :=
  ∀ (s : State) (v : Word),
    (s.phase = .idle → (v.extractLsb' 0 16).toNat ≤ Config.params.maxW →
      ∃ t, hostAccess (.wr .w32 0x014 v) s = .next t ∧
        t = { Sys2Proof.Claims.framed s false with
          width := v.extractLsb' 0 16
          mem := t.mem
          imageDraws := s.imageDraws + 1 } ∧
        (∀ a, a < grayBase → t.readByte a = s.readByte a) ∧
        (∀ a, grayBase ≤ a → t.readByte a = Config.freeByte (s.imageDraws + 1) a)) ∧
    (s.phase = .idle → (v.extractLsb' 0 16).toNat ≤ Config.params.maxH →
      ∃ t, hostAccess (.wr .w32 0x018 v) s = .next t ∧
        t = { Sys2Proof.Claims.framed s false with
          height := v.extractLsb' 0 16
          mem := t.mem
          imageDraws := s.imageDraws + 1 } ∧
        (∀ a, a < grayBase → t.readByte a = s.readByte a) ∧
        (∀ a, grayBase ≤ a → t.readByte a = Config.freeByte (s.imageDraws + 1) a)) ∧
    (∀ p : Params, p.maxW < (v.extractLsb' 0 16).toNat →
      busAccess p (.wr .w32 0x014 v) s = { s with errAccerr := true }) ∧
    (∀ p : Params, p.maxH < (v.extractLsb' 0 16).toNat →
      busAccess p (.wr .w32 0x018 v) s = { s with errAccerr := true })

/-! ## Thresholder -/

/-- R141: without an image size THRESHOLD and THRESHOLD.INV complete with NOT_READY and change nothing else. -/
def Obligations.ThresholdNeedsImage : Prop :=
  ∀ s : State, s.cur.width = 0 ∨ s.cur.height = 0 →
    exec .threshold s = .next (Sys2Proof.Claims.completed s 0x2 .notReady 0 0) ∧
    exec .thresholdInv s = .next (Sys2Proof.Claims.completed s 0x2 .notReady 0 0)

/-- R147, R148: with an image size, THRESHOLD and THRESHOLD.INV complete with OK, label every pixel of the image
from its GRAY value, record the threshold, clear the region state, and change no other byte and no other field. -/
def Obligations.ThresholdLabelsImage : Prop :=
  ∀ (s : State) (inv : Bool), s.cur.width ≠ 0 → s.cur.height ≠ 0 →
    ∃ t, exec (if inv then .thresholdInv else .threshold) s = .next t ∧
      let w := s.cur.width.toNat
      let h := s.cur.height.toNat
      let T := chooseThreshold .last s w h
      (∀ o, o < w * h → t.label o =
        if inv then (if T.toNat < (s.gray o).toNat then 1 else 0)
        else (if (s.gray o).toNat ≤ T.toNat then 1 else 0)) ∧
      (∀ a, ¬ (labelBase ≤ a ∧ a < labelBase + w * h) → t.readByte a = s.readByte a) ∧
      t = Sys2Proof.Claims.completed
        { Sys2Proof.Claims.framed s true with threshT := T, threshInv := inv, mem := t.mem }
        0x2 .ok (T.setWidth 32) (BitVec.ofNat 32 ((w - 2 * (w / 5)) * (h - 2 * (h / 5))))

/-- R147: on one state, THRESHOLD.INV finds the same threshold as THRESHOLD and labels exactly the other
pixels black. -/
def Obligations.InvertedLabelsComplement : Prop :=
  ∀ s : State, s.cur.width ≠ 0 → s.cur.height ≠ 0 →
    ∃ t u, exec .threshold s = .next t ∧ exec .thresholdInv s = .next u ∧
      u.threshT = t.threshT ∧
      ∀ o, o < s.cur.width.toNat * s.cur.height.toNat →
        (t.label o = 0 ∨ t.label o = 1) ∧ u.label o = 1 - t.label o

/-- R142, R143: hist[v] is the number of pixels of the central window with the value v; the window has N pixels,
and 1 ≤ N ≤ W·H. -/
def Obligations.HistogramCountsWindow : Prop :=
  ∀ (s : State) (w h : Nat), 0 < w → 0 < h →
    (∀ v, v < 256 → histogram (windowPixels s w h) v =
      (List.range (w * h)).countP fun o =>
        decide (w / 5 ≤ o % w ∧ o % w < w - w / 5 ∧ h / 5 ≤ o / w ∧ o / w < h - h / 5) &&
          (s.gray o).toNat == v) ∧
    ((List.range 256).map (histogram (windowPixels s w h))).sum = (w - 2 * (w / 5)) * (h - 2 * (h / 5)) ∧
    1 ≤ windowSize w h ∧ windowSize w h ≤ w * h

/-- R142 to R146: with OTSU_TIE = LAST, when some level of a histogram is evaluated, Otsu's threshold is an evaluated level
whose between-class variance no other level exceeds, and the highest level with that variance. THRESHOLD and THRESHOLD.INV
both choose that level of the histogram of the central window, and 0 when no level is evaluated. -/
def Obligations.OtsuKeepsLastMaximum : Prop :=
  (∀ (hist : Nat → Nat) (n : Nat), n = ((List.range 256).map hist).sum →
    (∃ t, Sys2Proof.Claims.evaluated hist n t) →
    let total := ((List.range 256).map fun v => v * hist v).sum
    Sys2Proof.Claims.lastMaximum hist n total (otsu .last hist n total)) ∧
  ∀ s : State, s.cur.width ≠ 0 → s.cur.height ≠ 0 →
    let w := s.cur.width.toNat
    let h := s.cur.height.toNat
    let hist := histogram (windowPixels s w h)
    let n := (w - 2 * (w / 5)) * (h - 2 * (h / 5))
    let total := ((List.range 256).map fun v => v * hist v).sum
    ∃ t u, exec .threshold s = .next t ∧ exec .thresholdInv s = .next u ∧ u.threshT = t.threshT ∧
      ((∃ l, Sys2Proof.Claims.evaluated hist n l) →
        Sys2Proof.Claims.lastMaximum hist n total t.threshT.toNat) ∧
      ((¬ ∃ l, Sys2Proof.Claims.evaluated hist n l) → t.threshT = 0)

/-- R145: when every window pixel has the same value, THRESHOLD and THRESHOLD.INV choose T = 0. -/
def Obligations.UniformWindowGivesZero : Prop :=
  ∀ (s : State) (v : Byte), s.cur.width ≠ 0 → s.cur.height ≠ 0 →
    (∀ x y, s.cur.width.toNat / 5 ≤ x → x < s.cur.width.toNat - s.cur.width.toNat / 5 →
      s.cur.height.toNat / 5 ≤ y → y < s.cur.height.toNat - s.cur.height.toNat / 5 →
      s.gray (y * s.cur.width.toNat + x) = v) →
    ∃ t u, exec .threshold s = .next t ∧ exec .thresholdInv s = .next u ∧
      t.threshT = 0 ∧ t.res0 = 0 ∧ u.threshT = 0 ∧ u.res0 = 0

/-! ## Region labeler -/

/-- R165, R166: REGION_CODE without valid labels only reports NOT_READY; otherwise it answers OUT_OF_RANGE,
EXISTING, WHITE or TABLE_FULL, in this order, clearing FF_OVF and changing nothing else but its results. -/
def Obligations.RegionCodeWithoutAllocation : Prop :=
  ∀ s : State,
    (s.labelsValid = false →
      exec .regionCode s = .next (Sys2Proof.Claims.completed s 0x3 .notReady 0 0)) ∧
    (s.labelsValid = true →
      let clear := { s with ffOvf := false }
      let v := s.label (Sys2Proof.Claims.seedCell s)
      let outside := s.cur.w ≤ s.cur.seedX.toNat ∨ s.cur.h ≤ s.cur.seedY.toNat
      (outside → exec .regionCode s = .next (Sys2Proof.Claims.completed clear 0x3 .ok 0xFFFFFFFF 3)) ∧
      (¬ outside → 2 ≤ v.toNat →
        exec .regionCode s = .next (Sys2Proof.Claims.completed clear 0x3 .ok (v.setWidth 32) 0)) ∧
      (¬ outside → v = 0 →
        exec .regionCode s = .next (Sys2Proof.Claims.completed clear 0x3 .ok 0xFFFFFFFF 2)) ∧
      (¬ outside → v = 1 → 2 + Config.params.maxRegions ≤ s.regionNext.toNat →
        exec .regionCode s = .next (Sys2Proof.Claims.completed clear 0x3 .ok 0xFFFFFFFF 4)))

/-- R167: the NEW case allocates id = REGION_NEXT: the entry holds the seed, the number of relabelled cells and
CAPSTONE = 0xFFFF; the seed carries the id; every relabelled cell went from 1 to the id; FF_OVF is the flood fill's
overflow (R162); no other entry, byte or field changes but REGION_NEXT and the status. -/
def Obligations.RegionCodeAllocates : Prop :=
  ∀ s : State, Sys2Proof.Claims.newReady s →
    let id : BitVec 8 := s.regionNext.setWidth 8
    let cells := s.cur.w * s.cur.h
    ∃ t, exec .regionCode s = .next t ∧
      t.region id = ⟨s.cur.seedX, s.cur.seedY, BitVec.ofNat 32 (relabelled s t cells), 0xFFFF⟩ ∧
      (∀ n, n ≠ id → t.region n = s.region n) ∧
      t.ffOvf = (flood (regionCtx Config.params s.cur id) s.cur.seedX.toNat s.cur.seedY.toNat
        { s with ffOvf := false, regionNext := s.regionNext + 1 }).2 ∧
      t.label (Sys2Proof.Claims.seedCell s) = id ∧
      (∀ o, o < cells → t.label o = s.label o ∨ (s.label o = 1 ∧ t.label o = id)) ∧
      (∀ a, ¬ (labelBase ≤ a ∧ a < labelBase + cells) → t.readByte a = s.readByte a) ∧
      t = Sys2Proof.Claims.completed
        { s with regionNext := s.regionNext + 1, regions := t.regions, ffOvf := t.ffOvf, mem := t.mem }
        0x3 .ok (s.regionNext.setWidth 32) 1

/-- R169, R252: FILL and FILL.SPANS report the first failing check and change nothing else. -/
def Obligations.FillChecksInOrder : Prop :=
  ∀ (s : State) (i : Instr), i = .fill ∨ i = .fillSpans →
    let outside := s.cur.w ≤ s.cur.seedX.toNat ∨ s.cur.h ≤ s.cur.seedY.toNat
    (s.labelsValid = false → exec i s = .next (Sys2Proof.Claims.completed s 0x4 .notReady 0 0)) ∧
    (s.labelsValid = true → outside → exec i s = .next (Sys2Proof.Claims.completed s 0x4 .badParam 0 0)) ∧
    (s.labelsValid = true → ¬ outside → s.cur.fromLabel = s.cur.toLabel →
      exec i s = .next (Sys2Proof.Claims.completed s 0x4 .badParam 0 0)) ∧
    (s.labelsValid = true → ¬ outside → s.cur.fromLabel ≠ s.cur.toLabel →
      s.label (Sys2Proof.Claims.seedCell s) ≠ s.cur.fromLabel →
      exec i s = .next (Sys2Proof.Claims.completed s 0x4 .badParam 0 0))

/-- R162, R168, R172: a FILL whose checks pass completes with OK; RES0 is the number of relabelled spans and RES1 of
relabelled cells; FF_OVF is the flood fill's overflow; the seed carries TO; every relabelled cell went from FROM to TO; no
other byte and no other field changes but the status. -/
def Obligations.FillRelabels : Prop :=
  ∀ s : State, Sys2Proof.Claims.fillReady s →
    let cells := s.cur.w * s.cur.h
    ∃ t, exec .fill s = .next t ∧
      t.res0 = BitVec.ofNat 32 (Sys2Proof.Claims.relabelledSpans s t s.cur.w cells) ∧
      t.res1 = BitVec.ofNat 32 (relabelled s t cells) ∧
      t.ffOvf = (flood (fillCtx Config.params s.cur) s.cur.seedX.toNat s.cur.seedY.toNat { s with ffOvf := false }).2 ∧
      t.label (Sys2Proof.Claims.seedCell s) = s.cur.toLabel ∧
      (∀ o, o < cells → t.label o = s.label o ∨ (s.label o = s.cur.fromLabel ∧ t.label o = s.cur.toLabel)) ∧
      (∀ a, ¬ (labelBase ≤ a ∧ a < labelBase + cells) → t.readByte a = s.readByte a) ∧
      t = Sys2Proof.Claims.completed { s with ffOvf := t.ffOvf, mem := t.mem } 0x4 .ok t.res0 t.res1

/-- R163: every cell a FILL or an allocating REGION_CODE relabels lies in the 4-connected component of FROM cells
that contains the seed. -/
def Obligations.FillStaysInComponent : Prop :=
  ∀ s : State,
    (Sys2Proof.Claims.fillReady s → ∃ t, exec .fill s = .next t ∧
      ∀ x y, x < s.cur.w → y < s.cur.h → t.label (y * s.cur.w + x) ≠ s.label (y * s.cur.w + x) →
        InComponent s.cur.w s.cur.h s.label s.cur.fromLabel s.cur.seedX.toNat s.cur.seedY.toNat x y) ∧
    (Sys2Proof.Claims.newReady s → ∃ t, exec .regionCode s = .next t ∧
      ∀ x y, x < s.cur.w → y < s.cur.h → t.label (y * s.cur.w + x) ≠ s.label (y * s.cur.w + x) →
        InComponent s.cur.w s.cur.h s.label 1 s.cur.seedX.toNat s.cur.seedY.toNat x y)

/-- R162, R163: under every legal choice of the parameters, a FILL or an allocating REGION_CODE relabels the whole
4-connected component of the seed when it leaves FF_OVF = 0; when it leaves FF_OVF = 1 some cell of the component keeps
FROM. Both commands run with the parameters of this hardware. -/
def Obligations.FillCoversComponent : Prop :=
  (∀ (p : Params) (s : State), p.legal →
    (Sys2Proof.Claims.fillReady s →
      let t := fillCommand p 0x4 s
      let inside := InComponent s.cur.w s.cur.h s.label s.cur.fromLabel s.cur.seedX.toNat s.cur.seedY.toNat
      (t.ffOvf = false → ∀ x y, inside x y → t.label (y * s.cur.w + x) = s.cur.toLabel) ∧
      (t.ffOvf = true → ∃ x y, inside x y ∧ t.label (y * s.cur.w + x) = s.cur.fromLabel)) ∧
    (Sys2Proof.Claims.newReadyFor p s →
      let t := regionCodeCommand p 0x3 s
      let inside := InComponent s.cur.w s.cur.h s.label 1 s.cur.seedX.toNat s.cur.seedY.toNat
      (t.ffOvf = false → ∀ x y, inside x y → t.label (y * s.cur.w + x) = s.regionNext.setWidth 8) ∧
      (t.ffOvf = true → ∃ x y, inside x y ∧ t.label (y * s.cur.w + x) = 1))) ∧
  ∀ s : State, exec .fill s = .next (fillCommand Config.params 0x4 s) ∧
    exec .regionCode s = .next (regionCodeCommand Config.params 0x3 s)

/-- R128, R162, R163: the flood fill ends by itself: allowing it more turns than W·H + 1 changes nothing (log entry 15). It
overflows only when the stack holds FF_DEPTH frames and the top one has a FROM neighbour left in the row above or below. A
stack of W·H frames never overflows; a stack of one frame overflows exactly when the seed's span has a FROM neighbour; a
deeper stack than one that did not overflow changes nothing. So a FILL and an allocating REGION_CODE leave FF_OVF = 0 when
FF_DEPTH is at least W·H. -/
def Obligations.FloodEndsByItself : Prop :=
  (∀ (c : FillCtx) (s : State) (x y : Nat), c.source ≠ c.target → x < c.w → y < c.h →
    c.w < 2 ^ 16 → c.h < 2 ^ 16 → c.labelAt s x y = c.source →
    let r := flood c x y s
    (∀ extra, floodLoop c (c.w * c.h + 1 + extra) (visitLine c (Fill.start s) x y).1 = r) ∧
    (1 ≤ c.depth → r.2 = true → r.1.stack.length = c.depth ∧
      ∃ f below i, r.1.stack = f :: below ∧ i ≤ f.right.toNat ∧
        ((0 < f.y.toNat ∧ c.labelAt r.1.s i (f.y.toNat - 1) = c.source) ∨
         (f.y.toNat + 1 < c.h ∧ c.labelAt r.1.s i (f.y.toNat + 1) = c.source))) ∧
    (c.w * c.h ≤ c.depth → r.2 = false) ∧
    (c.depth = 1 → (r.2 = true ↔
      ∃ i, (lineSpan c s x y).1 ≤ i ∧ i ≤ (lineSpan c s x y).2 ∧
        ((0 < y ∧ c.labelAt s i (y - 1) = c.source) ∨ (y + 1 < c.h ∧ c.labelAt s i (y + 1) = c.source)))) ∧
    (r.2 = false → ∀ d, c.depth ≤ d → flood { c with depth := d } x y s = r)) ∧
  ∀ s : State, s.cur.w * s.cur.h ≤ Config.params.ffDepth →
    (Sys2Proof.Claims.fillReady s → ∃ t, exec .fill s = .next t ∧ t.ffOvf = false) ∧
    (Sys2Proof.Claims.newReady s → ∃ t, exec .regionCode s = .next t ∧ t.ffOvf = false)

/-- R74, R160, R168, R170: a FILL.SPANS whose checks pass clears FF_OVF, empties the FIFO, relabels the maximal FROM span of
the seed's row and pushes it; the command stays BUSY, and no other byte or field changes. STATUS goes on showing the old
FF_OVF, which the fill keeps (log entry 26). That all this falls in the first engine step is the model's choice (log
entry 4). -/
def Obligations.FillSpansPushesSeedSpan : Prop :=
  ∀ s : State, Sys2Proof.Claims.fillReady s →
    let x := s.cur.seedX.toNat
    let y := s.cur.seedY.toNat
    let w := s.cur.w
    ∃ t l r, exec .fillSpans s = .next t ∧
      l ≤ x ∧ x ≤ r ∧ r < w ∧
      (∀ i, l ≤ i → i ≤ r → s.label (y * w + i) = s.cur.fromLabel ∧ t.label (y * w + i) = s.cur.toLabel) ∧
      (0 < l → s.label (y * w + (l - 1)) ≠ s.cur.fromLabel) ∧
      (r + 1 < w → s.label (y * w + (r + 1)) ≠ s.cur.fromLabel) ∧
      (∀ a, ¬ (labelBase + (y * w + l) ≤ a ∧ a ≤ labelBase + (y * w + r)) → t.readByte a = s.readByte a) ∧
      (s.phase = .issued → t.statusWord.getLsbD 2 = s.statusWord.getLsbD 2) ∧
      t = { s with
        ffOvf := false
        mem := t.mem
        fifo := [⟨s.cur.seedY, BitVec.ofNat 16 l, BitVec.ofNat 16 r⟩]
        phase := .filling ⟨[⟨s.cur.seedY, BitVec.ofNat 16 r, BitVec.ofNat 16 l, BitVec.ofNat 16 l⟩], 1, r - l + 1, none,
          s.ffOvf⟩ }

/-- R160 to R164, R168, R170: under every legal choice of the parameters, a later turn of a FILL.SPANS that holds no span
does what `advance` finds next. With no FROM neighbour left on any frame it completes with OK, FF_OVF = 0 and the counts of
its spans and cells. With the stack full at a frame that has one it completes with FF_OVF = 1. Otherwise it relabels the
maximal FROM span that contains the cell where R161's scan stops, on the topmost frame whose scan stops anywhere, counts
it, puts its frame on the stack, and pushes it, or holds it when the FIFO is full; no other byte or field changes. A turn
of the engine is this under the parameters of this hardware. One span per turn, the completion as a turn of its own, and
LABEL written before a span is held are the model's choice (log entry 4). -/
def Obligations.FillSpansGoesOn : Prop :=
  (∀ (p : Params) (s : State) (run : FillRun), p.legal → Inv p s → s.phase = .filling run → run.held = none →
    let c := fillCtx p s.cur
    let w := s.cur.w
    let t := fillSpansContinue p 0x4 run s
    let stops := fun f => ∃ x y, Sys2Proof.Claims.scanStops c s f x y
    let completes := fun ovf => t = Sys2Proof.Claims.completed { s with ffOvf := ovf } 0x4 .ok
      (BitVec.ofNat 32 run.spans) (BitVec.ofNat 32 run.pixels)
    match advance c s run.stack with
    | .finished => completes false ∧ ∀ f ∈ run.stack, ¬ stops f
    | .overflow _ => completes true ∧
        ∃ popped f below, run.stack = popped ++ f :: below ∧ (∀ g ∈ popped, ¬ stops g) ∧ stops f ∧
          c.depth ≤ below.length + 1
    | .child stack x y =>
      (∃ popped f f' below, run.stack = popped ++ f :: below ∧ stack = f' :: below ∧ (∀ g ∈ popped, ¬ stops g) ∧
        Sys2Proof.Claims.scanStops c s f x y ∧ f'.y = f.y ∧ f'.right = f.right ∧ below.length + 1 < c.depth) ∧
      ∃ sp : Span,
        let l := sp.left.toNat
        let r := sp.right.toNat
        let run' := fun held =>
          Phase.filling ⟨⟨sp.y, sp.right, sp.left, sp.left⟩ :: stack, run.spans + 1, run.pixels + (r - l + 1), held,
            run.ffOvfBefore⟩
        sp.y.toNat = y ∧ l ≤ x ∧ x ≤ r ∧ r < w ∧
        (∀ i, l ≤ i → i ≤ r → s.label (y * w + i) = s.cur.fromLabel ∧ t.label (y * w + i) = s.cur.toLabel) ∧
        (0 < l → s.label (y * w + (l - 1)) ≠ s.cur.fromLabel) ∧
        (r + 1 < w → s.label (y * w + (r + 1)) ≠ s.cur.fromLabel) ∧
        (∀ a, ¬ (labelBase + (y * w + l) ≤ a ∧ a ≤ labelBase + (y * w + r)) → t.readByte a = s.readByte a) ∧
        (s.fifo.length < p.spanFifoDepth →
          t = { s with mem := t.mem, fifo := s.fifo ++ [sp], phase := run' none }) ∧
        (s.fifo.length = p.spanFifoDepth →
          t = { s with mem := t.mem, phase := run' (some sp) })) ∧
  ∀ (s : State) (run : FillRun), s.phase = .filling run →
    engineStep s = .next (fillSpansContinue Config.params 0x4 run s)

/-- R170, R173, R287: the turn of an engine that holds a span pushes it when the FIFO has room, and changes nothing else.
While the FIFO is full that turn changes nothing (log entry 14); a SPAN_X read pops the head although BUSY = 1, and the next
turn then pushes the held span. -/
def Obligations.HeldSpanWaitsForPop : Prop :=
  ∀ (s : State) (run : FillRun) (held : Span), s.phase = .filling run → run.held = some held →
    (s.fifo.length < Config.params.spanFifoDepth →
      engineStep s = .next { s with fifo := s.fifo ++ [held], phase := .filling { run with held := none } }) ∧
    ∀ (hd : Span) (tl : List Span), s.fifo = hd :: tl → s.fifo.length = Config.params.spanFifoDepth →
      engineStep s = .next s ∧
      ∃ t, hostAccess (.rd .w32 0x038) s = .next t ∧ t.readData = hd.right ++ hd.left ∧ t.fifo = tl ∧
        engineStep t = .next { t with fifo := tl ++ [held], phase := .filling { run with held := none } }

/-- R168, R170: a FILL.SPANS whose host pops a span before every further turn of the engine completes, and leaves
every byte, RES0, RES1, FF_OVF and CODE as the FILL with the same operands would. The agenda that orders pops and turns is
the model's (log entry 1), and so is what one turn does (log entries 3 and 4). -/
def Obligations.DrainedFillSpansEqualsFill : Prop :=
  ∀ (s : State) (n : Nat), Sys2Proof.Claims.fillReady s → s.phase = .issued → decode s.cur.word = .fillSpans →
    s.cur.w * s.cur.h + 2 ≤ n → s.agenda = .engine :: Sys2Proof.Claims.drain n →
    ∃ t u, exec .fill s = .next t ∧ Host.Core.run Sys2Proof.core (2 * n + 1) s = .next u ∧
      u.phase = .idle ∧ u.intDone = true ∧ u.code = t.code ∧ u.lastOp = t.lastOp ∧ u.ffOvf = t.ffOvf ∧
      u.res0 = t.res0 ∧ u.res1 = t.res1 ∧ u.regions = t.regions ∧ u.regionNext = t.regionNext ∧
      ∀ a, u.readByte a = t.readByte a

/-- R43, R79, R127, R171, R172: of the commands, and of the engine's turns (a FILL.SPANS's later ones among them), only
REGION_CODE's writes the region table, and only REGION_CODE's, BEGIN's and the two THRESHOLD commands' move REGION_NEXT. Of
the host's accesses only the link write writes the table, one entry's CAPSTONE alone, and only a WIDTH or HEIGHT write moves
REGION_NEXT, to 2. A platform reset is apart. -/
def Obligations.OnlyRegionCodeWritesTable : Prop :=
  let moves := fun i : Instr => i = .regionCode ∨ i = .beginFrame ∨ i = .threshold ∨ i = .thresholdInv
  (∀ (i : Instr) (s t : State), exec i s = .next t →
    (i ≠ .regionCode → t.regions = s.regions) ∧ (¬ moves i → t.regionNext = s.regionNext)) ∧
  (∀ s t : State, engineStep s = .next t →
    (¬ (s.phase = .issued ∧ decode s.cur.word = .regionCode) → t.regions = s.regions) ∧
    (¬ (s.phase = .issued ∧ moves (decode s.cur.word)) → t.regionNext = s.regionNext)) ∧
  ∀ (a : Access) (s t : State), hostAccess a s = .next t →
    (t.regions = s.regions ∨ ∃ (id : BitVec 8) (v : Word), a = .wr .w32 (0x2000 + 16 * id.toNat + 8) v ∧
      t.region id = { s.region id with capstone := v.extractLsb' 0 16 } ∧ ∀ n, n ≠ id → t.region n = s.region n) ∧
    (t.regionNext = s.regionNext ∨
      t.regionNext = 2 ∧ ∃ v, a = .wr .w32 0x014 v ∨ a = .wr .w32 0x018 v)

/-- R24, R30, R36, R79: no turn of the engine writes GRAY, the operand and size registers, the error flags or the
interrupt enables. R74: a turn that leaves the command BUSY changes nothing in STATUS but SPAN_NE and SPAN_COUNT, and does
not set DONE; that FF_OVF counts among what it does not change is log entry 26. -/
def Obligations.EngineLeavesHostState : Prop :=
  ∀ s t : State, engineStep s = .next t →
    (∀ a, grayBase ≤ a → a < labelBase → t.readByte a = s.readByte a) ∧
    t.arg0 = s.arg0 ∧ t.arg1 = s.arg1 ∧ t.width = s.width ∧ t.height = s.height ∧ t.cur = s.cur ∧
    t.errOverrun = s.errOverrun ∧ t.errAccerr = s.errAccerr ∧ t.doneEn = s.doneEn ∧ t.spanEn = s.spanEn ∧
    t.agenda = s.agenda ∧ t.readData = s.readData ∧
    (t.busy = true → t.intDone = s.intDone ∧
      ∀ k, k < 24 → k ≠ 3 → t.statusWord.getLsbD k = s.statusWord.getLsbD k)

/-! ## Host accesses -/

/-- R21, R33, R34, R64: while idle a 32-bit read of each of the fifteen registers returns that register's word. Only the
read of SPAN_X changes anything in the block: it pops the head of the FIFO, or sets ACCERR when the FIFO is empty. -/
def Obligations.IdleRegisterReads : Prop :=
  ∀ s : State, s.phase = .idle →
    let reads := fun (off : Nat) (v : Word) => hostAccess (.rd .w32 off) s = .next { s with readData := v }
    reads 0x000 0 ∧ reads 0x004 s.statusWord ∧ reads 0x008 s.errWord ∧ reads 0x00C s.intStatusWord ∧
    reads 0x010 s.intEnableWord ∧ reads 0x014 (s.width.setWidth 32) ∧ reads 0x018 (s.height.setWidth 32) ∧
    reads 0x01C (s.regionNext.setWidth 32) ∧ reads 0x020 s.arg0 ∧ reads 0x024 s.arg1 ∧
    reads 0x028 s.res0 ∧ reads 0x02C s.res1 ∧
    reads 0x030 (s.threshT.setWidth 32 + if s.threshInv then 0x100 else 0) ∧
    reads 0x034 (match s.fifo with | [] => 0 | sp :: _ => sp.y.setWidth 32) ∧
    hostAccess (.rd .w32 0x038) s = .next (match s.fifo with
      | [] => { s with errAccerr := true, readData := 0 }
      | sp :: rest => { s with fifo := rest, readData := sp.right ++ sp.left })

/-- R71: while BUSY = 1 every access but those of the six registers is dropped: a read returns 0 and the only
change is one error flag, ACCERR if the access is also malformed, OVERRUN otherwise (log entry 13 for an illegal
size). -/
def Obligations.BusyAccessesAreDropped : Prop :=
  ∀ (s : State) (a : Access), s.busy = true → a.offset < apertureEnd → a.ungated = false →
    ∃ t, hostAccess a s = .next t ∧
      t = (if a.malformed Config.params s then { s with errAccerr := true, readData := t.readData }
        else { s with errOverrun := true, readData := t.readData }) ∧
      match a with
      | .rd _ _ => t.readData = 0
      | .wr _ _ _ => t.readData = s.readData

/-- R253: an access sets ACCERR exactly when it is malformed, and OVERRUN exactly when it is well-formed, names a
gated location and BUSY = 1. A write to ERR itself, which clears flags, is apart. -/
def Obligations.AccessErrorFlags : Prop :=
  ∀ (s t : State) (a : Access), (∀ v, a ≠ .wr .w32 0x008 v) → hostAccess a s = .next t →
    t.errAccerr = (s.errAccerr || a.malformed Config.params s) ∧
    t.errOverrun = (s.errOverrun || (s.busy && !a.ungated && !a.malformed Config.params s))

/-- R61: in every byte window a 16-bit and a 32-bit read return the bytes that 8-bit reads at the same offsets
return, the byte at the lowest offset in bits 7:0. -/
def Obligations.ReadsAreLittleEndian : Prop :=
  ∀ (s : State) (off : Nat), s.phase = .idle →
    (blockBase ≤ off ∧ off < bufferEnd) ∨ (grayBase ≤ off ∧ off < apertureEnd) →
    let rd := fun (w : Width) (o : Nat) => (busAccess Config.params (.rd w o) s).readData
    (off % 2 = 0 → rd .w16 off = ((rd .w8 (off + 1)).setWidth 8 ++ (rd .w8 off).setWidth 8 : BitVec 16).setWidth 32) ∧
    (off % 4 = 0 → rd .w32 off = (rd .w8 (off + 3)).setWidth 8 ++ (rd .w8 (off + 2)).setWidth 8 ++
      (rd .w8 (off + 1)).setWidth 8 ++ (rd .w8 off).setWidth 8)

/-- R62, R63: a misaligned access, and an 8-bit or 16-bit access of the register page or the region table, reads
0, writes nothing and sets ACCERR, in every phase. -/
def Obligations.MisalignedAccessesAreRejected : Prop :=
  ∀ (s : State) (w : Width) (off : Nat) (v : Word), off < apertureEnd →
    off % w.lanes ≠ 0 ∨ (w ≠ .w32 ∧ (off < 0x1000 ∨ (0x2000 ≤ off ∧ off < 0x3000))) →
    hostAccess (.rd w off) s = .next { s with errAccerr := true, readData := 0 } ∧
    hostAccess (.wr w off v) s = .next { s with errAccerr := true }

/-- R35, R70: in every phase and at every width a reserved offset reads 0 and ignores writes, and either sets ACCERR. -/
def Obligations.ReservedOffsetsSetAccerr : Prop :=
  ∀ (s : State) (w : Width) (off : Nat) (v : Word),
    (0x03C ≤ off ∧ off < 0x1000) ∨ (0x11C0 ≤ off ∧ off < 0x2000) ∨ (0x3000 ≤ off ∧ off < 0x100000) →
    hostAccess (.rd w off) s = .next { s with errAccerr := true, readData := 0 } ∧
    hostAccess (.wr w off v) s = .next { s with errAccerr := true }

/-- R64, R66, R68, R69: a write of a read-only register, of LABEL, SYND, SIGMA or OMEGA, or of a region-table word
that is not the link word of an allocated entry, is ignored and sets ACCERR, in every phase. -/
def Obligations.ReadOnlyWritesAreIgnored : Prop :=
  ∀ (s : State) (w : Width) (off : Nat) (v : Word), off < apertureEnd → readOnlyOffset s off = true →
    hostAccess (.wr w off v) s = .next { s with errAccerr := true }

/-- R61, R65, R67: while idle an aligned write of BLOCK stores the lanes of the value, lowest byte first; an aligned
write of GRAY stores the lanes below W·H and sets ACCERR if some lane is not. No other byte and no other field
changes. -/
def Obligations.ByteWindowWrites : Prop :=
  ∀ (s : State) (w : Width) (off : Nat) (v : Word), s.phase = .idle → off % w.lanes = 0 →
    (blockBase ≤ off → off < blockBase + 256 →
      ∃ t, hostAccess (.wr w off v) s = .next t ∧ t = { s with mem := t.mem } ∧
        ∀ a, t.readByte a = if off ≤ a ∧ a < off + w.lanes then byteOfWord v (a - off) else s.readByte a) ∧
    (grayBase ≤ off → off < labelBase →
      let size := s.width.toNat * s.height.toNat
      ∃ t, hostAccess (.wr w off v) s = .next t ∧
        t = { s with mem := t.mem, errAccerr := s.errAccerr || decide (size < off - grayBase + w.lanes) } ∧
        ∀ a, t.readByte a = if off ≤ a ∧ a < off + w.lanes ∧ a < grayBase + size then byteOfWord v (a - off)
          else s.readByte a)

/-- R65 to R67, R69: while idle an 8-bit read of GRAY or LABEL below W·H returns that byte; at or beyond W·H it returns 0 and
sets ACCERR. An 8-bit read of BLOCK, SYND, SIGMA or OMEGA returns that byte. Nothing else changes. -/
def Obligations.ImageByteReads : Prop :=
  ∀ (s : State) (o : Nat), s.phase = .idle →
    let size := s.width.toNat * s.height.toNat
    let reads := fun (off : Nat) (b : Byte) =>
      hostAccess (.rd .w8 off) s = .next { s with readData := b.setWidth 32 }
    (o < 2 ^ 20 → o < size → reads (grayBase + o) (s.gray o) ∧ reads (labelBase + o) (s.label o)) ∧
    (o < 2 ^ 20 → size ≤ o →
      hostAccess (.rd .w8 (grayBase + o)) s = .next { s with errAccerr := true, readData := 0 } ∧
      hostAccess (.rd .w8 (labelBase + o)) s = .next { s with errAccerr := true, readData := 0 }) ∧
    (o < 256 → reads (blockBase + o) (s.block o)) ∧
    (o < 64 → reads (syndBase + o) (s.synd o) ∧ reads (sigmaBase + o) (s.sigma o) ∧ reads (omegaBase + o) (s.omega o))

/-- R43, R68, R171: while idle the four words of an allocated entry read {SEED_Y, SEED_X}, AREA, CAPSTONE and 0, those
of an unallocated entry 0. Writing word +8 of an allocated entry stores bits 15:0 into its CAPSTONE and changes
nothing else; every other write is ignored and sets ACCERR. -/
def Obligations.RegionTableAccess : Prop :=
  ∀ (s : State) (id : BitVec 8) (v : Word), s.phase = .idle →
    let base := 0x2000 + 16 * id.toNat
    let allocated := 2 ≤ id.toNat ∧ id.toNat < s.regionNext.toNat
    let reads := fun (off : Nat) (x : Word) => hostAccess (.rd .w32 off) s = .next { s with readData := x }
    (allocated →
      reads base ((s.region id).seedY ++ (s.region id).seedX) ∧ reads (base + 4) (s.region id).area ∧
      reads (base + 8) ((s.region id).capstone.setWidth 32) ∧ reads (base + 12) 0 ∧
      ∃ t, hostAccess (.wr .w32 (base + 8) v) s = .next t ∧ t = { s with regions := t.regions } ∧
        t.region id = { s.region id with capstone := v.extractLsb' 0 16 } ∧
        ∀ n, n ≠ id → t.region n = s.region n) ∧
    (¬ allocated → reads base 0 ∧ reads (base + 4) 0 ∧ reads (base + 8) 0 ∧ reads (base + 12) 0 ∧
      hostAccess (.wr .w32 (base + 8) v) s = .next { s with errAccerr := true }) ∧
    ∀ k, k = 0 ∨ k = 4 ∨ k = 12 → hostAccess (.wr .w32 (base + k) v) s = .next { s with errAccerr := true }

/-- R33, R34: in every phase SPAN_Y returns the y of the head entry and changes nothing; SPAN_X returns
{right, left} of the head entry and removes it. With the FIFO empty both return 0, and SPAN_X sets ACCERR. Both
are read-only. -/
def Obligations.SpanRegistersPop : Prop :=
  ∀ s : State,
    (∀ sp rest, s.fifo = sp :: rest →
      hostAccess (.rd .w32 0x034) s = .next { s with readData := sp.y.setWidth 32 } ∧
      hostAccess (.rd .w32 0x038) s = .next { s with readData := sp.right ++ sp.left, fifo := rest }) ∧
    (s.fifo = [] →
      hostAccess (.rd .w32 0x034) s = .next { s with readData := 0 } ∧
      hostAccess (.rd .w32 0x038) s = .next { s with readData := 0, errAccerr := true }) ∧
    ∀ v, hostAccess (.wr .w32 0x034 v) s = .next { s with errAccerr := true } ∧
      hostAccess (.wr .w32 0x038 v) s = .next { s with errAccerr := true }

/-- R24 to R26, R30: in every phase a write to ERR clears the flags whose bits are 1, a write to INT_STATUS clears DONE
if bit 0 is 1, and a write to INT_ENABLE stores bits 1:0; while idle a write to ARG0 or ARG1 stores the whole value.
Nothing else changes. -/
def Obligations.FlagRegisterWrites : Prop :=
  ∀ (s : State) (v : Word),
    hostAccess (.wr .w32 0x008 v) s = .next { s with
      errOverrun := if v.getLsbD 0 then false else s.errOverrun
      errAccerr := if v.getLsbD 1 then false else s.errAccerr } ∧
    hostAccess (.wr .w32 0x00C v) s = .next { s with intDone := if v.getLsbD 0 then false else s.intDone } ∧
    hostAccess (.wr .w32 0x010 v) s = .next { s with doneEn := v.getLsbD 0, spanEn := v.getLsbD 1 } ∧
    (s.phase = .idle →
      hostAccess (.wr .w32 0x020 v) s = .next { s with arg0 := v } ∧
      hostAccess (.wr .w32 0x024 v) s = .next { s with arg1 := v })

/-- R72: reads other than SPAN_X reads change nothing but the error flags and the returned value, and a second read
of the same location returns the same value. -/
def Obligations.ReadsAreIdempotent : Prop :=
  ∀ (s : State) (w : Width) (off : Nat), off ≠ 0x038 →
    let t := busAccess Config.params (.rd w off) s
    t = { s with errOverrun := t.errOverrun, errAccerr := t.errAccerr, readData := t.readData } ∧
    (busAccess Config.params (.rd w off) t).readData = t.readData

/-- R23 to R26, R45, R251: the fields of the STATUS, ERR, INT_STATUS and INT_ENABLE words, their reserved bits, which read
0, and the numbers of the status codes. Between the pushes of a FILL.SPANS STATUS shows the FF_OVF from before the command
(R74, log entry 26). -/
def Obligations.StatusWordFields : Prop :=
  (∀ s : State, s.fifo.length ≤ 255 →
    s.statusWord.getLsbD 0 = s.busy ∧ s.statusWord.getLsbD 1 = s.labelsValid ∧
    (s.statusWord.getLsbD 2 = match s.phase with
      | .idle => s.ffOvf
      | .issued => s.ffOvf
      | .filling run => run.ffOvfBefore) ∧ (s.statusWord.getLsbD 3 = true ↔ s.fifo ≠ []) ∧
    s.statusWord.extractLsb' 4 4 = 0 ∧ s.statusWord.extractLsb' 8 8 = s.code.toByte ∧
    s.statusWord.extractLsb' 16 4 = s.lastOp ∧ s.statusWord.extractLsb' 20 4 = 0 ∧
    (s.statusWord.extractLsb' 24 8).toNat = s.fifo.length) ∧
  (∀ s : State,
    s.errWord.getLsbD 0 = s.errOverrun ∧ s.errWord.getLsbD 1 = s.errAccerr ∧ s.errWord.extractLsb' 2 30 = 0 ∧
    s.intStatusWord.getLsbD 0 = s.intDone ∧ (s.intStatusWord.getLsbD 1 = true ↔ s.fifo ≠ []) ∧
    s.intStatusWord.extractLsb' 2 30 = 0 ∧
    s.intEnableWord.getLsbD 0 = s.doneEn ∧ s.intEnableWord.getLsbD 1 = s.spanEn ∧
    s.intEnableWord.extractLsb' 2 30 = 0) ∧
  StatusCode.ok.toByte = 0x00 ∧ StatusCode.formatEcc.toByte = 0x01 ∧ StatusCode.dataEcc.toByte = 0x02 ∧
  StatusCode.badParam.toByte = 0x03 ∧ StatusCode.badCommand.toByte = 0x04 ∧ StatusCode.notReady.toByte = 0x05

/-- R255: IRQ is 1 exactly when DONE is pending and enabled or SPAN is pending and enabled, in the bits of INT_STATUS
and INT_ENABLE; it is 0 after reset. -/
def Obligations.IrqIsPendingAndEnabled : Prop :=
  (∀ s : State, s.irq =
    ((s.intStatusWord.getLsbD 0 && s.intEnableWord.getLsbD 0) ||
      (s.intStatusWord.getLsbD 1 && s.intEnableWord.getLsbD 1))) ∧
  State.reset.irq = false

/-! ## Reset -/

/-- R281, R283: after reset every register reads its reset value (CMD, SPAN_Y and SPAN_X read 0), the FIFO is empty, the engine idle, IRQ 0, and every
word of the region table reads 0. -/
def Obligations.ResetValues : Prop :=
  let s := State.reset
  s.phase = .idle ∧ s.fifo = [] ∧ s.irq = false ∧ s.statusWord = 0 ∧ s.errWord = 0 ∧ s.intStatusWord = 0 ∧
    s.intEnableWord = 0 ∧ s.width = 0 ∧ s.height = 0 ∧ s.regionNext = 2 ∧ s.arg0 = 0 ∧ s.arg1 = 0 ∧ s.res0 = 0 ∧
    s.res1 = 0 ∧ s.threshWord = 0 ∧ (∀ id k, s.regionWord id k = 0) ∧
    ∀ off, off = 0x000 ∨ off = 0x034 ∨ off = 0x038 → ∃ t, hostAccess (.rd .w32 off) s = .next t ∧ t.readData = 0

/-- R280: a platform reset puts every field at its reset value in one step, whatever the engine was doing, so a
command in execution does not complete and DONE is not set for it. The draws are fresh; the agenda's rest and the
last read value are the model's own (log entries 1, 5, 8, 12). -/
def Obligations.PlatformResetAbandonsCommand : Prop :=
  ∀ (s : State) (rest : List Event), s.agenda = .reset :: rest →
    ∃ t, step s = .next t ∧ t.phase = .idle ∧ t.intDone = false ∧
      t = { State.reset with
        regions := t.regions
        imageDraws := s.imageDraws + 1
        bufferDraws := s.bufferDraws + 1
        agenda := rest
        readData := s.readData } ∧
      ∀ id k, t.regionWord id k = 0

/-! ## Galois fields and error correction -/

/-- R191, R192: the EXP tables follow their generator rules, and the LOG entries of the zero element are LOG0 and 0. -/
def Sys2Proof.Claims.tablesGenerated : Prop :=
  exp256 0 = 1 ∧ exp256 255 = 1 ∧
  (∀ k, k ≤ 253 → (exp256 (k + 1)).toNat =
    if 0x100 ≤ 2 * (exp256 k).toNat then (2 * (exp256 k).toNat) ^^^ 0x11D else 2 * (exp256 k).toNat) ∧
  (∀ log0, log256 log0 0 = log0) ∧
  exp16 0 = 1 ∧ exp16 15 = 1 ∧
  (∀ k, k ≤ 13 → (exp16 (k + 1)).toNat =
    if 0x10 ≤ 2 * (exp16 k).toNat then (2 * (exp16 k).toNat) ^^^ 0x13 else 2 * (exp16 k).toNat) ∧
  log16 0 = 0

/-- R191, R192, R195: the EXP tables follow their generator rules, and EXP and LOG are inverse on the nonzero elements of
each field. -/
def Obligations.TablesAreGeneratedAndInverse : Prop :=
  Sys2Proof.Claims.tablesGenerated ∧
  (∀ (log0 : Nat) (v : Byte), v ≠ 0 → exp256 (log256 log0 v) = v) ∧
  (∀ log0 k, k ≤ 254 → log256 log0 (exp256 k) = k) ∧
  (∀ v : Byte, v ≠ 0 → v.toNat ≤ 15 → exp16 (log16 v) = v) ∧
  (∀ k, k ≤ 14 → log16 (exp16 k) = k)

/-- The product of two polynomials over GF(2) given as bits, reduced modulo `poly`, which has degree `bits` (R190,
R193): Horner's scheme over the bits of `b`. -/
def Sys2Proof.Claims.polyProduct (bits poly a b : Nat) : Nat :=
  (List.range bits).foldr
    (fun i acc =>
      let twice := if 2 ^ bits ≤ 2 * acc then (2 * acc) ^^^ poly else 2 * acc
      if b.testBit i then twice ^^^ a else twice) 0

/-- R193: in both fields the table product of nonzero elements is the product of the polynomials modulo the primitive
polynomial, and the table quotient undoes it. -/
def Obligations.TableProductIsFieldProduct : Prop :=
  ∀ (F : FieldTables) (bits poly : Nat),
    ((F = gf256 Config.params.log0 ∧ bits = 8 ∧ poly = 0x11D) ∨ (F = gf16 ∧ bits = 4 ∧ poly = 0x13)) →
    ∀ a b : Byte, a ≠ 0 → b ≠ 0 → a.toNat ≤ F.p → b.toNat ≤ F.p →
      (F.mul a b).toNat = Sys2Proof.Claims.polyProduct bits poly a.toNat b.toNat ∧
      F.div (F.mul a b) b = a

/-- R200: Berlekamp–Massey keeps σ[0] = 1, L ≤ N and deg σ ≤ L, and answers σ = 1 and L = 0 when every syndrome is 0. -/
def Obligations.BerlekampMasseyBounds : Prop :=
  ∀ (F : FieldTables) (S : Poly) (n : Nat), n ≤ 63 →
    polyCoef (bm F S n).c 0 = 1 ∧ (bm F S n).len ≤ n ∧
    (∀ k, (bm F S n).len < k → polyCoef (bm F S n).c k = 0) ∧
    ((∀ k, k < n → polyCoef S k = 0) → (bm F S n).len = 0 ∧ (bm F S n).c = polyOne)

/-- R220 to R223: FMT_CORRECT writes the six syndromes of the word, σ and a zero ω; with no error it returns the
word; otherwise it flips exactly the bits at the roots of σ, returns the new word with OK if that word's syndromes
are zero and the input word with FORMAT_ECC if not; no other byte and no other field changes. -/
def Obligations.FmtCorrectResult : Prop :=
  ∀ s : State,
    let u := s.cur.arg0.extractLsb' 0 15
    let syn := fun (v : BitVec 15) (k : Nat) =>
      xorSum 15 fun j => if v.getLsbD j then exp16 (((k + 1) * j) % 15) else 0
    ∃ t, exec .fmtCorrect s = .next t ∧
      (∀ k, k < 64 → t.synd k = if k < 6 then syn u k else 0) ∧
      (∀ k, k < 64 → t.omega k = 0) ∧
      ((∀ k, k < 6 → syn u k = 0) →
        t.code = .ok ∧ t.res0 = u.setWidth 32 ∧ t.res1 = 0 ∧ ∀ k, k < 64 → t.sigma k = if k = 0 then 1 else 0) ∧
      (¬ (∀ k, k < 6 → syn u k = 0) →
        let r := bm gf16 ((List.range 64).map t.synd) 6
        let root := fun i => decide (Sys2Proof.Claims.valueAt gf16 t.sigma (exp16 (15 - i)) = 0)
        ∃ v : BitVec 15, (∀ i, i < 15 → v.getLsbD i = (u.getLsbD i ^^ root i)) ∧
          (∀ k, k < 64 → t.sigma k = polyCoef r.c k) ∧
          t.res1 = eccResult r.len ((List.range 15).countP root) ∧
          ((∀ k, k < 6 → syn v k = 0) → t.code = .ok ∧ t.res0 = v.setWidth 32) ∧
          (¬ (∀ k, k < 6 → syn v k = 0) → t.code = .formatEcc ∧ t.res0 = u.setWidth 32)) ∧
      (∀ a, ¬ (syndBase ≤ a ∧ a < bufferEnd) → t.readByte a = s.readByte a) ∧
      t = Sys2Proof.Claims.completed { s with mem := t.mem } 0x5 t.code t.res0 t.res1

/-- R233: every pattern of at most three bit errors on every valid format word is corrected to that word with
status OK. -/
def Obligations.FmtCorrectsThreeErrors : Prop :=
  ∀ (s : State) (valid error : BitVec 15), allZero (fmtSyndromes valid) 6 = true →
    (List.range 15).countP (fun i => error.getLsbD i) ≤ 3 → s.cur.fmtWord = valid ^^^ error →
    ∃ t, exec .fmtCorrect s = .next t ∧ t.code = .ok ∧ t.res0 = valid.setWidth 32

/-- R224: RS_CORRECT with an illegal bs or dw completes with BAD_PARAM and changes nothing else. -/
def Obligations.RsOperandCheck : Prop :=
  ∀ s : State,
    let bs := (s.cur.arg0.extractLsb' 0 8).toNat
    let dw := (s.cur.arg0.extractLsb' 8 8).toNat
    (bs = 0 ∨ bs ≤ dw ∨ 63 < bs - dw) →
      exec .rsCorrect s = .next (Sys2Proof.Claims.completed s 0x6 .badParam 0 0)

/-- R225 to R230: RS_CORRECT with legal operands writes the block's syndromes, σ and R227's ω; where σ has the root α^(−i) it
XORs into BLOCK[bs − 1 − i] the table quotient of ω by R226's σ′ at that root, unguarded, with LOG0 = 0 for the log of 0; and
it reports OK exactly when the block it leaves has zero syndromes, DATA_ECC otherwise. No other byte and no other field
changes. A block with zero syndromes is left as it is. -/
def Obligations.RsCorrectResult : Prop :=
  ∀ s : State,
    let F := gf256 0
    let bs := (s.cur.arg0.extractLsb' 0 8).toNat
    let dw := (s.cur.arg0.extractLsb' 8 8).toNat
    let npar := bs - dw
    let syn := fun (q : State) (k : Nat) =>
      xorSum bs fun j => if q.block (bs - 1 - j) = 0 then 0
        else exp256 ((log256 0 (q.block (bs - 1 - j)) + k * j) % 255)
    bs ≠ 0 → dw < bs → npar ≤ 63 →
    ∃ t, exec .rsCorrect s = .next t ∧
      (∀ k, k < 64 → t.synd k = if k < npar then syn s k else 0) ∧
      ((∀ k, k < npar → syn s k = 0) →
        t.code = .ok ∧ t.res1 = 0 ∧ (∀ k, t.block k = s.block k ∨ 256 ≤ k) ∧
        (∀ k, k < 64 → t.sigma k = if k = 0 then 1 else 0) ∧ ∀ k, k < 64 → t.omega k = 0) ∧
      (¬ (∀ k, k < npar → syn s k = 0) →
        let r := bm F ((List.range 64).map t.synd) npar
        let x := fun i => exp256 (255 - i)
        let root := fun i => decide (Sys2Proof.Claims.valueAt F t.sigma (x i) = 0)
        let magnitude := fun i =>
          exp256 ((255 - log256 0 (Sys2Proof.Claims.valueAt F (Sys2Proof.Claims.derivCoef t.sigma) (x i)) +
            log256 0 (Sys2Proof.Claims.valueAt F t.omega (x i))) % 255)
        (∀ k, k < 64 → t.sigma k = polyCoef r.c k ∧
          t.omega k = Sys2Proof.Claims.omegaCoef t.synd t.sigma npar k) ∧
        (∀ i, i < bs → t.block (bs - 1 - i) = if root i then s.block (bs - 1 - i) ^^^ magnitude i
          else s.block (bs - 1 - i)) ∧
        t.res1 = eccResult r.len ((List.range bs).countP root) ∧
        ((∀ k, k < npar → syn t k = 0) → t.code = .ok) ∧
        (¬ (∀ k, k < npar → syn t k = 0) → t.code = .dataEcc)) ∧
      (∀ a, ¬ (blockBase ≤ a ∧ a < blockBase + bs) → ¬ (syndBase ≤ a ∧ a < bufferEnd) →
        t.readByte a = s.readByte a) ∧
      t = Sys2Proof.Claims.completed { s with mem := t.mem } 0x6 t.code 0 t.res1

/-- R231 for one error: if BLOCK is a valid block with one byte changed and there are at least two parity bytes,
RS_CORRECT restores the valid block and completes with OK, L = 1 and one correction. -/
def Obligations.RsCorrectsOneError : Prop :=
  ∀ (s valid : State) (pos : Nat) (e : Byte),
    let bs := (s.cur.arg0.extractLsb' 0 8).toNat
    let dw := (s.cur.arg0.extractLsb' 8 8).toNat
    bs ≠ 0 → dw < bs → bs - dw ≤ 63 → 2 ≤ bs - dw → pos < bs → e ≠ 0 →
    allZero (rsSyndromes (gf256 0) valid bs (bs - dw)) (bs - dw) = true →
    (∀ k, k < bs → s.block k = if k = pos then valid.block k ^^^ e else valid.block k) →
    ∃ t, exec .rsCorrect s = .next t ∧ t.code = .ok ∧ t.res1 = 0x0101 ∧ ∀ k, k < bs → t.block k = valid.block k

/-! ## The invariant -/

/-- The invariant of `Sys2Proof.Machine.Inv` holds at reset. -/
def Obligations.ResetMeetsInvariant : Prop := Inv Config.params State.reset

/-- Every step keeps the invariant: memory canonical and inside the windows and the image, sizes legal, labels
written while LABELS_VALID = 1, REGION_NEXT and the FIFO in range, captured operands equal to the registers while
BUSY, and a fill in progress well-formed (R27 to R29, R44 to R46, R65, R77, R148, R169). -/
def Obligations.StepKeepsInvariant : Prop :=
  ∀ s t : State, Inv Config.params s → step s = .next t → Inv Config.params t
end

