-- ==== Sys2Proof/Laws/State.lean ====
section
/-! SUPPORT. One lemma per field per named update of the state, each true by rfl, so that no later proof
unfolds a record update. -/

namespace Sys2Proof.Machine


/-! ## FF_OVF as STATUS shows it (R23, R74) -/

@[simp] theorem State.ffOvfShown_idle {s : State} (h : s.phase = .idle) : s.ffOvfShown = s.ffOvf := by
  unfold State.ffOvfShown; rw [h]
@[simp] theorem State.ffOvfShown_issued {s : State} (h : s.phase = .issued) : s.ffOvfShown = s.ffOvf := by
  unfold State.ffOvfShown; rw [h]
@[simp] theorem State.ffOvfShown_filling {s : State} {run : FillRun} (h : s.phase = .filling run) :
    s.ffOvfShown = run.ffOvfBefore := by
  unfold State.ffOvfShown; rw [h]

/-! ## complete -/

@[simp] theorem State.complete_phase (s : State) (op : BitVec 4) (code : StatusCode) (r0 r1 : Word) : (s.complete op code r0 r1).phase = .idle := rfl
@[simp] theorem State.complete_cur (s : State) (op : BitVec 4) (code : StatusCode) (r0 r1 : Word) : (s.complete op code r0 r1).cur = s.cur := rfl
@[simp] theorem State.complete_labelsValid (s : State) (op : BitVec 4) (code : StatusCode) (r0 r1 : Word) : (s.complete op code r0 r1).labelsValid = s.labelsValid := rfl
@[simp] theorem State.complete_ffOvf (s : State) (op : BitVec 4) (code : StatusCode) (r0 r1 : Word) : (s.complete op code r0 r1).ffOvf = s.ffOvf := rfl
@[simp] theorem State.complete_code (s : State) (op : BitVec 4) (code : StatusCode) (r0 r1 : Word) : (s.complete op code r0 r1).code = code := rfl
@[simp] theorem State.complete_lastOp (s : State) (op : BitVec 4) (code : StatusCode) (r0 r1 : Word) : (s.complete op code r0 r1).lastOp = op := rfl
@[simp] theorem State.complete_errOverrun (s : State) (op : BitVec 4) (code : StatusCode) (r0 r1 : Word) : (s.complete op code r0 r1).errOverrun = s.errOverrun := rfl
@[simp] theorem State.complete_errAccerr (s : State) (op : BitVec 4) (code : StatusCode) (r0 r1 : Word) : (s.complete op code r0 r1).errAccerr = s.errAccerr := rfl
@[simp] theorem State.complete_intDone (s : State) (op : BitVec 4) (code : StatusCode) (r0 r1 : Word) : (s.complete op code r0 r1).intDone = true := rfl
@[simp] theorem State.complete_doneEn (s : State) (op : BitVec 4) (code : StatusCode) (r0 r1 : Word) : (s.complete op code r0 r1).doneEn = s.doneEn := rfl
@[simp] theorem State.complete_spanEn (s : State) (op : BitVec 4) (code : StatusCode) (r0 r1 : Word) : (s.complete op code r0 r1).spanEn = s.spanEn := rfl
@[simp] theorem State.complete_width (s : State) (op : BitVec 4) (code : StatusCode) (r0 r1 : Word) : (s.complete op code r0 r1).width = s.width := rfl
@[simp] theorem State.complete_height (s : State) (op : BitVec 4) (code : StatusCode) (r0 r1 : Word) : (s.complete op code r0 r1).height = s.height := rfl
@[simp] theorem State.complete_regionNext (s : State) (op : BitVec 4) (code : StatusCode) (r0 r1 : Word) : (s.complete op code r0 r1).regionNext = s.regionNext := rfl
@[simp] theorem State.complete_arg0 (s : State) (op : BitVec 4) (code : StatusCode) (r0 r1 : Word) : (s.complete op code r0 r1).arg0 = s.arg0 := rfl
@[simp] theorem State.complete_arg1 (s : State) (op : BitVec 4) (code : StatusCode) (r0 r1 : Word) : (s.complete op code r0 r1).arg1 = s.arg1 := rfl
@[simp] theorem State.complete_res0 (s : State) (op : BitVec 4) (code : StatusCode) (r0 r1 : Word) : (s.complete op code r0 r1).res0 = r0 := rfl
@[simp] theorem State.complete_res1 (s : State) (op : BitVec 4) (code : StatusCode) (r0 r1 : Word) : (s.complete op code r0 r1).res1 = r1 := rfl
@[simp] theorem State.complete_threshT (s : State) (op : BitVec 4) (code : StatusCode) (r0 r1 : Word) : (s.complete op code r0 r1).threshT = s.threshT := rfl
@[simp] theorem State.complete_threshInv (s : State) (op : BitVec 4) (code : StatusCode) (r0 r1 : Word) : (s.complete op code r0 r1).threshInv = s.threshInv := rfl
@[simp] theorem State.complete_fifo (s : State) (op : BitVec 4) (code : StatusCode) (r0 r1 : Word) : (s.complete op code r0 r1).fifo = s.fifo := rfl
@[simp] theorem State.complete_regions (s : State) (op : BitVec 4) (code : StatusCode) (r0 r1 : Word) : (s.complete op code r0 r1).regions = s.regions := rfl
@[simp] theorem State.complete_mem (s : State) (op : BitVec 4) (code : StatusCode) (r0 r1 : Word) : (s.complete op code r0 r1).mem = s.mem := rfl
@[simp] theorem State.complete_imageDraws (s : State) (op : BitVec 4) (code : StatusCode) (r0 r1 : Word) : (s.complete op code r0 r1).imageDraws = s.imageDraws := rfl
@[simp] theorem State.complete_bufferDraws (s : State) (op : BitVec 4) (code : StatusCode) (r0 r1 : Word) : (s.complete op code r0 r1).bufferDraws = s.bufferDraws := rfl
@[simp] theorem State.complete_agenda (s : State) (op : BitVec 4) (code : StatusCode) (r0 r1 : Word) : (s.complete op code r0 r1).agenda = s.agenda := rfl
@[simp] theorem State.complete_readData (s : State) (op : BitVec 4) (code : StatusCode) (r0 r1 : Word) : (s.complete op code r0 r1).readData = s.readData := rfl

/-! ## completeError -/

@[simp] theorem State.completeError_phase (s : State) (op : BitVec 4) (code : StatusCode) : (s.completeError op code).phase = .idle := rfl
@[simp] theorem State.completeError_cur (s : State) (op : BitVec 4) (code : StatusCode) : (s.completeError op code).cur = s.cur := rfl
@[simp] theorem State.completeError_labelsValid (s : State) (op : BitVec 4) (code : StatusCode) : (s.completeError op code).labelsValid = s.labelsValid := rfl
@[simp] theorem State.completeError_ffOvf (s : State) (op : BitVec 4) (code : StatusCode) : (s.completeError op code).ffOvf = s.ffOvf := rfl
@[simp] theorem State.completeError_code (s : State) (op : BitVec 4) (code : StatusCode) : (s.completeError op code).code = code := rfl
@[simp] theorem State.completeError_lastOp (s : State) (op : BitVec 4) (code : StatusCode) : (s.completeError op code).lastOp = op := rfl
@[simp] theorem State.completeError_errOverrun (s : State) (op : BitVec 4) (code : StatusCode) : (s.completeError op code).errOverrun = s.errOverrun := rfl
@[simp] theorem State.completeError_errAccerr (s : State) (op : BitVec 4) (code : StatusCode) : (s.completeError op code).errAccerr = s.errAccerr := rfl
@[simp] theorem State.completeError_intDone (s : State) (op : BitVec 4) (code : StatusCode) : (s.completeError op code).intDone = true := rfl
@[simp] theorem State.completeError_doneEn (s : State) (op : BitVec 4) (code : StatusCode) : (s.completeError op code).doneEn = s.doneEn := rfl
@[simp] theorem State.completeError_spanEn (s : State) (op : BitVec 4) (code : StatusCode) : (s.completeError op code).spanEn = s.spanEn := rfl
@[simp] theorem State.completeError_width (s : State) (op : BitVec 4) (code : StatusCode) : (s.completeError op code).width = s.width := rfl
@[simp] theorem State.completeError_height (s : State) (op : BitVec 4) (code : StatusCode) : (s.completeError op code).height = s.height := rfl
@[simp] theorem State.completeError_regionNext (s : State) (op : BitVec 4) (code : StatusCode) : (s.completeError op code).regionNext = s.regionNext := rfl
@[simp] theorem State.completeError_arg0 (s : State) (op : BitVec 4) (code : StatusCode) : (s.completeError op code).arg0 = s.arg0 := rfl
@[simp] theorem State.completeError_arg1 (s : State) (op : BitVec 4) (code : StatusCode) : (s.completeError op code).arg1 = s.arg1 := rfl
@[simp] theorem State.completeError_res0 (s : State) (op : BitVec 4) (code : StatusCode) : (s.completeError op code).res0 = 0 := rfl
@[simp] theorem State.completeError_res1 (s : State) (op : BitVec 4) (code : StatusCode) : (s.completeError op code).res1 = 0 := rfl
@[simp] theorem State.completeError_threshT (s : State) (op : BitVec 4) (code : StatusCode) : (s.completeError op code).threshT = s.threshT := rfl
@[simp] theorem State.completeError_threshInv (s : State) (op : BitVec 4) (code : StatusCode) : (s.completeError op code).threshInv = s.threshInv := rfl
@[simp] theorem State.completeError_fifo (s : State) (op : BitVec 4) (code : StatusCode) : (s.completeError op code).fifo = s.fifo := rfl
@[simp] theorem State.completeError_regions (s : State) (op : BitVec 4) (code : StatusCode) : (s.completeError op code).regions = s.regions := rfl
@[simp] theorem State.completeError_mem (s : State) (op : BitVec 4) (code : StatusCode) : (s.completeError op code).mem = s.mem := rfl
@[simp] theorem State.completeError_imageDraws (s : State) (op : BitVec 4) (code : StatusCode) : (s.completeError op code).imageDraws = s.imageDraws := rfl
@[simp] theorem State.completeError_bufferDraws (s : State) (op : BitVec 4) (code : StatusCode) : (s.completeError op code).bufferDraws = s.bufferDraws := rfl
@[simp] theorem State.completeError_agenda (s : State) (op : BitVec 4) (code : StatusCode) : (s.completeError op code).agenda = s.agenda := rfl
@[simp] theorem State.completeError_readData (s : State) (op : BitVec 4) (code : StatusCode) : (s.completeError op code).readData = s.readData := rfl

/-! ## issue -/

@[simp] theorem State.issue_phase (s : State) (w : Word) : (s.issue w).phase = .issued := rfl
@[simp] theorem State.issue_cur (s : State) (w : Word) : (s.issue w).cur = ⟨w, s.arg0, s.arg1, s.width, s.height⟩ := rfl
@[simp] theorem State.issue_labelsValid (s : State) (w : Word) : (s.issue w).labelsValid = s.labelsValid := rfl
@[simp] theorem State.issue_ffOvf (s : State) (w : Word) : (s.issue w).ffOvf = s.ffOvf := rfl
@[simp] theorem State.issue_code (s : State) (w : Word) : (s.issue w).code = s.code := rfl
@[simp] theorem State.issue_lastOp (s : State) (w : Word) : (s.issue w).lastOp = s.lastOp := rfl
@[simp] theorem State.issue_errOverrun (s : State) (w : Word) : (s.issue w).errOverrun = s.errOverrun := rfl
@[simp] theorem State.issue_errAccerr (s : State) (w : Word) : (s.issue w).errAccerr = s.errAccerr := rfl
@[simp] theorem State.issue_intDone (s : State) (w : Word) : (s.issue w).intDone = s.intDone := rfl
@[simp] theorem State.issue_doneEn (s : State) (w : Word) : (s.issue w).doneEn = s.doneEn := rfl
@[simp] theorem State.issue_spanEn (s : State) (w : Word) : (s.issue w).spanEn = s.spanEn := rfl
@[simp] theorem State.issue_width (s : State) (w : Word) : (s.issue w).width = s.width := rfl
@[simp] theorem State.issue_height (s : State) (w : Word) : (s.issue w).height = s.height := rfl
@[simp] theorem State.issue_regionNext (s : State) (w : Word) : (s.issue w).regionNext = s.regionNext := rfl
@[simp] theorem State.issue_arg0 (s : State) (w : Word) : (s.issue w).arg0 = s.arg0 := rfl
@[simp] theorem State.issue_arg1 (s : State) (w : Word) : (s.issue w).arg1 = s.arg1 := rfl
@[simp] theorem State.issue_res0 (s : State) (w : Word) : (s.issue w).res0 = s.res0 := rfl
@[simp] theorem State.issue_res1 (s : State) (w : Word) : (s.issue w).res1 = s.res1 := rfl
@[simp] theorem State.issue_threshT (s : State) (w : Word) : (s.issue w).threshT = s.threshT := rfl
@[simp] theorem State.issue_threshInv (s : State) (w : Word) : (s.issue w).threshInv = s.threshInv := rfl
@[simp] theorem State.issue_fifo (s : State) (w : Word) : (s.issue w).fifo = s.fifo := rfl
@[simp] theorem State.issue_regions (s : State) (w : Word) : (s.issue w).regions = s.regions := rfl
@[simp] theorem State.issue_mem (s : State) (w : Word) : (s.issue w).mem = s.mem := rfl
@[simp] theorem State.issue_imageDraws (s : State) (w : Word) : (s.issue w).imageDraws = s.imageDraws := rfl
@[simp] theorem State.issue_bufferDraws (s : State) (w : Word) : (s.issue w).bufferDraws = s.bufferDraws := rfl
@[simp] theorem State.issue_agenda (s : State) (w : Word) : (s.issue w).agenda = s.agenda := rfl
@[simp] theorem State.issue_readData (s : State) (w : Word) : (s.issue w).readData = s.readData := rfl

/-! ## newFrame -/

@[simp] theorem State.newFrame_phase (s : State) (valid : Bool) : (s.newFrame valid).phase = s.phase := rfl
@[simp] theorem State.newFrame_cur (s : State) (valid : Bool) : (s.newFrame valid).cur = s.cur := rfl
@[simp] theorem State.newFrame_labelsValid (s : State) (valid : Bool) : (s.newFrame valid).labelsValid = valid := rfl
@[simp] theorem State.newFrame_ffOvf (s : State) (valid : Bool) : (s.newFrame valid).ffOvf = false := rfl
@[simp] theorem State.newFrame_code (s : State) (valid : Bool) : (s.newFrame valid).code = s.code := rfl
@[simp] theorem State.newFrame_lastOp (s : State) (valid : Bool) : (s.newFrame valid).lastOp = s.lastOp := rfl
@[simp] theorem State.newFrame_errOverrun (s : State) (valid : Bool) : (s.newFrame valid).errOverrun = s.errOverrun := rfl
@[simp] theorem State.newFrame_errAccerr (s : State) (valid : Bool) : (s.newFrame valid).errAccerr = s.errAccerr := rfl
@[simp] theorem State.newFrame_intDone (s : State) (valid : Bool) : (s.newFrame valid).intDone = s.intDone := rfl
@[simp] theorem State.newFrame_doneEn (s : State) (valid : Bool) : (s.newFrame valid).doneEn = s.doneEn := rfl
@[simp] theorem State.newFrame_spanEn (s : State) (valid : Bool) : (s.newFrame valid).spanEn = s.spanEn := rfl
@[simp] theorem State.newFrame_width (s : State) (valid : Bool) : (s.newFrame valid).width = s.width := rfl
@[simp] theorem State.newFrame_height (s : State) (valid : Bool) : (s.newFrame valid).height = s.height := rfl
@[simp] theorem State.newFrame_regionNext (s : State) (valid : Bool) : (s.newFrame valid).regionNext = 2 := rfl
@[simp] theorem State.newFrame_arg0 (s : State) (valid : Bool) : (s.newFrame valid).arg0 = s.arg0 := rfl
@[simp] theorem State.newFrame_arg1 (s : State) (valid : Bool) : (s.newFrame valid).arg1 = s.arg1 := rfl
@[simp] theorem State.newFrame_res0 (s : State) (valid : Bool) : (s.newFrame valid).res0 = s.res0 := rfl
@[simp] theorem State.newFrame_res1 (s : State) (valid : Bool) : (s.newFrame valid).res1 = s.res1 := rfl
@[simp] theorem State.newFrame_threshT (s : State) (valid : Bool) : (s.newFrame valid).threshT = s.threshT := rfl
@[simp] theorem State.newFrame_threshInv (s : State) (valid : Bool) : (s.newFrame valid).threshInv = s.threshInv := rfl
@[simp] theorem State.newFrame_fifo (s : State) (valid : Bool) : (s.newFrame valid).fifo = [] := rfl
@[simp] theorem State.newFrame_regions (s : State) (valid : Bool) : (s.newFrame valid).regions = s.regions := rfl
@[simp] theorem State.newFrame_mem (s : State) (valid : Bool) : (s.newFrame valid).mem = s.mem := rfl
@[simp] theorem State.newFrame_imageDraws (s : State) (valid : Bool) : (s.newFrame valid).imageDraws = s.imageDraws := rfl
@[simp] theorem State.newFrame_bufferDraws (s : State) (valid : Bool) : (s.newFrame valid).bufferDraws = s.bufferDraws := rfl
@[simp] theorem State.newFrame_agenda (s : State) (valid : Bool) : (s.newFrame valid).agenda = s.agenda := rfl
@[simp] theorem State.newFrame_readData (s : State) (valid : Bool) : (s.newFrame valid).readData = s.readData := rfl

/-! ## setAccerr -/

@[simp] theorem State.setAccerr_phase (s : State) : (s.setAccerr).phase = s.phase := rfl
@[simp] theorem State.setAccerr_cur (s : State) : (s.setAccerr).cur = s.cur := rfl
@[simp] theorem State.setAccerr_labelsValid (s : State) : (s.setAccerr).labelsValid = s.labelsValid := rfl
@[simp] theorem State.setAccerr_ffOvf (s : State) : (s.setAccerr).ffOvf = s.ffOvf := rfl
@[simp] theorem State.setAccerr_code (s : State) : (s.setAccerr).code = s.code := rfl
@[simp] theorem State.setAccerr_lastOp (s : State) : (s.setAccerr).lastOp = s.lastOp := rfl
@[simp] theorem State.setAccerr_errOverrun (s : State) : (s.setAccerr).errOverrun = s.errOverrun := rfl
@[simp] theorem State.setAccerr_errAccerr (s : State) : (s.setAccerr).errAccerr = true := rfl
@[simp] theorem State.setAccerr_intDone (s : State) : (s.setAccerr).intDone = s.intDone := rfl
@[simp] theorem State.setAccerr_doneEn (s : State) : (s.setAccerr).doneEn = s.doneEn := rfl
@[simp] theorem State.setAccerr_spanEn (s : State) : (s.setAccerr).spanEn = s.spanEn := rfl
@[simp] theorem State.setAccerr_width (s : State) : (s.setAccerr).width = s.width := rfl
@[simp] theorem State.setAccerr_height (s : State) : (s.setAccerr).height = s.height := rfl
@[simp] theorem State.setAccerr_regionNext (s : State) : (s.setAccerr).regionNext = s.regionNext := rfl
@[simp] theorem State.setAccerr_arg0 (s : State) : (s.setAccerr).arg0 = s.arg0 := rfl
@[simp] theorem State.setAccerr_arg1 (s : State) : (s.setAccerr).arg1 = s.arg1 := rfl
@[simp] theorem State.setAccerr_res0 (s : State) : (s.setAccerr).res0 = s.res0 := rfl
@[simp] theorem State.setAccerr_res1 (s : State) : (s.setAccerr).res1 = s.res1 := rfl
@[simp] theorem State.setAccerr_threshT (s : State) : (s.setAccerr).threshT = s.threshT := rfl
@[simp] theorem State.setAccerr_threshInv (s : State) : (s.setAccerr).threshInv = s.threshInv := rfl
@[simp] theorem State.setAccerr_fifo (s : State) : (s.setAccerr).fifo = s.fifo := rfl
@[simp] theorem State.setAccerr_regions (s : State) : (s.setAccerr).regions = s.regions := rfl
@[simp] theorem State.setAccerr_mem (s : State) : (s.setAccerr).mem = s.mem := rfl
@[simp] theorem State.setAccerr_imageDraws (s : State) : (s.setAccerr).imageDraws = s.imageDraws := rfl
@[simp] theorem State.setAccerr_bufferDraws (s : State) : (s.setAccerr).bufferDraws = s.bufferDraws := rfl
@[simp] theorem State.setAccerr_agenda (s : State) : (s.setAccerr).agenda = s.agenda := rfl
@[simp] theorem State.setAccerr_readData (s : State) : (s.setAccerr).readData = s.readData := rfl

/-! ## setOverrun -/

@[simp] theorem State.setOverrun_phase (s : State) : (s.setOverrun).phase = s.phase := rfl
@[simp] theorem State.setOverrun_cur (s : State) : (s.setOverrun).cur = s.cur := rfl
@[simp] theorem State.setOverrun_labelsValid (s : State) : (s.setOverrun).labelsValid = s.labelsValid := rfl
@[simp] theorem State.setOverrun_ffOvf (s : State) : (s.setOverrun).ffOvf = s.ffOvf := rfl
@[simp] theorem State.setOverrun_code (s : State) : (s.setOverrun).code = s.code := rfl
@[simp] theorem State.setOverrun_lastOp (s : State) : (s.setOverrun).lastOp = s.lastOp := rfl
@[simp] theorem State.setOverrun_errOverrun (s : State) : (s.setOverrun).errOverrun = true := rfl
@[simp] theorem State.setOverrun_errAccerr (s : State) : (s.setOverrun).errAccerr = s.errAccerr := rfl
@[simp] theorem State.setOverrun_intDone (s : State) : (s.setOverrun).intDone = s.intDone := rfl
@[simp] theorem State.setOverrun_doneEn (s : State) : (s.setOverrun).doneEn = s.doneEn := rfl
@[simp] theorem State.setOverrun_spanEn (s : State) : (s.setOverrun).spanEn = s.spanEn := rfl
@[simp] theorem State.setOverrun_width (s : State) : (s.setOverrun).width = s.width := rfl
@[simp] theorem State.setOverrun_height (s : State) : (s.setOverrun).height = s.height := rfl
@[simp] theorem State.setOverrun_regionNext (s : State) : (s.setOverrun).regionNext = s.regionNext := rfl
@[simp] theorem State.setOverrun_arg0 (s : State) : (s.setOverrun).arg0 = s.arg0 := rfl
@[simp] theorem State.setOverrun_arg1 (s : State) : (s.setOverrun).arg1 = s.arg1 := rfl
@[simp] theorem State.setOverrun_res0 (s : State) : (s.setOverrun).res0 = s.res0 := rfl
@[simp] theorem State.setOverrun_res1 (s : State) : (s.setOverrun).res1 = s.res1 := rfl
@[simp] theorem State.setOverrun_threshT (s : State) : (s.setOverrun).threshT = s.threshT := rfl
@[simp] theorem State.setOverrun_threshInv (s : State) : (s.setOverrun).threshInv = s.threshInv := rfl
@[simp] theorem State.setOverrun_fifo (s : State) : (s.setOverrun).fifo = s.fifo := rfl
@[simp] theorem State.setOverrun_regions (s : State) : (s.setOverrun).regions = s.regions := rfl
@[simp] theorem State.setOverrun_mem (s : State) : (s.setOverrun).mem = s.mem := rfl
@[simp] theorem State.setOverrun_imageDraws (s : State) : (s.setOverrun).imageDraws = s.imageDraws := rfl
@[simp] theorem State.setOverrun_bufferDraws (s : State) : (s.setOverrun).bufferDraws = s.bufferDraws := rfl
@[simp] theorem State.setOverrun_agenda (s : State) : (s.setOverrun).agenda = s.agenda := rfl
@[simp] theorem State.setOverrun_readData (s : State) : (s.setOverrun).readData = s.readData := rfl

/-! ## writeByte -/

@[simp] theorem State.writeByte_phase (s : State) (a : Nat) (b : Byte) : (s.writeByte a b).phase = s.phase := rfl
@[simp] theorem State.writeByte_cur (s : State) (a : Nat) (b : Byte) : (s.writeByte a b).cur = s.cur := rfl
@[simp] theorem State.writeByte_labelsValid (s : State) (a : Nat) (b : Byte) : (s.writeByte a b).labelsValid = s.labelsValid := rfl
@[simp] theorem State.writeByte_ffOvf (s : State) (a : Nat) (b : Byte) : (s.writeByte a b).ffOvf = s.ffOvf := rfl
@[simp] theorem State.writeByte_code (s : State) (a : Nat) (b : Byte) : (s.writeByte a b).code = s.code := rfl
@[simp] theorem State.writeByte_lastOp (s : State) (a : Nat) (b : Byte) : (s.writeByte a b).lastOp = s.lastOp := rfl
@[simp] theorem State.writeByte_errOverrun (s : State) (a : Nat) (b : Byte) : (s.writeByte a b).errOverrun = s.errOverrun := rfl
@[simp] theorem State.writeByte_errAccerr (s : State) (a : Nat) (b : Byte) : (s.writeByte a b).errAccerr = s.errAccerr := rfl
@[simp] theorem State.writeByte_intDone (s : State) (a : Nat) (b : Byte) : (s.writeByte a b).intDone = s.intDone := rfl
@[simp] theorem State.writeByte_doneEn (s : State) (a : Nat) (b : Byte) : (s.writeByte a b).doneEn = s.doneEn := rfl
@[simp] theorem State.writeByte_spanEn (s : State) (a : Nat) (b : Byte) : (s.writeByte a b).spanEn = s.spanEn := rfl
@[simp] theorem State.writeByte_width (s : State) (a : Nat) (b : Byte) : (s.writeByte a b).width = s.width := rfl
@[simp] theorem State.writeByte_height (s : State) (a : Nat) (b : Byte) : (s.writeByte a b).height = s.height := rfl
@[simp] theorem State.writeByte_regionNext (s : State) (a : Nat) (b : Byte) : (s.writeByte a b).regionNext = s.regionNext := rfl
@[simp] theorem State.writeByte_arg0 (s : State) (a : Nat) (b : Byte) : (s.writeByte a b).arg0 = s.arg0 := rfl
@[simp] theorem State.writeByte_arg1 (s : State) (a : Nat) (b : Byte) : (s.writeByte a b).arg1 = s.arg1 := rfl
@[simp] theorem State.writeByte_res0 (s : State) (a : Nat) (b : Byte) : (s.writeByte a b).res0 = s.res0 := rfl
@[simp] theorem State.writeByte_res1 (s : State) (a : Nat) (b : Byte) : (s.writeByte a b).res1 = s.res1 := rfl
@[simp] theorem State.writeByte_threshT (s : State) (a : Nat) (b : Byte) : (s.writeByte a b).threshT = s.threshT := rfl
@[simp] theorem State.writeByte_threshInv (s : State) (a : Nat) (b : Byte) : (s.writeByte a b).threshInv = s.threshInv := rfl
@[simp] theorem State.writeByte_fifo (s : State) (a : Nat) (b : Byte) : (s.writeByte a b).fifo = s.fifo := rfl
@[simp] theorem State.writeByte_regions (s : State) (a : Nat) (b : Byte) : (s.writeByte a b).regions = s.regions := rfl
@[simp] theorem State.writeByte_mem (s : State) (a : Nat) (b : Byte) : (s.writeByte a b).mem = Memory.write s.mem a b := rfl
@[simp] theorem State.writeByte_imageDraws (s : State) (a : Nat) (b : Byte) : (s.writeByte a b).imageDraws = s.imageDraws := rfl
@[simp] theorem State.writeByte_bufferDraws (s : State) (a : Nat) (b : Byte) : (s.writeByte a b).bufferDraws = s.bufferDraws := rfl
@[simp] theorem State.writeByte_agenda (s : State) (a : Nat) (b : Byte) : (s.writeByte a b).agenda = s.agenda := rfl
@[simp] theorem State.writeByte_readData (s : State) (a : Nat) (b : Byte) : (s.writeByte a b).readData = s.readData := rfl

/-! ## writeBytes -/

@[simp] theorem State.writeBytes_phase (s : State) (base n : Nat) (f : Nat → Byte) : (s.writeBytes base n f).phase = s.phase := rfl
@[simp] theorem State.writeBytes_cur (s : State) (base n : Nat) (f : Nat → Byte) : (s.writeBytes base n f).cur = s.cur := rfl
@[simp] theorem State.writeBytes_labelsValid (s : State) (base n : Nat) (f : Nat → Byte) : (s.writeBytes base n f).labelsValid = s.labelsValid := rfl
@[simp] theorem State.writeBytes_ffOvf (s : State) (base n : Nat) (f : Nat → Byte) : (s.writeBytes base n f).ffOvf = s.ffOvf := rfl
@[simp] theorem State.writeBytes_code (s : State) (base n : Nat) (f : Nat → Byte) : (s.writeBytes base n f).code = s.code := rfl
@[simp] theorem State.writeBytes_lastOp (s : State) (base n : Nat) (f : Nat → Byte) : (s.writeBytes base n f).lastOp = s.lastOp := rfl
@[simp] theorem State.writeBytes_errOverrun (s : State) (base n : Nat) (f : Nat → Byte) : (s.writeBytes base n f).errOverrun = s.errOverrun := rfl
@[simp] theorem State.writeBytes_errAccerr (s : State) (base n : Nat) (f : Nat → Byte) : (s.writeBytes base n f).errAccerr = s.errAccerr := rfl
@[simp] theorem State.writeBytes_intDone (s : State) (base n : Nat) (f : Nat → Byte) : (s.writeBytes base n f).intDone = s.intDone := rfl
@[simp] theorem State.writeBytes_doneEn (s : State) (base n : Nat) (f : Nat → Byte) : (s.writeBytes base n f).doneEn = s.doneEn := rfl
@[simp] theorem State.writeBytes_spanEn (s : State) (base n : Nat) (f : Nat → Byte) : (s.writeBytes base n f).spanEn = s.spanEn := rfl
@[simp] theorem State.writeBytes_width (s : State) (base n : Nat) (f : Nat → Byte) : (s.writeBytes base n f).width = s.width := rfl
@[simp] theorem State.writeBytes_height (s : State) (base n : Nat) (f : Nat → Byte) : (s.writeBytes base n f).height = s.height := rfl
@[simp] theorem State.writeBytes_regionNext (s : State) (base n : Nat) (f : Nat → Byte) : (s.writeBytes base n f).regionNext = s.regionNext := rfl
@[simp] theorem State.writeBytes_arg0 (s : State) (base n : Nat) (f : Nat → Byte) : (s.writeBytes base n f).arg0 = s.arg0 := rfl
@[simp] theorem State.writeBytes_arg1 (s : State) (base n : Nat) (f : Nat → Byte) : (s.writeBytes base n f).arg1 = s.arg1 := rfl
@[simp] theorem State.writeBytes_res0 (s : State) (base n : Nat) (f : Nat → Byte) : (s.writeBytes base n f).res0 = s.res0 := rfl
@[simp] theorem State.writeBytes_res1 (s : State) (base n : Nat) (f : Nat → Byte) : (s.writeBytes base n f).res1 = s.res1 := rfl
@[simp] theorem State.writeBytes_threshT (s : State) (base n : Nat) (f : Nat → Byte) : (s.writeBytes base n f).threshT = s.threshT := rfl
@[simp] theorem State.writeBytes_threshInv (s : State) (base n : Nat) (f : Nat → Byte) : (s.writeBytes base n f).threshInv = s.threshInv := rfl
@[simp] theorem State.writeBytes_fifo (s : State) (base n : Nat) (f : Nat → Byte) : (s.writeBytes base n f).fifo = s.fifo := rfl
@[simp] theorem State.writeBytes_regions (s : State) (base n : Nat) (f : Nat → Byte) : (s.writeBytes base n f).regions = s.regions := rfl
@[simp] theorem State.writeBytes_mem (s : State) (base n : Nat) (f : Nat → Byte) : (s.writeBytes base n f).mem = Memory.writeRange s.mem base n f := rfl
@[simp] theorem State.writeBytes_imageDraws (s : State) (base n : Nat) (f : Nat → Byte) : (s.writeBytes base n f).imageDraws = s.imageDraws := rfl
@[simp] theorem State.writeBytes_bufferDraws (s : State) (base n : Nat) (f : Nat → Byte) : (s.writeBytes base n f).bufferDraws = s.bufferDraws := rfl
@[simp] theorem State.writeBytes_agenda (s : State) (base n : Nat) (f : Nat → Byte) : (s.writeBytes base n f).agenda = s.agenda := rfl
@[simp] theorem State.writeBytes_readData (s : State) (base n : Nat) (f : Nat → Byte) : (s.writeBytes base n f).readData = s.readData := rfl

/-! ## setRegion -/

@[simp] theorem State.setRegion_phase (s : State) (n : BitVec 8) (r : Region) : (s.setRegion n r).phase = s.phase := rfl
@[simp] theorem State.setRegion_cur (s : State) (n : BitVec 8) (r : Region) : (s.setRegion n r).cur = s.cur := rfl
@[simp] theorem State.setRegion_labelsValid (s : State) (n : BitVec 8) (r : Region) : (s.setRegion n r).labelsValid = s.labelsValid := rfl
@[simp] theorem State.setRegion_ffOvf (s : State) (n : BitVec 8) (r : Region) : (s.setRegion n r).ffOvf = s.ffOvf := rfl
@[simp] theorem State.setRegion_code (s : State) (n : BitVec 8) (r : Region) : (s.setRegion n r).code = s.code := rfl
@[simp] theorem State.setRegion_lastOp (s : State) (n : BitVec 8) (r : Region) : (s.setRegion n r).lastOp = s.lastOp := rfl
@[simp] theorem State.setRegion_errOverrun (s : State) (n : BitVec 8) (r : Region) : (s.setRegion n r).errOverrun = s.errOverrun := rfl
@[simp] theorem State.setRegion_errAccerr (s : State) (n : BitVec 8) (r : Region) : (s.setRegion n r).errAccerr = s.errAccerr := rfl
@[simp] theorem State.setRegion_intDone (s : State) (n : BitVec 8) (r : Region) : (s.setRegion n r).intDone = s.intDone := rfl
@[simp] theorem State.setRegion_doneEn (s : State) (n : BitVec 8) (r : Region) : (s.setRegion n r).doneEn = s.doneEn := rfl
@[simp] theorem State.setRegion_spanEn (s : State) (n : BitVec 8) (r : Region) : (s.setRegion n r).spanEn = s.spanEn := rfl
@[simp] theorem State.setRegion_width (s : State) (n : BitVec 8) (r : Region) : (s.setRegion n r).width = s.width := rfl
@[simp] theorem State.setRegion_height (s : State) (n : BitVec 8) (r : Region) : (s.setRegion n r).height = s.height := rfl
@[simp] theorem State.setRegion_regionNext (s : State) (n : BitVec 8) (r : Region) : (s.setRegion n r).regionNext = s.regionNext := rfl
@[simp] theorem State.setRegion_arg0 (s : State) (n : BitVec 8) (r : Region) : (s.setRegion n r).arg0 = s.arg0 := rfl
@[simp] theorem State.setRegion_arg1 (s : State) (n : BitVec 8) (r : Region) : (s.setRegion n r).arg1 = s.arg1 := rfl
@[simp] theorem State.setRegion_res0 (s : State) (n : BitVec 8) (r : Region) : (s.setRegion n r).res0 = s.res0 := rfl
@[simp] theorem State.setRegion_res1 (s : State) (n : BitVec 8) (r : Region) : (s.setRegion n r).res1 = s.res1 := rfl
@[simp] theorem State.setRegion_threshT (s : State) (n : BitVec 8) (r : Region) : (s.setRegion n r).threshT = s.threshT := rfl
@[simp] theorem State.setRegion_threshInv (s : State) (n : BitVec 8) (r : Region) : (s.setRegion n r).threshInv = s.threshInv := rfl
@[simp] theorem State.setRegion_fifo (s : State) (n : BitVec 8) (r : Region) : (s.setRegion n r).fifo = s.fifo := rfl
@[simp] theorem State.setRegion_regions (s : State) (n : BitVec 8) (r : Region) : (s.setRegion n r).regions = s.regions.set n.toNat r n.isLt := rfl
@[simp] theorem State.setRegion_mem (s : State) (n : BitVec 8) (r : Region) : (s.setRegion n r).mem = s.mem := rfl
@[simp] theorem State.setRegion_imageDraws (s : State) (n : BitVec 8) (r : Region) : (s.setRegion n r).imageDraws = s.imageDraws := rfl
@[simp] theorem State.setRegion_bufferDraws (s : State) (n : BitVec 8) (r : Region) : (s.setRegion n r).bufferDraws = s.bufferDraws := rfl
@[simp] theorem State.setRegion_agenda (s : State) (n : BitVec 8) (r : Region) : (s.setRegion n r).agenda = s.agenda := rfl
@[simp] theorem State.setRegion_readData (s : State) (n : BitVec 8) (r : Region) : (s.setRegion n r).readData = s.readData := rfl

/-! ## resized -/

@[simp] theorem State.resized_phase (s : State) : (s.resized).phase = s.phase := rfl
@[simp] theorem State.resized_cur (s : State) : (s.resized).cur = s.cur := rfl
@[simp] theorem State.resized_labelsValid (s : State) : (s.resized).labelsValid = false := rfl
@[simp] theorem State.resized_ffOvf (s : State) : (s.resized).ffOvf = false := rfl
@[simp] theorem State.resized_code (s : State) : (s.resized).code = s.code := rfl
@[simp] theorem State.resized_lastOp (s : State) : (s.resized).lastOp = s.lastOp := rfl
@[simp] theorem State.resized_errOverrun (s : State) : (s.resized).errOverrun = s.errOverrun := rfl
@[simp] theorem State.resized_errAccerr (s : State) : (s.resized).errAccerr = s.errAccerr := rfl
@[simp] theorem State.resized_intDone (s : State) : (s.resized).intDone = s.intDone := rfl
@[simp] theorem State.resized_doneEn (s : State) : (s.resized).doneEn = s.doneEn := rfl
@[simp] theorem State.resized_spanEn (s : State) : (s.resized).spanEn = s.spanEn := rfl
@[simp] theorem State.resized_width (s : State) : (s.resized).width = s.width := rfl
@[simp] theorem State.resized_height (s : State) : (s.resized).height = s.height := rfl
@[simp] theorem State.resized_regionNext (s : State) : (s.resized).regionNext = 2 := rfl
@[simp] theorem State.resized_arg0 (s : State) : (s.resized).arg0 = s.arg0 := rfl
@[simp] theorem State.resized_arg1 (s : State) : (s.resized).arg1 = s.arg1 := rfl
@[simp] theorem State.resized_res0 (s : State) : (s.resized).res0 = s.res0 := rfl
@[simp] theorem State.resized_res1 (s : State) : (s.resized).res1 = s.res1 := rfl
@[simp] theorem State.resized_threshT (s : State) : (s.resized).threshT = s.threshT := rfl
@[simp] theorem State.resized_threshInv (s : State) : (s.resized).threshInv = s.threshInv := rfl
@[simp] theorem State.resized_fifo (s : State) : (s.resized).fifo = [] := rfl
@[simp] theorem State.resized_regions (s : State) : (s.resized).regions = s.regions := rfl
@[simp] theorem State.resized_mem (s : State) : (s.resized).mem = Memory.dropImage s.mem := rfl
@[simp] theorem State.resized_imageDraws (s : State) : (s.resized).imageDraws = s.imageDraws + 1 := rfl
@[simp] theorem State.resized_bufferDraws (s : State) : (s.resized).bufferDraws = s.bufferDraws := rfl
@[simp] theorem State.resized_agenda (s : State) : (s.resized).agenda = s.agenda := rfl
@[simp] theorem State.resized_readData (s : State) : (s.resized).readData = s.readData := rfl

end Sys2Proof.Machine
end

