-- ==== Sys2Proof/Laws/Memory.lean ====
section
/-! SUPPORT. What each memory operation does to every byte, and that each keeps the canonical form. -/

namespace Sys2Proof.Machine

/-! ## Lookup after a change -/

@[simp] theorem Memory.lookup_nil (a : Nat) : Memory.lookup [] a = none := rfl

theorem Memory.lookup_cons (k : Nat) (v : Byte) (m : Memory) (a : Nat) :
    Memory.lookup ((k, v) :: m) a = if k = a then some v else Memory.lookup m a := rfl

/-- In a canonical memory, nothing below its first offset is listed. -/
theorem Memory.lookup_eq_none_of_lt {m : Memory} {a : Nat} (h : ∀ c ∈ m, a < c.1) :
    Memory.lookup m a = none := by
  induction m with
  | nil => rfl
  | cons c m ih =>
    obtain ⟨k, v⟩ := c
    have hk : a < k := h (k, v) (by simp)
    rw [Memory.lookup_cons, if_neg (by omega)]
    exact ih fun c hc => h c (by simp [hc])

theorem Memory.lookup_write (m : Memory) (a b : Nat) (v : Byte) :
    Memory.lookup (Memory.write m a v) b = if a = b then some v else Memory.lookup m b := by
  induction m with
  | nil => rfl
  | cons c m ih =>
    obtain ⟨k, x⟩ := c
    unfold Memory.write
    split
    · rfl
    · split
      · subst_vars
        simp only [Memory.lookup_cons]
        split <;> rfl
      · simp only [Memory.lookup_cons, ih]
        split
        · subst_vars
          rw [if_neg (by assumption)]
        · rfl

theorem Memory.lookup_writeRange (m : Memory) (base n : Nat) (f : Nat → Byte) (a : Nat) :
    Memory.lookup (Memory.writeRange m base n f) a =
      if base ≤ a ∧ a < base + n then some (f (a - base)) else Memory.lookup m a := by
  induction n with
  | zero => rw [if_neg (by omega)]; rfl
  | succ n ih =>
    rw [Memory.writeRange, Memory.lookup_write, ih]
    by_cases h : base + n = a
    · subst h
      rw [if_pos rfl, if_pos (by omega)]
      simp
    · rw [if_neg h]
      by_cases h' : base ≤ a ∧ a < base + n
      · rw [if_pos h', if_pos (by omega)]
      · rw [if_neg h', if_neg (by omega)]

theorem Memory.lookup_dropImage (m : Memory) (a : Nat) :
    Memory.lookup (Memory.dropImage m) a = if a < grayBase then Memory.lookup m a else none := by
  induction m with
  | nil => simp [Memory.dropImage]
  | cons c m ih =>
    obtain ⟨k, v⟩ := c
    unfold Memory.dropImage at ih ⊢
    by_cases hk : k < grayBase
    · rw [List.filter_cons_of_pos (by simpa using hk), Memory.lookup_cons, ih, Memory.lookup_cons]
      by_cases hka : k = a
      · subst hka; simp [hk]
      · simp [hka]
    · rw [List.filter_cons_of_neg (by simpa using hk), ih, Memory.lookup_cons]
      by_cases ha : a < grayBase
      · rw [if_pos ha, if_pos ha, if_neg (by omega)]
      · rw [if_neg ha, if_neg ha]

/-! ## The canonical form -/

/-- Every offset a write lists was listed before or is the one written. -/
theorem Memory.mem_write {m : Memory} {a : Nat} {b : Byte} {c : Host.Cell}
    (h : c ∈ Memory.write m a b) : c = (a, b) ∨ c ∈ m := by
  induction m with
  | nil => simpa [Memory.write] using h
  | cons d m ih =>
    obtain ⟨k, v⟩ := d
    unfold Memory.write at h
    split at h
    · simpa using h
    · split at h
      · rcases List.mem_cons.mp h with h | h
        · exact .inl h
        · exact .inr (List.mem_cons_of_mem _ h)
      · rcases List.mem_cons.mp h with h | h
        · exact .inr (by simp [h])
        · rcases ih h with h | h
          · exact .inl h
          · exact .inr (List.mem_cons_of_mem _ h)

theorem Memory.wf_write {m : Memory} (h : Memory.wf m) (a : Nat) (b : Byte) :
    Memory.wf (Memory.write m a b) := by
  induction m with
  | nil => simp [Memory.write]
  | cons d m ih =>
    obtain ⟨k, v⟩ := d
    have hm := List.pairwise_cons.mp h
    unfold Memory.write
    split
    · rename_i hak
      refine List.pairwise_cons.mpr ⟨fun c hc => ?_, h⟩
      rcases List.mem_cons.mp hc with rfl | hc
      · exact hak
      · exact Nat.lt_trans hak (hm.1 c hc)
    · split
      · rename_i _ hak
        subst hak
        exact List.pairwise_cons.mpr ⟨hm.1, hm.2⟩
      · rename_i h1 h2
        refine List.pairwise_cons.mpr ⟨fun c hc => ?_, ih hm.2⟩
        rcases Memory.mem_write hc with rfl | hc
        · show k < a
          omega
        · exact hm.1 c hc

theorem Memory.wf_writeRange {m : Memory} (h : Memory.wf m) (base n : Nat) (f : Nat → Byte) :
    Memory.wf (Memory.writeRange m base n f) := by
  induction n with
  | zero => exact h
  | succ n ih => exact Memory.wf_write ih _ _

theorem Memory.wf_dropImage {m : Memory} (h : Memory.wf m) : Memory.wf (Memory.dropImage m) :=
  List.Pairwise.filter _ h

theorem Memory.mem_writeRange {m : Memory} {base n : Nat} {f : Nat → Byte} {c : Host.Cell}
    (h : c ∈ Memory.writeRange m base n f) : (base ≤ c.1 ∧ c.1 < base + n) ∨ c ∈ m := by
  induction n with
  | zero => exact .inr h
  | succ n ih =>
    rcases Memory.mem_write h with rfl | h
    · exact .inl ⟨by simp, by simp⟩
    · rcases ih h with h | h
      · exact .inl ⟨h.1, by omega⟩
      · exact .inr h

theorem Memory.mem_dropImage {m : Memory} {c : Host.Cell} (h : c ∈ Memory.dropImage m) :
    c ∈ m ∧ c.1 < grayBase := by
  simpa [Memory.dropImage] using h

/-- A byte is listed exactly when some cell has its offset. -/
theorem Memory.lookup_isSome {m : Memory} {a : Nat} :
    (Memory.lookup m a).isSome ↔ ∃ c ∈ m, c.1 = a := by
  induction m with
  | nil => simp
  | cons d m ih =>
    obtain ⟨k, v⟩ := d
    rw [Memory.lookup_cons]
    by_cases h : k = a <;> simp [h, ih]

/-! ## Reading a byte of the machine -/

theorem State.unlisted_congr {s t : State} (hi : t.imageDraws = s.imageDraws)
    (hb : t.bufferDraws = s.bufferDraws) (a : Nat) : t.unlisted a = s.unlisted a := by
  simp [State.unlisted, hi, hb]

/-- Two machines with the same memory and draws read alike. -/
theorem State.readByte_congr {s t : State} (hm : t.mem = s.mem) (hi : t.imageDraws = s.imageDraws)
    (hb : t.bufferDraws = s.bufferDraws) (a : Nat) : t.readByte a = s.readByte a := by
  simp [State.readByte, hm, State.unlisted_congr hi hb]

theorem State.readByte_writeByte (s : State) (a b : Nat) (v : Byte) :
    (s.writeByte a v).readByte b = if a = b then v else s.readByte b := by
  unfold State.readByte
  rw [State.writeByte_mem, Memory.lookup_write]
  split
  · rfl
  · rfl

theorem State.readByte_writeBytes (s : State) (base n : Nat) (f : Nat → Byte) (a : Nat) :
    (s.writeBytes base n f).readByte a =
      if base ≤ a ∧ a < base + n then f (a - base) else s.readByte a := by
  unfold State.readByte
  rw [State.writeBytes_mem, Memory.lookup_writeRange]
  split
  · rfl
  · rfl

@[simp] theorem State.readByte_complete (s : State) (op : BitVec 4) (code : StatusCode) (r0 r1 : Word)
    (a : Nat) : (s.complete op code r0 r1).readByte a = s.readByte a := rfl

@[simp] theorem State.readByte_completeError (s : State) (op : BitVec 4) (code : StatusCode) (a : Nat) :
    (s.completeError op code).readByte a = s.readByte a := rfl

@[simp] theorem State.readByte_newFrame (s : State) (valid : Bool) (a : Nat) :
    (s.newFrame valid).readByte a = s.readByte a := rfl

@[simp] theorem State.readByte_issue (s : State) (w : Word) (a : Nat) :
    (s.issue w).readByte a = s.readByte a := rfl

@[simp] theorem State.readByte_setRegion (s : State) (n : BitVec 8) (r : Region) (a : Nat) :
    (s.setRegion n r).readByte a = s.readByte a := rfl

@[simp] theorem State.readByte_setAccerr (s : State) (a : Nat) : s.setAccerr.readByte a = s.readByte a := rfl

@[simp] theorem State.readByte_setOverrun (s : State) (a : Nat) : s.setOverrun.readByte a = s.readByte a := rfl

/-- A resize leaves every byte below the image windows alone (R127). -/
theorem State.readByte_resized (s : State) {a : Nat} (h : a < grayBase) :
    s.resized.readByte a = s.readByte a := by
  simp [State.readByte, State.unlisted, Memory.lookup_dropImage, h]

/-! ## Changes of memory alone -/

/-- `t` is `s` but for its memory, which is still canonical if it was. -/
def MemOnly (s t : State) : Prop := t = { s with mem := t.mem } ∧ (Memory.wf s.mem → Memory.wf t.mem)

theorem MemOnly.refl (s : State) : MemOnly s s := ⟨rfl, id⟩

theorem MemOnly.trans {s t u : State} (h : MemOnly s t) (h' : MemOnly t u) : MemOnly s u := by
  refine ⟨?_, fun hm => h'.2 (h.2 hm)⟩
  have h1 := h.1
  have h2 := h'.1
  rw [h1] at h2
  exact h2

theorem memOnly_writeByte (s : State) (a : Nat) (b : Byte) : MemOnly s (s.writeByte a b) :=
  ⟨rfl, fun h => Memory.wf_write h a b⟩

theorem memOnly_writeBytes (s : State) (base n : Nat) (f : Nat → Byte) : MemOnly s (s.writeBytes base n f) :=
  ⟨rfl, fun h => Memory.wf_writeRange h base n f⟩

/-! ## The region table -/

theorem State.region_setRegion (s : State) (n m : BitVec 8) (r : Region) :
    (s.setRegion n r).region m = if n = m then r else s.region m := by
  unfold State.region
  simp only [State.setRegion_regions, Vector.getElem_set]
  by_cases h : n = m
  · simp [h]
  · rw [if_neg h, if_neg fun h' => h (BitVec.eq_of_toNat_eq h')]

end Sys2Proof.Machine
end

