-- ==== Sys2Proof/Laws/Bus.lean ====
section
/-! SUPPORT. What a host access can do, said once for reads and once for writes. -/

namespace Sys2Proof.Machine

@[simp] theorem gatedRead_idle (s : State) (v : Word) (h : s.busy = false) : s.gatedRead v = (v, s) := by
  simp [State.gatedRead, h]

@[simp] theorem gatedRead_busy (s : State) (v : Word) (h : s.busy = true) : s.gatedRead v = (0, s.setOverrun) := by
  simp [State.gatedRead, h]

@[simp] theorem gatedWrite_idle (s act : State) (h : s.busy = false) : s.gatedWrite act = act := by
  simp [State.gatedWrite, h]

@[simp] theorem gatedWrite_busy (s act : State) (h : s.busy = true) : s.gatedWrite act = s.setOverrun := by
  simp [State.gatedWrite, h]

theorem gatedRead_state (s : State) (v : Word) : (s.gatedRead v).2 = s ∨ (s.gatedRead v).2 = s.setOverrun := by
  unfold State.gatedRead
  split
  · exact .inr rfl
  · exact .inl rfl

/-- A read leaves the block alone, sets one error flag, or pops the span FIFO (R71, R72). -/
theorem busRead_state (w : Width) (off : Nat) (s : State) :
    (busRead w off s).2 = s ∨ (busRead w off s).2 = s.setOverrun ∨ (busRead w off s).2 = s.setAccerr ∨
      ∃ sp rest, s.fifo = sp :: rest ∧ (busRead w off s).2 = { s with fifo := rest } := by
  have gated : ∀ v, (s.gatedRead v).2 = s ∨ (s.gatedRead v).2 = s.setOverrun ∨ (s.gatedRead v).2 = s.setAccerr ∨
      ∃ sp rest, s.fifo = sp :: rest ∧ (s.gatedRead v).2 = { s with fifo := rest } := fun v =>
    (gatedRead_state s v).imp id .inl
  have bad : (s.badRead).2 = s ∨ (s.badRead).2 = s.setOverrun ∨ (s.badRead).2 = s.setAccerr ∨
      ∃ sp rest, s.fifo = sp :: rest ∧ (s.badRead).2 = { s with fifo := rest } := .inr (.inr (.inl rfl))
  unfold busRead
  split
  · exact bad
  · generalize targetOf off = target
    cases target with
    | register r =>
      dsimp only
      split
      · cases r
        case spanX =>
          unfold readReg State.popSpan
          cases hf : s.fifo with
          | nil => exact .inr (.inr (.inl rfl))
          | cons sp rest => exact .inr (.inr (.inr ⟨sp, rest, rfl, rfl⟩))
        case status => exact .inl rfl
        case err => exact .inl rfl
        case intStatus => exact .inl rfl
        case intEnable => exact .inl rfl
        case spanY => exact .inl rfl
        all_goals exact gated _
      · exact bad
    | buffer b => exact gated _
    | regionWord id k =>
      dsimp only
      split
      · exact gated _
      · exact bad
    | image b base =>
      dsimp only
      unfold readImage
      split
      · split
        · exact bad
        · exact .inr (.inr (.inl rfl))
      · exact gated _
    | reserved => exact bad

/-- Writing lanes changes no byte outside the access and nothing but memory (R61). -/
theorem writeLanes_spec (s : State) (base : Nat) (w : Width) (v : Word) (ok : Nat → Bool) :
    MemOnly s (s.writeLanes base w v ok) ∧
      ∀ a, (s.writeLanes base w v ok).readByte a =
        if base ≤ a ∧ a < base + w.lanes ∧ ok (a - base) = true then byteOfWord v (a - base) else s.readByte a := by
  unfold State.writeLanes
  generalize w.lanes = n
  induction n with
  | zero => exact ⟨MemOnly.refl s, fun a => (if_neg fun h => by omega).symm⟩
  | succ n ih =>
    obtain ⟨h1, h3⟩ := ih
    simp only [List.range_succ, List.foldl_append, List.foldl_cons, List.foldl_nil]
    generalize (List.range n).foldl
      (fun acc k => if ok k = true then acc.writeByte (base + k) (byteOfWord v k) else acc) s = r at h1 h3 ⊢
    split
    · rename_i hok
      refine ⟨h1.trans (memOnly_writeByte _ _ _), fun a => ?_⟩
      · rw [State.readByte_writeByte]
        by_cases ha : base + n = a
        · subst ha
          rw [if_pos rfl, if_pos ⟨by omega, by omega, by simpa using hok⟩]
          simp
        · rw [if_neg ha, h3 a]
          by_cases hc : base ≤ a ∧ a < base + n ∧ ok (a - base) = true
          · rw [if_pos hc, if_pos ⟨hc.1, by omega, hc.2.2⟩]
          · rw [if_neg hc, if_neg fun h => hc ⟨h.1, by omega, h.2.2⟩]
    · rename_i hok
      refine ⟨h1, fun a => ?_⟩
      rw [h3 a]
      by_cases hc : base ≤ a ∧ a < base + n ∧ ok (a - base) = true
      · rw [if_pos hc, if_pos ⟨hc.1, by omega, hc.2.2⟩]
      · rw [if_neg hc, if_neg fun h => hc ⟨h.1, ?_, h.2.2⟩]
        rcases Nat.lt_or_ge a (base + n) with hlt | hge
        · exact hlt
        · have : a - base = n := by omega
          rw [this] at h
          exact absurd h.2.2 hok

/-- Offsets of the byte windows only are targets that hold bytes (R60). -/
theorem targetOf_buffer {off : Nat} {b : Bool} (h : targetOf off = .buffer b) :
    blockBase ≤ off ∧ off < bufferEnd ∧ (b = true → off < syndBase) := by
  unfold targetOf at h
  simp only [blockBase, syndBase, bufferEnd, regionBase, grayBase, labelBase] at h ⊢
  split at h
  · split at h <;> simp at h
  · split at h
    · simp at h; subst h; exact ⟨by omega, by omega, fun _ => by omega⟩
    · split at h
      · simp at h; subst h; exact ⟨by omega, by omega, fun h => by simp at h⟩
      · split at h
        · simp at h
        · split at h
          · simp at h
          · split at h
            · simp at h
            · split at h <;> simp at h

theorem targetOf_image {off base : Nat} {b : Bool} (h : targetOf off = .image b base) :
    (b = true ∧ base = grayBase ∧ grayBase ≤ off ∧ off < labelBase) ∨
      (b = false ∧ base = labelBase ∧ labelBase ≤ off) := by
  unfold targetOf at h
  simp only [blockBase, syndBase, bufferEnd, regionBase, grayBase, labelBase] at h ⊢
  split at h
  · split at h <;> simp at h
  · split at h
    · simp at h
    · split at h
      · simp at h
      · split at h
        · simp at h
        · split at h
          · simp at h
          · split at h
            · simp at h
            · split at h
              · simp at h; exact .inl ⟨h.1, h.2.symm, by omega, by omega⟩
              · simp at h; exact .inr ⟨h.1, h.2.symm, by omega⟩

/-- The word of the register page that holds each register (R21). -/
def Reg.word : Reg → Nat
  | .cmd => 0
  | .status => 1
  | .err => 2
  | .intStatus => 3
  | .intEnable => 4
  | .width => 5
  | .height => 6
  | .regionNext => 7
  | .arg0 => 8
  | .arg1 => 9
  | .res0 => 10
  | .res1 => 11
  | .thresh => 12
  | .spanY => 13
  | .spanX => 14

theorem regAt_word {n : Nat} {r : Reg} (h : regAt n = some r) : n = r.word := by
  unfold regAt at h
  split at h <;> simp at h <;> subst h <;> rfl

theorem targetOf_register {off : Nat} {r : Reg} (h : targetOf off = .register r) :
    off < blockBase ∧ regAt (off / 4) = some r := by
  unfold targetOf at h
  split at h
  · rename_i hlt
    split at h
    · rename_i r' hr
      simp at h
      exact ⟨hlt, h ▸ hr⟩
    · simp at h
  · repeat' (split at h)
    all_goals simp at h

theorem targetOf_regionWord {off k : Nat} {id : BitVec 8} (h : targetOf off = .regionWord id k) :
    off = regionBase + 16 * id.toNat + (off - regionBase) % 16 ∧ k = (off - regionBase) % 16 / 4 := by
  unfold targetOf at h
  simp only [blockBase, syndBase, bufferEnd, regionBase, grayBase, labelBase] at h ⊢
  split at h
  · split at h <;> simp at h
  · split at h
    · simp at h
    · split at h
      · simp at h
      · split at h
        · simp at h
        · split at h
          · simp at h
            obtain ⟨rfl, rfl⟩ := h
            refine ⟨?_, rfl⟩
            simp only [BitVec.toNat_ofNat]
            omega
          · split at h
            · simp at h
            · split at h <;> simp at h

/-- When every lane an access has passes the test, writing the lanes that pass is writing all of them. -/
theorem writeLanes_all (s : State) (base : Nat) (w : Width) (v : Word) (ok : Nat → Bool)
    (h : ∀ k, k < w.lanes → ok k = true) : s.writeLanes base w v (fun _ => true) = s.writeLanes base w v ok := by
  unfold State.writeLanes
  have : ∀ l : List Nat, (∀ k ∈ l, k < w.lanes) → ∀ t : State,
      l.foldl (fun acc k => if true = true then acc.writeByte (base + k) (byteOfWord v k) else acc) t =
      l.foldl (fun acc k => if ok k = true then acc.writeByte (base + k) (byteOfWord v k) else acc) t := by
    intro l
    induction l with
    | nil => intro _ _; rfl
    | cons k l ih =>
      intro hl t
      simp only [List.foldl_cons, h k (hl k (by simp)), if_true]
      exact ih (fun k' h' => hl k' (by simp [h'])) _
  exact this (List.range w.lanes) (fun k hk => List.mem_range.mp hk) s

/-- A write of GRAY is malformed while busy, dropped, or writes the lanes in range, with ACCERR when some lane
is not (R65). -/
theorem writeGray_cases (w : Width) (off : Nat) (v : Word) (s : State) :
    writeGray w off v s = s.setAccerr ∨ writeGray w off v s = s.setOverrun ∨
    (s.busy = false ∧
      (writeGray w off v s = s.writeLanes off w v (fun k => decide (off - grayBase + k < s.imageSize)) ∨
       writeGray w off v s =
        (s.writeLanes off w v fun k => decide (off - grayBase + k < s.imageSize)).setAccerr)) := by
  unfold writeGray
  generalize off - grayBase = o
  cases hb : s.busy
  · by_cases hr : s.laneOutOfRange w o = true
    · simp [hr]
    · rw [if_neg hr, gatedWrite_idle _ _ hb]
      refine .inr (.inr ⟨rfl, .inl (writeLanes_all s off w v _ fun k hk => ?_)⟩)
      simp only [State.laneOutOfRange, decide_eq_true_eq] at hr ⊢
      omega
  · by_cases hr : s.laneOutOfRange w o = true
    · simp [hr]
    · rw [if_neg hr, gatedWrite_busy _ _ hb]
      exact .inr (.inl rfl)

/-- A write that is malformed or dropped sets one error flag and nothing else (R71, R253). Otherwise it issues
a command, writes a flag register, an operand, bytes or a capstone link, or resizes (R72), each at its own offset. -/
theorem busWrite_cases (p : Params) (w : Width) (off : Nat) (v : Word) (s : State) :
    busWrite p w off v s = s.setAccerr ∨ busWrite p w off v s = s.setOverrun ∨
    (w = .w32 ∧ off = 0x008 ∧ busWrite p w off v s = s.writeErr v) ∨
    (w = .w32 ∧ off = 0x00C ∧ busWrite p w off v s = s.writeIntStatus v) ∨
    (w = .w32 ∧ off = 0x010 ∧ busWrite p w off v s = s.writeIntEnable v) ∨
    (s.busy = false ∧
      ((w = .w32 ∧ off = 0x000 ∧ busWrite p w off v s = s.issue v) ∨
       (w = .w32 ∧ off = 0x014 ∧ (v.extractLsb' 0 16).toNat ≤ p.maxW ∧
         busWrite p w off v s = State.resized { s with width := v.extractLsb' 0 16 }) ∨
       (w = .w32 ∧ off = 0x018 ∧ (v.extractLsb' 0 16).toNat ≤ p.maxH ∧
         busWrite p w off v s = State.resized { s with height := v.extractLsb' 0 16 }) ∨
       (w = .w32 ∧ off = 0x020 ∧ busWrite p w off v s = { s with arg0 := v }) ∨
       (w = .w32 ∧ off = 0x024 ∧ busWrite p w off v s = { s with arg1 := v }) ∨
       (∃ id, w = .w32 ∧ off = regionBase + 16 * id.toNat + 8 ∧ s.allocated id = true ∧
         busWrite p w off v s = s.setRegion id { s.region id with capstone := v.extractLsb' 0 16 }) ∨
       (blockBase ≤ off ∧ off < syndBase ∧ busWrite p w off v s = s.writeLanes off w v fun _ => true) ∨
       (grayBase ≤ off ∧ off < labelBase ∧
         busWrite p w off v s = s.writeLanes off w v fun k => decide (off - grayBase + k < s.imageSize)) ∨
       (grayBase ≤ off ∧ off < labelBase ∧
         busWrite p w off v s =
           (s.writeLanes off w v fun k => decide (off - grayBase + k < s.imageSize)).setAccerr))) := by
  have gated : ∀ act, s.gatedWrite act = s.setOverrun ∨ (s.busy = false ∧ s.gatedWrite act = act) := by
    intro act
    cases hb : s.busy
    · exact .inr ⟨rfl, by simp [hb]⟩
    · exact .inl (by simp [hb])
  unfold busWrite
  split
  · exact .inl rfl
  · rename_i hal
    have hal' : w = .w32 → off % 4 = 0 := by rintro rfl; simpa [aligned, Width.lanes] using hal
    cases ht : targetOf off with
    | register r =>
      dsimp only
      split
      · rename_i hw
        have hoff := regAt_word (targetOf_register ht).2
        have h4 := hal' hw
        cases r <;> simp only [Reg.word] at hoff
        case cmd =>
          rcases gated (s.issue v) with h | ⟨hb, h⟩
          · exact .inr (.inl h)
          · exact .inr (.inr (.inr (.inr (.inr ⟨hb, .inl ⟨hw, by omega, h⟩⟩))))
        case err => exact .inr (.inr (.inl ⟨hw, by omega, rfl⟩))
        case intStatus => exact .inr (.inr (.inr (.inl ⟨hw, by omega, rfl⟩)))
        case intEnable => exact .inr (.inr (.inr (.inr (.inl ⟨hw, by omega, rfl⟩))))
        case width =>
          unfold writeReg writeWidth
          simp only
          split
          · exact .inl rfl
          · rename_i hle
            rcases gated (State.resized { s with width := v.extractLsb' 0 16 }) with h | ⟨hb, h⟩
            · exact .inr (.inl h)
            · exact .inr (.inr (.inr (.inr (.inr ⟨hb, .inr (.inl ⟨hw, by omega, by omega, h⟩)⟩))))
        case height =>
          unfold writeReg writeHeight
          simp only
          split
          · exact .inl rfl
          · rename_i hle
            rcases gated (State.resized { s with height := v.extractLsb' 0 16 }) with h | ⟨hb, h⟩
            · exact .inr (.inl h)
            · exact .inr (.inr (.inr (.inr (.inr ⟨hb, .inr (.inr (.inl ⟨hw, by omega, by omega, h⟩))⟩))))
        case arg0 =>
          rcases gated { s with arg0 := v } with h | ⟨hb, h⟩
          · exact .inr (.inl h)
          · exact .inr (.inr (.inr (.inr (.inr ⟨hb, .inr (.inr (.inr (.inl ⟨hw, by omega, h⟩)))⟩))))
        case arg1 =>
          rcases gated { s with arg1 := v } with h | ⟨hb, h⟩
          · exact .inr (.inl h)
          · exact .inr (.inr (.inr (.inr (.inr ⟨hb, .inr (.inr (.inr (.inr (.inl ⟨hw, by omega, h⟩))))⟩))))
        all_goals exact .inl rfl
      · exact .inl rfl
    | buffer b =>
      have hb := targetOf_buffer ht
      cases b
      · exact .inl rfl
      rcases gated (s.writeLanes off w v fun _ => true) with h | ⟨hbusy, h⟩
      · exact .inr (.inl h)
      · exact .inr (.inr (.inr (.inr (.inr ⟨hbusy, .inr (.inr (.inr (.inr (.inr (.inr (.inl
          ⟨hb.1, hb.2.2 rfl, h⟩))))))⟩))))
    | regionWord id k =>
      dsimp only
      split
      · rename_i hw
        unfold writeRegionWord
        split
        · rename_i hk
          have hoff := targetOf_regionWord ht
          have h4 := hal' hw
          simp only [regionBase] at hoff
          rcases gated (s.setRegion id { s.region id with capstone := v.extractLsb' 0 16 }) with h | ⟨hb, h⟩
          · exact .inr (.inl h)
          · exact .inr (.inr (.inr (.inr (.inr ⟨hb, .inr (.inr (.inr (.inr (.inr (.inl
              ⟨id, hw, by simp only [regionBase]; omega, hk.2, h⟩)))))⟩))))
        · exact .inl rfl
      · exact .inl rfl
    | image b base =>
      rcases targetOf_image ht with ⟨rfl, rfl, h1, h2⟩ | ⟨rfl, _⟩
      · rcases writeGray_cases w off v s with h | h | ⟨hb, h | h⟩
        · exact .inl h
        · exact .inr (.inl h)
        · exact .inr (.inr (.inr (.inr (.inr ⟨hb, .inr (.inr (.inr (.inr (.inr (.inr (.inr (.inl
            ⟨h1, h2, h⟩)))))))⟩))))
        · exact .inr (.inr (.inr (.inr (.inr ⟨hb, .inr (.inr (.inr (.inr (.inr (.inr (.inr (.inr
            ⟨h1, h2, h⟩)))))))⟩))))
      · exact .inl rfl
    | reserved => exact .inl rfl

end Sys2Proof.Machine
end

