-- ==== Sys2Proof/Laws/Ecc.lean ====
section
/-! SUPPORT. What the polynomial operations and the two ECC commands do. -/

namespace Sys2Proof.Machine

/-! ## Polynomials -/

theorem polyCoef_polyTab (f : Nat → Byte) (i : Nat) :
    polyCoef (polyTab f) i = if i < maxPoly then f i else 0 := by
  unfold polyCoef polyTab
  rw [List.getD_eq_getElem?_getD, List.getElem?_map]
  by_cases h : i < maxPoly
  · rw [List.getElem?_range h, if_pos h]; rfl
  · rw [List.getElem?_eq_none (by simpa using h), if_neg h]; rfl

@[simp] theorem xorSum_zero (f : Nat → Byte) : xorSum 0 f = 0 := rfl

theorem xorSum_succ (n : Nat) (f : Nat → Byte) : xorSum (n + 1) f = xorSum n f ^^^ f n := by
  simp [xorSum, List.range_succ]

theorem xorSum_congr {n : Nat} {f g : Nat → Byte} (h : ∀ i, i < n → f i = g i) : xorSum n f = xorSum n g := by
  induction n with
  | zero => rfl
  | succ n ih => rw [xorSum_succ, xorSum_succ, ih fun i hi => h i (by omega), h n (by omega)]

theorem xorSum_eq_zero {n : Nat} {f : Nat → Byte} (h : ∀ i, i < n → f i = 0) : xorSum n f = 0 := by
  induction n with
  | zero => rfl
  | succ n ih => rw [xorSum_succ, ih fun i hi => h i (by omega), h n (by omega)]; rfl

theorem polyCoef_polyOne (i : Nat) : polyCoef polyOne i = if i = 0 then 1 else 0 := by
  unfold polyOne
  rw [polyCoef_polyTab]
  by_cases h : i = 0
  · subst h; rfl
  · rw [if_neg h]; split <;> rfl

@[simp] theorem polyCoef_polyZero (i : Nat) : polyCoef polyZero i = 0 := by
  unfold polyZero
  rw [polyCoef_polyTab]
  split <;> rfl

/-- POLY_ADD, coefficient by coefficient (R198). -/
theorem polyCoef_polyAdd (F : FieldTables) (dst src : Poly) (c : Byte) (shift j : Nat) (hc : c ≠ 0) (hj : j < maxPoly) :
    polyCoef (polyAdd F dst src c shift) j =
      if shift ≤ j ∧ polyCoef src (j - shift) ≠ 0
      then polyCoef dst j ^^^ F.mul (polyCoef src (j - shift)) c else polyCoef dst j := by
  unfold polyAdd
  rw [if_neg hc, polyCoef_polyTab, if_pos hj]

theorem bm_zero (F : FieldTables) (S : Poly) : bm F S 0 = BmState.start := rfl

theorem bm_succ (F : FieldTables) (S : Poly) (n : Nat) : bm F S (n + 1) = bmStep F S (bm F S n) n := by
  simp [bm, List.range_succ]

theorem allZero_iff (S : Poly) (n : Nat) : allZero S n = true ↔ ∀ i, i < n → polyCoef S i = 0 := by
  simp [allZero]

theorem polyCoef_fmtSyndromes (u : BitVec 15) (i : Nat) :
    polyCoef (fmtSyndromes u) i =
      if i < fmtSynd then xorSum fmtBits fun j => if u.getLsbD j then exp16 (((i + 1) * j) % 15) else 0 else 0 := by
  unfold fmtSyndromes
  rw [polyCoef_polyTab]
  by_cases h : i < fmtSynd
  · rw [if_pos (Nat.lt_trans h (by decide))]
  · rw [if_neg h]; split <;> rfl

theorem polyCoef_rsSyndromes (F : FieldTables) (s : State) (bs npar i : Nat) (hn : npar ≤ maxPoly) :
    polyCoef (rsSyndromes F s bs npar) i =
      if i < npar then
        xorSum bs fun j =>
          if s.block (bs - 1 - j) = 0 then 0
          else F.exp ((F.log (s.block (bs - 1 - j)) + i * j) % F.p)
      else 0 := by
  unfold rsSyndromes
  rw [polyCoef_polyTab]
  by_cases h : i < npar
  · rw [if_pos (Nat.lt_of_lt_of_le h hn)]
  · rw [if_neg h]; split <;> rfl

/-! ## The ECC arrays -/

/-- What the three arrays hold after they are written, and that no other byte changes. -/
theorem readByte_writeEccArrays (s : State) (synd sigma omega : Poly) (a : Nat) :
    (writeEccArrays s synd sigma omega).readByte a =
      if syndBase ≤ a ∧ a < sigmaBase then polyCoef synd (a - syndBase)
      else if sigmaBase ≤ a ∧ a < omegaBase then polyCoef sigma (a - sigmaBase)
      else if omegaBase ≤ a ∧ a < bufferEnd then polyCoef omega (a - omegaBase)
      else s.readByte a := by
  unfold writeEccArrays
  simp only [State.readByte_writeBytes, syndBase, sigmaBase, omegaBase, bufferEnd, maxPoly]
  by_cases h1 : 0x001100 ≤ a ∧ a < 0x001140
  · rw [if_neg (by omega), if_neg (by omega), if_pos (by omega), if_pos h1]
  · by_cases h2 : 0x001140 ≤ a ∧ a < 0x001180
    · rw [if_neg (by omega), if_pos (by omega), if_neg h1, if_pos h2]
    · by_cases h3 : 0x001180 ≤ a ∧ a < 0x0011C0
      · rw [if_pos (by omega), if_neg h1, if_neg h2, if_pos h3]
      · rw [if_neg (by omega), if_neg (by omega), if_neg (by omega), if_neg h1, if_neg h2, if_neg h3]

theorem memOnly_writeEccArrays (s : State) (synd sigma omega : Poly) :
    MemOnly s (writeEccArrays s synd sigma omega) :=
  ((memOnly_writeBytes s _ _ _).trans (memOnly_writeBytes _ _ _ _)).trans (memOnly_writeBytes _ _ _ _)

/-! ## CORRECT -/

/-- One turn of CORRECT's loop (R228). -/
def correctTurn (F : FieldTables) (sigma deriv omega : Poly) (bs : Nat) (acc : State × Nat) (i : Nat) : State × Nat :=
  match rsMagnitude F sigma deriv omega i with
  | none => acc
  | some e => (acc.1.writeByte (blockBase + (bs - 1 - i)) (acc.1.block (bs - 1 - i) ^^^ e), acc.2 + 1)

theorem rsCorrectBlock_eq (F : FieldTables) (sigma deriv omega : Poly) (bs : Nat) (s : State) :
    rsCorrectBlock F sigma deriv omega bs s =
      (List.range bs).foldl (correctTurn F sigma deriv omega bs) (s, 0) := rfl

/-- What any number of turns of CORRECT leaves: the memory alone changes, and only in BLOCK[0..bs−1]; each
byte whose index has been met has its magnitude XORed in, the others stand (R228, R230). -/
theorem correctTurns_spec (F : FieldTables) (sigma deriv omega : Poly) (bs : Nat) (s : State) (n : Nat) (hn : n ≤ bs) :
    let r := (List.range n).foldl (correctTurn F sigma deriv omega bs) (s, 0)
    MemOnly s r.1 ∧
      (∀ a, a < blockBase ∨ blockBase + bs ≤ a → r.1.readByte a = s.readByte a) ∧
      (∀ i, i < bs → r.1.block (bs - 1 - i) =
        if i < n then s.block (bs - 1 - i) ^^^ (rsMagnitude F sigma deriv omega i).getD 0
        else s.block (bs - 1 - i)) ∧
      r.2 = ((List.range n).filter fun i => (rsMagnitude F sigma deriv omega i).isSome).length := by
  induction n with
  | zero => exact ⟨MemOnly.refl s, fun _ _ => rfl, fun i _ => by simp, rfl⟩
  | succ n ih =>
    obtain ⟨h1, h3, h4, h5⟩ := ih (by omega)
    simp only [List.range_succ, List.foldl_append, List.foldl_cons, List.foldl_nil]
    generalize (List.range n).foldl (correctTurn F sigma deriv omega bs) (s, 0) = r at h1 h3 h4 h5 ⊢
    unfold correctTurn
    cases hm : rsMagnitude F sigma deriv omega n with
    | none =>
      refine ⟨h1, h3, fun i hi => ?_, ?_⟩
      · rw [h4 i hi]
        by_cases hin : i < n
        · rw [if_pos hin, if_pos (by omega)]
        · rw [if_neg hin]
          by_cases hie : i = n
          · subst hie; rw [if_pos (by omega), hm]; simp
          · rw [if_neg (by omega)]
      · simp [h5, hm]
    | some e =>
      refine ⟨h1.trans (memOnly_writeByte _ _ _), fun a ha => ?_, fun i hi => ?_, ?_⟩
      · show (r.1.writeByte _ _).readByte a = _
        rw [State.readByte_writeByte, if_neg (by omega)]
        exact h3 a ha
      · show (r.1.writeByte _ _).readByte _ = _
        rw [State.readByte_writeByte]
        by_cases hie : i = n
        · subst hie
          rw [if_pos rfl, if_pos (by omega), h4 i hi, if_neg (by omega), hm]
          rfl
        · rw [if_neg (by omega)]
          have h4i := h4 i hi
          unfold State.block at h4i
          rw [h4i]
          by_cases hin : i < n
          · rw [if_pos hin, if_pos (by omega)]; rfl
          · rw [if_neg hin, if_neg (by omega)]; rfl
      · simp [h5, hm]

/-- What CORRECT does (R228, R230). -/
theorem rsCorrectBlock_spec (F : FieldTables) (sigma deriv omega : Poly) (bs : Nat) (s : State) :
    let r := rsCorrectBlock F sigma deriv omega bs s
    MemOnly s r.1 ∧
      (∀ a, a < blockBase ∨ blockBase + bs ≤ a → r.1.readByte a = s.readByte a) ∧
      (∀ i, i < bs → r.1.block (bs - 1 - i) =
        s.block (bs - 1 - i) ^^^ (rsMagnitude F sigma deriv omega i).getD 0) ∧
      r.2 = ((List.range bs).filter fun i => (rsMagnitude F sigma deriv omega i).isSome).length := by
  have h := correctTurns_spec F sigma deriv omega bs s bs (Nat.le_refl _)
  rw [rsCorrectBlock_eq]
  refine ⟨h.1, h.2.1, fun i hi => ?_, h.2.2.2⟩
  rw [h.2.2.1 i hi, if_pos hi]

/-! ## The commands, case by case -/

/-- A format word without errors is returned unchanged (R220). -/
theorem fmtCommand_clean {op : BitVec 4} {s : State} (h : allZero (fmtSyndromes s.cur.fmtWord) fmtSynd = true) :
    fmtCommand op s =
      (writeEccArrays s (fmtSyndromes s.cur.fmtWord) polyOne polyZero).complete op .ok
        (s.cur.fmtWord.setWidth 32) 0 := by
  unfold fmtCommand
  simp only [h, if_true]

/-- Otherwise BM runs, the roots are flipped, and the new syndromes decide (R220, R223). -/
theorem fmtCommand_errors {op : BitVec 4} {s : State} (h : allZero (fmtSyndromes s.cur.fmtWord) fmtSynd = false) :
    fmtCommand op s =
      (if allZero (fmtSyndromes (fmtFlip (bm gf16 (fmtSyndromes s.cur.fmtWord) fmtSynd).c s.cur.fmtWord).1) fmtSynd then
        (writeEccArrays s (fmtSyndromes s.cur.fmtWord) (bm gf16 (fmtSyndromes s.cur.fmtWord) fmtSynd).c polyZero).complete
          op .ok ((fmtFlip (bm gf16 (fmtSyndromes s.cur.fmtWord) fmtSynd).c s.cur.fmtWord).1.setWidth 32)
          (eccResult (bm gf16 (fmtSyndromes s.cur.fmtWord) fmtSynd).len
            (fmtFlip (bm gf16 (fmtSyndromes s.cur.fmtWord) fmtSynd).c s.cur.fmtWord).2)
      else
        (writeEccArrays s (fmtSyndromes s.cur.fmtWord) (bm gf16 (fmtSyndromes s.cur.fmtWord) fmtSynd).c polyZero).complete
          op .formatEcc (s.cur.fmtWord.setWidth 32)
          (eccResult (bm gf16 (fmtSyndromes s.cur.fmtWord) fmtSynd).len
            (fmtFlip (bm gf16 (fmtSyndromes s.cur.fmtWord) fmtSynd).c s.cur.fmtWord).2)) := by
  unfold fmtCommand
  simp only [h]
  rfl

/-- An illegal operand changes the status only (R224, R122). -/
theorem rsCommand_badParam {p : Params} {op : BitVec 4} {s : State}
    (h : rsBadParam s.cur.blockSize s.cur.dataWords = true) :
    rsCommand p op s = s.completeError op .badParam := by
  unfold rsCommand
  simp only [h, if_true]

/-- A block without errors is left unchanged (R224, R230). -/
theorem rsCommand_clean {p : Params} {op : BitVec 4} {s : State}
    (h : rsBadParam s.cur.blockSize s.cur.dataWords = false)
    (hz : allZero (rsSyndromes (gf256 p.log0) s s.cur.blockSize (s.cur.blockSize - s.cur.dataWords))
      (s.cur.blockSize - s.cur.dataWords) = true) :
    rsCommand p op s =
      (writeEccArrays s (rsSyndromes (gf256 p.log0) s s.cur.blockSize (s.cur.blockSize - s.cur.dataWords))
        polyOne polyZero).complete op .ok 0 0 := by
  unfold rsCommand
  simp only [h, hz, if_true]
  rfl

/-- A block with errors: the arrays and the corrected block are written, and the recomputed syndromes decide the
status (R224, R229, R230). -/
theorem rsCommand_errors {p : Params} {op : BitVec 4} {s : State}
    (h : rsBadParam s.cur.blockSize s.cur.dataWords = false)
    {npar : Nat} (hn : npar = s.cur.blockSize - s.cur.dataWords)
    {S : Poly} (hS : S = rsSyndromes (gf256 p.log0) s s.cur.blockSize npar)
    (hz : allZero S npar = false)
    {r : BmState} (hr : r = bm (gf256 p.log0) S npar)
    {q : State × Nat} (hq : q = rsCorrectBlock (gf256 p.log0) r.c (polyDeriv r.c)
      (evaluator (gf256 p.log0) S r.c npar) s.cur.blockSize
      (writeEccArrays s S r.c (evaluator (gf256 p.log0) S r.c npar))) :
    rsCommand p op s = q.1.complete op
      (if allZero (rsSyndromes (gf256 p.log0) q.1 s.cur.blockSize npar) npar then .ok else .dataEcc)
      0 (eccResult r.len q.2) := by
  subst hq hr hS hn
  unfold rsCommand
  simp only [h, hz]
  rfl

end Sys2Proof.Machine
end

