-- ==== Sys2Proof/Laws/PerInstr.lean ====
section
/-! SUPPORT. Facts about every command as a term, one lemma per constructor. -/

/-- The CMD word of a well-formed command reads back as its OP value, and sets no bit its row ignores
(R90, R92, R93, R100). -/
def Sys2Proof.Laws.CanonicalWord.Statement (i : Sys2Proof.Instr) : Prop :=
  i.wellFormed = true →
    Sys2Proof.opField (Sys2Proof.encode i) = i.opcode ∧
    Sys2Proof.encode i &&& Sys2Proof.readMask i = Sys2Proof.encode i

namespace Sys2Proof.Laws.CanonicalWord

theorem nop : Statement .nop := fun _ => by decide
theorem beginFrame : Statement .beginFrame := fun _ => by decide
theorem threshold : Statement .threshold := fun _ => by decide
theorem thresholdInv : Statement .thresholdInv := fun _ => by decide
theorem regionCode : Statement .regionCode := fun _ => by decide
theorem fill : Statement .fill := fun _ => by decide
theorem fillSpans : Statement .fillSpans := fun _ => by decide
theorem fmtCorrect : Statement .fmtCorrect := fun _ => by decide
theorem rsCorrect : Statement .rsCorrect := fun _ => by decide
theorem reserved7 : Statement .reserved7 := fun _ => by decide
theorem reserved8F (op : BitVec 4) : Statement (.reserved8F op) := fun _ => by
  have h : ∀ op : BitVec 4, Sys2Proof.opField (Sys2Proof.encode (.reserved8F op)) = op ∧
      Sys2Proof.encode (.reserved8F op) &&& Sys2Proof.readMask (.reserved8F op) =
        Sys2Proof.encode (.reserved8F op) := by decide
  exact h op

end Sys2Proof.Laws.CanonicalWord
end

