-- ==== Sys2Proof/Laws/Regions.lean ====
section
/-! SUPPORT. What the operations of the flood fill do: the span extension, the row scan, one visited span,
the search for the next child, and the frame of a whole fill. -/

namespace Sys2Proof.Machine

/-! ## Span extension and row scan -/

/-- The span's left end: every cell between it and the start holds, and the cell before it does not (R160). -/
theorem extendLeft_spec (isFrom : Nat → Bool) (x : Nat) :
    extendLeft isFrom x ≤ x ∧ (∀ i, extendLeft isFrom x ≤ i → i < x → isFrom i = true) ∧
      (0 < extendLeft isFrom x → isFrom (extendLeft isFrom x - 1) = false) := by
  induction x with
  | zero => simp [extendLeft]
  | succ l ih =>
    rw [extendLeft]
    split
    · rename_i hl
      refine ⟨by omega, fun i h1 h2 => ?_, ih.2.2⟩
      by_cases hi : i = l
      · rw [hi]; exact hl
      · exact ih.2.1 i h1 (by omega)
    · rename_i hl
      refine ⟨Nat.le_refl _, fun i h1 h2 => absurd h2 (by omega), fun _ => ?_⟩
      simpa using hl

/-- The span's right end (R160). -/
theorem extendRight_spec (isFrom : Nat → Bool) (room r : Nat) :
    r ≤ extendRight isFrom room r ∧ extendRight isFrom room r ≤ r + room ∧
      (∀ i, r < i → i ≤ extendRight isFrom room r → isFrom i = true) ∧
      (extendRight isFrom room r < r + room → isFrom (extendRight isFrom room r + 1) = false) := by
  induction room generalizing r with
  | zero => exact ⟨Nat.le_refl _, Nat.le_refl _, fun i h1 h2 => absurd h2 (by simpa [extendRight] using h1),
      fun h => absurd h (by simp [extendRight])⟩
  | succ room ih =>
    rw [extendRight]
    split
    · rename_i hr
      obtain ⟨h1, h2, h3, h4⟩ := ih (r + 1)
      refine ⟨by omega, by omega, fun i hi1 hi2 => ?_, fun h => h4 (by omega)⟩
      by_cases hi : i = r + 1
      · rw [hi]; exact hr
      · exact h3 i (by omega) hi2
    · rename_i hr
      exact ⟨Nat.le_refl _, by omega, fun i h1 h2 => absurd h2 (by omega), fun _ => by simpa using hr⟩

/-- Where a cursor stops: it passes only cells that do not hold FROM (R161). -/
theorem scanRow_spec (isFrom : Nat → Bool) (room x : Nat) :
    x ≤ (scanRow isFrom room x).1 ∧ (scanRow isFrom room x).1 ≤ x + room ∧
      (∀ i, x ≤ i → i < (scanRow isFrom room x).1 → isFrom i = false) ∧
      ((scanRow isFrom room x).2 = true →
        (scanRow isFrom room x).1 < x + room ∧ isFrom (scanRow isFrom room x).1 = true) ∧
      ((scanRow isFrom room x).2 = false → (scanRow isFrom room x).1 = x + room) := by
  induction room generalizing x with
  | zero => simp [scanRow]; omega
  | succ room ih =>
    rw [scanRow]
    split
    · rename_i hx
      simp only [Nat.le_refl, true_and]
      exact ⟨by omega, fun i h1 h2 => absurd h2 (by omega), fun _ => ⟨by omega, hx⟩, fun h => by simp at h⟩
    · rename_i hx
      obtain ⟨h1, h2, h3, h4, h5⟩ := ih (x + 1)
      refine ⟨by omega, by omega, fun i hi1 hi2 => ?_, fun h => ⟨by have := (h4 h).1; omega, (h4 h).2⟩,
        fun h => by have := h5 h; omega⟩
      by_cases hi : i = x
      · rw [hi]; simpa using hx
      · exact h3 i (by omega) hi2

/-! ## What a fill may change -/

/-- `t` is `s` with other bytes in the LABEL window and nothing else changed. -/
def LabelsOnly (s t : State) : Prop := MemOnly s t ∧ ∀ a, a < labelBase → t.readByte a = s.readByte a

theorem LabelsOnly.refl (s : State) : LabelsOnly s s := ⟨MemOnly.refl s, fun _ _ => rfl⟩

theorem LabelsOnly.trans {s t u : State} (h : LabelsOnly s t) (h' : LabelsOnly t u) : LabelsOnly s u :=
  ⟨h.1.trans h'.1, fun a ha => (h'.2 a ha).trans (h.2 a ha)⟩

theorem labelsOnly_relabelSpan (c : FillCtx) (s : State) (y l r : Nat) :
    LabelsOnly s (relabelSpan c s y l r) := by
  refine ⟨memOnly_writeBytes s _ _ _, fun a ha => ?_⟩
  unfold relabelSpan
  rw [State.readByte_writeBytes, if_neg (by omega)]

/-- Which cells a span relabels, and what every other cell keeps (R160). -/
theorem label_relabelSpan (c : FillCtx) (s : State) (y l r o : Nat) :
    (relabelSpan c s y l r).label o =
      if y * c.w + l ≤ o ∧ o < y * c.w + l + (r + 1 - l) then c.target else s.label o := by
  unfold State.label relabelSpan
  rw [State.readByte_writeBytes]
  by_cases h : y * c.w + l ≤ o ∧ o < y * c.w + l + (r + 1 - l)
  · rw [if_pos h, if_pos (by omega)]
  · rw [if_neg h, if_neg (by omega)]

@[simp] theorem visitLine_s (c : FillCtx) (f : Fill) (x y : Nat) :
    (visitLine c f x y).1.s = relabelSpan c f.s y (lineSpan c f.s x y).1 (lineSpan c f.s x y).2 := rfl

@[simp] theorem visitLine_spans (c : FillCtx) (f : Fill) (x y : Nat) :
    (visitLine c f x y).1.spans = f.spans + 1 := rfl

@[simp] theorem visitLine_pixels (c : FillCtx) (f : Fill) (x y : Nat) :
    (visitLine c f x y).1.pixels = f.pixels + ((lineSpan c f.s x y).2 - (lineSpan c f.s x y).1 + 1) := rfl

theorem labelsOnly_visitLine (c : FillCtx) (f : Fill) (x y : Nat) :
    LabelsOnly f.s (visitLine c f x y).1.s := labelsOnly_relabelSpan c f.s y _ _

/-- A whole fill changes LABEL only, however it ends (R163). -/
theorem labelsOnly_floodLoop (c : FillCtx) (turns : Nat) (f : Fill) :
    LabelsOnly f.s (floodLoop c turns f).1.s := by
  induction turns generalizing f with
  | zero => exact LabelsOnly.refl _
  | succ turns ih =>
    rw [floodLoop]
    split
    · exact LabelsOnly.refl _
    · exact LabelsOnly.refl _
    · exact (labelsOnly_visitLine c _ _ _).trans (ih _)

theorem labelsOnly_flood (c : FillCtx) (x y : Nat) (s : State) : LabelsOnly s (flood c x y s).1.s :=
  (labelsOnly_visitLine c (Fill.start s) x y).trans (labelsOnly_floodLoop c _ _)

/-! ## The search for the next child -/

/-- The child a frame finds holds FROM, lies on the row above or below, and inside the columns the frame has
still to examine (R161). -/
theorem nextChild_some {c : FillCtx} {s : State} {f f' : Frame} {x y : Nat}
    (h : nextChild c s f = (f', some (x, y))) :
    c.isFrom s y x = true ∧ f'.y = f.y ∧ f'.right = f.right ∧
      ((0 < f.y.toNat ∧ y = f.y.toNat - 1 ∧ f.up.toNat ≤ x ∧ x < f.up.toNat + (f.right.toNat + 1 - f.up.toNat)) ∨
       (f.y.toNat + 1 < c.h ∧ y = f.y.toNat + 1 ∧ f.down.toNat ≤ x ∧
         x < f.down.toNat + (f.right.toNat + 1 - f.down.toNat))) := by
  unfold nextChild at h
  by_cases hy : 0 < f.y.toNat
  · simp only [hy, if_true] at h
    have hs := scanRow_spec (c.isFrom s (f.y.toNat - 1)) (f.right.toNat + 1 - f.up.toNat) f.up.toNat
    split at h
    · rename_i hf
      simp only [Prod.mk.injEq, Option.some.injEq] at h
      obtain ⟨rfl, rfl, rfl⟩ := h
      exact ⟨(hs.2.2.2.1 hf).2, rfl, rfl, .inl ⟨hy, rfl, hs.1, (hs.2.2.2.1 hf).1⟩⟩
    · by_cases hh : f.y.toNat + 1 < c.h
      · simp only [hh, if_true] at h
        have hd := scanRow_spec (c.isFrom s (f.y.toNat + 1)) (f.right.toNat + 1 - f.down.toNat) f.down.toNat
        split at h
        · rename_i hf
          simp only [Prod.mk.injEq, Option.some.injEq] at h
          obtain ⟨rfl, rfl, rfl⟩ := h
          exact ⟨(hd.2.2.2.1 hf).2, rfl, rfl, .inr ⟨hh, rfl, hd.1, (hd.2.2.2.1 hf).1⟩⟩
        · simp at h
      · simp only [hh, if_false] at h
        simp at h
  · simp only [hy, if_false] at h
    by_cases hh : f.y.toNat + 1 < c.h
    · simp only [hh, if_true] at h
      have hd := scanRow_spec (c.isFrom s (f.y.toNat + 1)) (f.right.toNat + 1 - f.down.toNat) f.down.toNat
      simp only [Bool.false_eq_true, if_false] at h
      split at h
      · rename_i hf
        simp only [Prod.mk.injEq, Option.some.injEq] at h
        obtain ⟨rfl, rfl, rfl⟩ := h
        exact ⟨(hd.2.2.2.1 hf).2, rfl, rfl, .inr ⟨hh, rfl, hd.1, (hd.2.2.2.1 hf).1⟩⟩
      · simp at h
    · simp only [hh, if_false] at h
      simp at h

/-- A child is found on the top frame or, after pops, on a frame below it; the stack then had room (R161, R162). -/
theorem advance_child {c : FillCtx} {s : State} {stack stack' : List Frame} {x y : Nat}
    (h : advance c s stack = .child stack' x y) :
    ∃ f f' below, (f :: below) <:+ stack ∧ nextChild c s f = (f', some (x, y)) ∧
      stack' = f' :: below ∧ stack'.length < c.depth := by
  induction stack with
  | nil => simp [advance] at h
  | cons f below ih =>
    rw [advance] at h
    split at h
    · rename_i f' x' y' hn
      split at h
      · simp at h
      · rename_i hd
        simp only [Advance.child.injEq] at h
        obtain ⟨rfl, rfl, rfl⟩ := h
        exact ⟨f, f', below, List.suffix_refl _, hn, rfl, by omega⟩
    · obtain ⟨g, g', b, hsuf, hn, hst, hlen⟩ := ih h
      exact ⟨g, g', b, hsuf.trans (List.suffix_cons _ _), hn, hst, hlen⟩

/-- A fill overflows on the frame that finds a child while the stack has no room for it (R161, R162). -/
theorem advance_overflow {c : FillCtx} {s : State} {stack stack' : List Frame}
    (h : advance c s stack = .overflow stack') :
    ∃ f f' below x y, (f :: below) <:+ stack ∧ nextChild c s f = (f', some (x, y)) ∧
      stack' = f' :: below ∧ c.depth ≤ stack'.length := by
  induction stack with
  | nil => simp [advance] at h
  | cons f below ih =>
    rw [advance] at h
    split at h
    · rename_i f' x' y' hn
      split at h
      · rename_i hd
        simp only [Advance.overflow.injEq] at h
        subst h
        exact ⟨f, f', below, x', y', List.suffix_refl _, hn, rfl, hd⟩
      · simp at h
    · obtain ⟨g, g', b, x', y', hsuf, hn, hst, hlen⟩ := ih h
      exact ⟨g, g', b, x', y', hsuf.trans (List.suffix_cons _ _), hn, hst, hlen⟩

/-- A fill is over only when no frame has an unfilled FROM neighbour (R161). -/
theorem advance_finished {c : FillCtx} {s : State} {stack : List Frame} (h : advance c s stack = .finished) :
    ∀ f ∈ stack, (nextChild c s f).2 = none := by
  induction stack with
  | nil => simp
  | cons f below ih =>
    rw [advance] at h
    split at h
    · split at h <;> simp at h
    · rename_i f' hn
      intro g hg
      rcases List.mem_cons.mp hg with rfl | hg
      · rw [hn]
      · exact ih h g hg

/-! ## FILL.SPANS -/

/-- PUSH_SPAN pushes or holds; nothing else changes (R170). -/
theorem pushSpan_cases (p : Params) (before : Bool) (f : Fill) (sp : Span) :
    (f.s.fifo.length < p.spanFifoDepth ∧
      pushSpan p before f sp = { f.s with fifo := f.s.fifo ++ [sp], phase := .filling ⟨f.stack, f.spans, f.pixels, none, before⟩ }) ∨
    (p.spanFifoDepth ≤ f.s.fifo.length ∧
      pushSpan p before f sp = { f.s with phase := .filling ⟨f.stack, f.spans, f.pixels, some sp, before⟩ }) := by
  unfold pushSpan
  split
  · rename_i h; exact .inl ⟨h, rfl⟩
  · rename_i h; exact .inr ⟨by omega, rfl⟩

/-- PUSH_SPAN changes nothing that STATUS shows of FF_OVF (R74). -/
@[simp] theorem pushSpan_ffOvfShown (p : Params) (before : Bool) (f : Fill) (sp : Span) :
    (pushSpan p before f sp).ffOvfShown = before := by
  rcases pushSpan_cases p before f sp with ⟨_, h⟩ | ⟨_, h⟩ <;> rw [h] <;> rfl

/-- After PUSH_SPAN the command is still BUSY (R170). -/
@[simp] theorem pushSpan_busy (p : Params) (before : Bool) (f : Fill) (sp : Span) :
    (pushSpan p before f sp).busy = true := by
  rcases pushSpan_cases p before f sp with ⟨_, h⟩ | ⟨_, h⟩ <;> rw [h] <;> rfl

/-- A FILL that passes no check changes its status only (R169, R122). -/
theorem fillCommand_error {p : Params} {op : BitVec 4} {s : State} {code : StatusCode}
    (h : fillCheck s = some code) : fillCommand p op s = s.completeError op code := by
  unfold fillCommand; rw [h]

theorem fillSpansStart_error {p : Params} {op : BitVec 4} {s : State} {code : StatusCode}
    (h : fillCheck s = some code) : fillSpansStart p op s = s.completeError op code := by
  unfold fillSpansStart; rw [h]

theorem fillCommand_ok {p : Params} {op : BitVec 4} {s : State} (h : fillCheck s = none) :
    fillCommand p op s =
      fillComplete op
        (flood (fillCtx p s.cur) s.cur.seedX.toNat s.cur.seedY.toNat { s with ffOvf := false }).1.s
        (flood (fillCtx p s.cur) s.cur.seedX.toNat s.cur.seedY.toNat { s with ffOvf := false }).2
        (flood (fillCtx p s.cur) s.cur.seedX.toNat s.cur.seedY.toNat { s with ffOvf := false }).1.spans
        (flood (fillCtx p s.cur) s.cur.seedX.toNat s.cur.seedY.toNat { s with ffOvf := false }).1.pixels := by
  unfold fillCommand; rw [h]

/-- What passing every check means (R169). -/
theorem fillCheck_none {s : State} (h : fillCheck s = none) :
    s.labelsValid = true ∧ s.cur.seedInImage = true ∧ s.cur.fromLabel ≠ s.cur.toLabel ∧
      s.label (s.cur.seedY.toNat * s.cur.w + s.cur.seedX.toNat) = s.cur.fromLabel := by
  unfold fillCheck at h
  simp only at h
  split at h
  · simp at h
  · split at h
    · simp at h
    · split at h
      · simp at h
      · split at h
        · simp at h
        · rename_i h1 h2 h3 h4
          exact ⟨by simpa using h1, by simpa using h2, h3, by simpa using h4⟩

/-- Without valid labels REGION_CODE changes its status only (R165, R122). -/
theorem regionCodeCommand_notReady {p : Params} {op : BitVec 4} {s : State} (h : s.labelsValid = false) :
    regionCodeCommand p op s = s.completeError op .notReady := by
  unfold regionCodeCommand; simp only [h]; rfl

/-- With valid labels and the seed in the image, the label of the seed decides (R165, R166). -/
theorem regionCodeCommand_labelled {p : Params} {op : BitVec 4} {s : State} (h : s.labelsValid = true)
    (hi : s.cur.seedInImage = true) {v : Byte}
    (hv : s.label (s.cur.seedY.toNat * s.cur.w + s.cur.seedX.toNat) = v) :
    regionCodeCommand p op s =
      if 2 ≤ v.toNat then State.complete { s with ffOvf := false } op .ok (v.setWidth 32) reasonExisting
      else if v = 0 then State.complete { s with ffOvf := false } op .ok noRegion reasonWhite
      else if 2 + p.maxRegions ≤ s.regionNext.toNat then
        State.complete { s with ffOvf := false } op .ok noRegion reasonTableFull
      else (allocateRegion p { s with ffOvf := false }).complete op .ok (s.regionNext.setWidth 32) reasonNew := by
  subst hv
  unfold regionCodeCommand
  refine (if_neg (by simp [h])).trans ?_
  exact if_neg (by simp [hi])

/-- A black pixel of no region, with room in the table, is allocated (R165, R167). -/
theorem regionCodeCommand_new {p : Params} {op : BitVec 4} {s : State} (h : s.labelsValid = true)
    (hi : s.cur.seedInImage = true)
    (hv : s.label (s.cur.seedY.toNat * s.cur.w + s.cur.seedX.toNat) = 1)
    (hr : s.regionNext.toNat < 2 + p.maxRegions) :
    regionCodeCommand p op s =
      (allocateRegion p { s with ffOvf := false }).complete op .ok (s.regionNext.setWidth 32) reasonNew := by
  rw [regionCodeCommand_labelled h hi hv, if_neg (by decide), if_neg (by decide), if_neg (by omega)]

/-- Outside the NEW case REGION_CODE reports NOT_READY, or clears FF_OVF and completes; it writes nothing else
(R165, R166). -/
theorem regionCodeCommand_cases (p : Params) (op : BitVec 4) (s : State) :
    regionCodeCommand p op s = s.completeError op .notReady ∨
    (∃ r0 r1, regionCodeCommand p op s = State.complete { s with ffOvf := false } op .ok r0 r1) ∨
    (s.labelsValid = true ∧ s.cur.seedInImage = true ∧
      s.label (s.cur.seedY.toNat * s.cur.w + s.cur.seedX.toNat) = 1 ∧ s.regionNext.toNat < 2 + p.maxRegions) := by
  by_cases h : s.labelsValid = true
  · by_cases hi : s.cur.seedInImage = true
    · rw [regionCodeCommand_labelled h hi rfl]
      generalize s.label (s.cur.seedY.toNat * s.cur.w + s.cur.seedX.toNat) = v
      by_cases h2 : 2 ≤ v.toNat
      · exact .inr (.inl ⟨_, _, if_pos h2⟩)
      · by_cases h0 : v = 0
        · exact .inr (.inl ⟨_, _, (if_neg h2).trans (if_pos h0)⟩)
        · by_cases hr : 2 + p.maxRegions ≤ s.regionNext.toNat
          · exact .inr (.inl ⟨_, _, (if_neg h2).trans ((if_neg h0).trans (if_pos hr))⟩)
          · refine .inr (.inr ⟨h, hi, BitVec.eq_of_toNat_eq ?_, by omega⟩)
            have : v.toNat ≠ 0 := fun e => h0 (BitVec.eq_of_toNat_eq e)
            show v.toNat = 1
            omega
    · refine .inr (.inl ⟨noRegion, reasonOutOfRange, ?_⟩)
      unfold regionCodeCommand
      refine (if_neg (by simp [h])).trans ?_
      exact if_pos (by simpa using hi)
  · exact .inl (regionCodeCommand_notReady (by simpa using h))

end Sys2Proof.Machine
end

