-- ==== Sys2Proof/Laws/Threshold.lean ====
section
/-! SUPPORT. What the operations of THRESHOLD do. -/

namespace Sys2Proof.Machine

/-- Without an image size the command only reports NOT_READY (R141). -/
theorem thresholdCommand_notReady (p : Params) (op : BitVec 4) (inv : Bool) (s : State)
    (h : s.cur.w = 0 ∨ s.cur.h = 0) :
    thresholdCommand p op inv s = s.completeError op .notReady := by
  unfold thresholdCommand
  exact if_pos h

/-- With an image size the command labels the image and completes with OK (R148). -/
theorem thresholdCommand_ready (p : Params) (op : BitVec 4) (inv : Bool) (s : State)
    (hw : s.cur.w ≠ 0) (hh : s.cur.h ≠ 0) :
    thresholdCommand p op inv s =
      (State.newFrame { labelImage s s.cur.w s.cur.h (chooseThreshold p.otsuTie s s.cur.w s.cur.h) inv with
          threshT := chooseThreshold p.otsuTie s s.cur.w s.cur.h, threshInv := inv } true).complete op .ok
        ((chooseThreshold p.otsuTie s s.cur.w s.cur.h).setWidth 32)
        (BitVec.ofNat 32 (windowSize s.cur.w s.cur.h)) := by
  unfold thresholdCommand
  exact if_neg (by simp [hw, hh])

/-- Labelling writes exactly the first w·h cells of LABEL (R148). -/
theorem readByte_labelImage (s : State) (w h : Nat) (t : Byte) (inv : Bool) (a : Nat) :
    (labelImage s w h t inv).readByte a =
      if labelBase ≤ a ∧ a < labelBase + w * h then classify (s.gray (a - labelBase)) t inv
      else s.readByte a :=
  State.readByte_writeBytes s labelBase (w * h) _ a

/-- The threshold depends on GRAY only. -/
theorem chooseThreshold_congr (tie : OtsuTie) {s t : State} {w h : Nat} (hg : t.gray = s.gray) :
    chooseThreshold tie t w h = chooseThreshold tie s w h := by
  unfold chooseThreshold windowPixels
  rw [hg]

@[simp] theorem otsuScan_nil (tie : OtsuTie) (hist : Nat → Nat) (n total : Nat) (acc : OtsuScan) :
    otsuScan tie hist n total [] acc = acc := rfl

/-- A level with no background yet is not evaluated (R144). -/
theorem otsuScan_skip (tie : OtsuTie) (hist : Nat → Nat) (n total t : Nat) (levels : List Nat) (acc : OtsuScan)
    (h : acc.wB + hist t = 0) :
    otsuScan tie hist n total (t :: levels) acc = otsuScan tie hist n total levels acc := by
  rw [otsuScan]; exact if_pos h

/-- The scan stops at the first level with no foreground left (R144). -/
theorem otsuScan_stop (tie : OtsuTie) (hist : Nat → Nat) (n total t : Nat) (levels : List Nat) (acc : OtsuScan)
    (h : acc.wB + hist t ≠ 0) (h' : n - (acc.wB + hist t) = 0) :
    otsuScan tie hist n total (t :: levels) acc = acc := by
  rw [otsuScan]
  show (if acc.wB + hist t = 0 then _ else if n - (acc.wB + hist t) = 0 then acc else _) = acc
  rw [if_neg h, if_pos h']

/-- Every other level is evaluated (R144). -/
theorem otsuScan_evaluate (tie : OtsuTie) (hist : Nat → Nat) (n total t : Nat) (levels : List Nat)
    (acc : OtsuScan) (h : acc.wB + hist t ≠ 0) (h' : n - (acc.wB + hist t) ≠ 0) :
    otsuScan tie hist n total (t :: levels) acc =
      otsuScan tie hist n total levels
        (OtsuScan.evaluate tie { acc with wB := acc.wB + hist t, sumB := acc.sumB + t * hist t } t
          (varianceNum total (acc.wB + hist t) (n - (acc.wB + hist t)) (acc.sumB + t * hist t))
          ((acc.wB + hist t) * (n - (acc.wB + hist t)))) := by
  rw [otsuScan]
  show (if acc.wB + hist t = 0 then _ else if n - (acc.wB + hist t) = 0 then acc else _) = _
  rw [if_neg h, if_neg h']

/-- The running sums are not touched by keeping a level. -/
@[simp] theorem OtsuScan.evaluate_wB (tie : OtsuTie) (acc : OtsuScan) (t num den : Nat) :
    (OtsuScan.evaluate tie acc t num den).wB = acc.wB := by
  unfold OtsuScan.evaluate
  split
  · rfl
  · split <;> rfl

@[simp] theorem OtsuScan.evaluate_sumB (tie : OtsuTie) (acc : OtsuScan) (t num den : Nat) :
    (OtsuScan.evaluate tie acc t num den).sumB = acc.sumB := by
  unfold OtsuScan.evaluate
  split
  · rfl
  · split <;> rfl

end Sys2Proof.Machine
end

