-- ==== Sys2Proof/Laws/Step.lean ====
section
/-! SUPPORT. What one step can do. -/

namespace Sys2Proof.Machine

/-- Every meaning answers a next state. -/
theorem exec_next (i : Instr) (s : State) : ∃ t, exec i s = .next t := by
  cases i <;> exact ⟨_, rfl⟩

/-- A turn of the engine, phase by phase (R6, R120, R170). -/
theorem engineStep_idle {s : State} (h : s.phase = .idle) : engineStep s = .next s := by
  unfold engineStep; rw [h]

theorem engineStep_issued {s : State} (h : s.phase = .issued) : engineStep s = exec (decode s.cur.word) s := by
  unfold engineStep; rw [h]

theorem engineStep_filling {s : State} {run : FillRun} (h : s.phase = .filling run) :
    engineStep s = .next (fillSpansContinue Config.params Instr.fillSpans.opcode run s) := by
  unfold engineStep; rw [h]

/-- A turn of the engine always answers a next state. -/
theorem engineStep_next (s : State) : ∃ t, engineStep s = .next t := by
  cases h : s.phase with
  | idle => exact ⟨s, engineStep_idle h⟩
  | issued => rw [engineStep_issued h]; exact exec_next _ _
  | filling run => exact ⟨_, engineStep_filling h⟩

/-- Inside the aperture a host access answers a next state; beyond it, it is refused by name (R70). -/
theorem hostAccess_inside {a : Access} (s : State) (h : a.offset < apertureEnd) :
    hostAccess a s = .next (busAccess Config.params a s) := by
  unfold hostAccess
  exact if_neg (by omega)

theorem hostAccess_outside {a : Access} (s : State) (h : apertureEnd ≤ a.offset) :
    hostAccess a s = .refused .outsideAperture := by
  unfold hostAccess
  exact if_pos h

/-- One step, by what the agenda names next (R74). -/
theorem step_cases (s : State) :
    (s.agenda = [] ∧ step s = engineStep s) ∨
    (∃ rest, s.agenda = .engine :: rest ∧ step s = engineStep { s with agenda := rest }) ∨
    (∃ a rest, s.agenda = .host a :: rest ∧ step s = hostAccess a { s with agenda := rest }) ∨
    (∃ rest, s.agenda = .reset :: rest ∧ step s = .next (State.platformReset { s with agenda := rest })) := by
  unfold step
  match h : s.agenda with
  | [] => exact .inl ⟨rfl, rfl⟩
  | .engine :: rest => exact .inr (.inl ⟨rest, rfl, rfl⟩)
  | .host a :: rest => exact .inr (.inr (.inl ⟨a, rest, rfl, rfl⟩))
  | .reset :: rest => exact .inr (.inr (.inr ⟨rest, rfl, rfl⟩))

/-- The word placed for the engine is what the very next step runs (log entry 2). -/
theorem step_withFetchWord (s : State) (nbits w : Nat) :
    step (s.withFetchWord nbits w) =
      exec (decode (BitVec.ofNat 32 (w % 2 ^ nbits)))
        { s.issue (BitVec.ofNat 32 (w % 2 ^ nbits)) with agenda := s.agenda } := rfl

/-- The parameters of this hardware are legal (R5). -/
theorem Config.params_legal : Config.params.legal := by
  have h1 : Config.maxW ≤ 65535 := by unfold Config.maxW; omega
  have h2 : 1 ≤ Config.maxW := by unfold Config.maxW; omega
  have hq : 16 ≤ 2 ^ 20 / Config.maxW := by
    rw [Nat.le_div_iff_mul_le (by omega)]; omega
  have hm : 0 < min 65535 (2 ^ 20 / Config.maxW) := by omega
  have h3 : Config.maxH ≤ min 65535 (2 ^ 20 / Config.maxW) := by
    unfold Config.maxH
    have := Nat.mod_lt Config.rawMaxH hm
    omega
  have h4 : Config.maxW * Config.maxH ≤ 2 ^ 20 :=
    Nat.le_trans (Nat.mul_le_mul_left _ (Nat.le_trans h3 (Nat.min_le_right _ _))) (Nat.mul_div_le _ _)
  refine ⟨⟨h2, h1⟩, ⟨?_, by show Config.maxH ≤ _; omega⟩, h4, ⟨?_, ?_⟩, ?_, ⟨?_, ?_⟩, by decide⟩
  · show 1 ≤ Config.maxH; unfold Config.maxH; omega
  all_goals (simp only [Config.params]; omega)

end Sys2Proof.Machine
end

