-- ==== Sys2Proof/Tests/Slice0.lean ====
section
/-! SUPPORT. The model's own tests, each from the spec's encodings (30) or vectors (95), and for every statement with
hypotheses a witness that meets them. -/

namespace Sys2Proof.Tests

open Sys2Proof Sys2Proof.Machine

/-! ## Well-formedness and decoding (30 R90 to R100) -/

theorem test_wellFormed_refuses_op_below_8 : (Instr.reserved8F 3).wellFormed = false := by decide
theorem test_wellFormed_refuses_op_7 : (Instr.reserved8F 7).wellFormed = false := by decide
theorem test_wellFormed_accepts_op_8_and_15 :
    (Instr.reserved8F 8).wellFormed = true ∧ (Instr.reserved8F 15).wellFormed = true := by decide

-- The words below are the matches of spec/opcode_table.json, bit by bit: 26 ignored bits, SPANS, INV, OP.
theorem test_decode_nop : decode 0b00000000000000000000000000_0_0_0000 = .nop := by decide
theorem test_decode_begin : decode 0b00000000000000000000000000_0_0_0001 = .beginFrame := by decide
theorem test_decode_threshold : decode 0b00000000000000000000000000_0_0_0010 = .threshold := by decide
theorem test_decode_threshold_inv : decode 0b00000000000000000000000000_0_1_0010 = .thresholdInv := by decide
theorem test_decode_region_code : decode 0b00000000000000000000000000_0_0_0011 = .regionCode := by decide
theorem test_decode_fill : decode 0b00000000000000000000000000_0_0_0100 = .fill := by decide
theorem test_decode_fill_spans : decode 0b00000000000000000000000000_1_0_0100 = .fillSpans := by decide
theorem test_decode_fmt_correct : decode 0b00000000000000000000000000_0_0_0101 = .fmtCorrect := by decide
theorem test_decode_rs_correct : decode 0b00000000000000000000000000_0_0_0110 = .rsCorrect := by decide
theorem test_decode_reserved_7 : decode 0b00000000000000000000000000_0_0_0111 = .reserved7 := by decide
theorem test_decode_reserved_8 : decode 0b00000000000000000000000000_0_0_1000 = .reserved8F 8 := by decide
theorem test_decode_reserved_15 : decode 0b00000000000000000000000000_0_0_1111 = .reserved8F 15 := by decide

/-- V-CTL-4: INV is ignored outside THRESHOLD, bits 31:6 and SPANS are ignored in THRESHOLD. -/
theorem test_decode_ignored_bits :
    decode 0x00000013 = .regionCode ∧ decode 0xFFFFFFE2 = .threshold ∧ decode 0xFFFFFFD4 = .fill := by decide

theorem test_decodeBytes_lowest_first : decodeBytes [0x24, 0x00, 0x00, 0x00] = .ok .fillSpans := by decide
theorem test_decodeBytes_rejects_by_name :
    decodeBytes [0x24, 0x00, 0x00] = .error .tooShort ∧ decodeBytes [0, 0, 0, 0, 0] = .error .tooLong := by decide
theorem test_decodeTableWord_short_row : decodeTableWord 8 0xF12 = some .thresholdInv := by decide

/-! ## Helpers -/

/-- The state an outcome leaves, the given state where there is none. -/
def after (s : State) : Host.Outcome State Fault Refusal → State
  | .next t => t
  | .fault _ => s
  | .refused _ => s

/-- Parameters that meet every vector used here. -/
def par (ffDepth : Nat) : Params := ⟨64, 64, 10, ffDepth, 2, .last, 0⟩

/-- A byte window with the given bytes from `base` on. -/
def bytesAt (base : Nat) (l : List Nat) : Memory := l.zipIdx.map fun c => (base + c.2, BitVec.ofNat 8 c.1)

/-- The block with a W×H image, LABEL valid if `labels` are given, and a command issued on ARG0 and ARG1. -/
def issued (w h : Nat) (mem : Memory) (valid : Bool) (word arg0 arg1 : Word) : State :=
  State.issue { State.reset with
    width := BitVec.ofNat 16 w
    height := BitVec.ofNat 16 h
    mem := mem
    labelsValid := valid
    arg0 := arg0
    arg1 := arg1 } word

/-- The U component of 95 §3.1, 5×4. -/
def uLabels : Memory :=
  bytesAt labelBase [1, 0, 1, 0, 1, 1, 0, 1, 0, 1, 1, 1, 1, 1, 1, 0, 0, 1, 0, 0]

/-- The labels of a state, row-major. -/
def labels (s : State) (n : Nat) : List Nat := (List.range n).map fun o => (s.label o).toNat

/-- A 1×1 image whose one label is `v`, valid, with the command `word` issued on ARG0 and ARG1. -/
def cell (v : Nat) (word arg0 arg1 : Word) : State :=
  issued 1 1 (bytesAt labelBase [v]) true word arg0 arg1

/-! ## Vectors, one step each -/

/-- V-CTL-1. -/
theorem test_nop :
    (after .reset (step (State.reset.withFetchWord 32 0x0))).statusWord = 0 ∧
    (after .reset (step (State.reset.withFetchWord 32 0x0))).intStatusWord = 1 := by decide

/-- V-CTL-2, but for the label and image windows. -/
theorem test_begin :
    (after .reset (execBeginFrame { State.reset with regionNext := 6, labelsValid := true, lastOp := 3 })).regionNext = 2 ∧
    (after .reset (execBeginFrame { State.reset with regionNext := 6, labelsValid := true, lastOp := 3 })).statusWord =
      0x00010000 := by decide

/-- V-CTL-3. -/
theorem test_reserved_15 : (after .reset (step (State.reset.withFetchWord 32 0xF))).statusWord = 0x000F0400 := by decide
theorem test_reserved_7 : (after .reset (step (State.reset.withFetchWord 32 0x7))).statusWord = 0x00070400 := by decide

/-- V-THR-10. -/
theorem test_threshold_without_image :
    (after .reset (step (State.reset.withFetchWord 32 0x2))).statusWord = 0x00020500 := by decide

/-- V-THR-5: 2×2, T = 254, labels 10 01. -/
theorem test_threshold :
    (thresholdCommand (par 8) 2 false (issued 2 2 (bytesAt grayBase [0, 255, 255, 0]) false 0x02 0 0)).threshWord = 254 ∧
    labels (thresholdCommand (par 8) 2 false (issued 2 2 (bytesAt grayBase [0, 255, 255, 0]) false 0x02 0 0)) 4 =
      [1, 0, 0, 1] := by decide +kernel

/-- V-THR-5 with INV: the complement. -/
theorem test_threshold_inv :
    (thresholdCommand (par 8) 2 true (issued 2 2 (bytesAt grayBase [0, 255, 255, 0]) false 0x12 0 0)).threshWord = 0x1FE ∧
    labels (thresholdCommand (par 8) 2 true (issued 2 2 (bytesAt grayBase [0, 255, 255, 0]) false 0x12 0 0)) 4 =
      [0, 1, 1, 0] := by decide +kernel

/-- V-THR-4: a 10×1 image with margins, T = 239. -/
theorem test_threshold_last_tie :
    (thresholdCommand (par 8) 2 false
      (issued 10 1 (bytesAt grayBase [10, 10, 10, 50, 50, 240, 240, 240, 240, 240]) false 0x02 0 0)).res0 = 239 := by
  decide +kernel

/-- V-RC-1 and V-RC-9 on the U labels with FF_DEPTH = 2: id 2, NEW, AREA 2, FF_OVF, STATUS 0x00030006. -/
theorem test_region_code_new :
    let t := regionCodeCommand (par 2) 3 (issued 5 4 uLabels true 0x03 0 0)
    (t.res0, t.res1, t.regionNext, t.statusWord, t.regionWord 2 1, t.regionWord 2 2) =
      (2, 1, 3, 0x00030006, 2, 0xFFFF) := by decide +kernel

/-- V-RC-6: OUT_OF_RANGE at x = W. -/
theorem test_region_code_out_of_range :
    let t := regionCodeCommand (par 8) 3 (issued 5 4 uLabels true 0x03 0x5 0)
    (t.res0, t.res1) = (0xFFFFFFFF, 3) := by decide +kernel

/-- V-RL-1: FILL 1 → 7 from (0, 0), FF_DEPTH 5. -/
theorem test_fill :
    let t := fillCommand (par 5) 4 (issued 5 4 uLabels true 0x04 0 0x701)
    (t.res0, t.res1, t.statusWord, labels t 20) =
      (8, 12, 0x00040002, [7, 0, 7, 0, 7, 7, 0, 7, 0, 7, 7, 7, 7, 7, 7, 0, 0, 7, 0, 0]) := by decide +kernel

/-- V-RL-2: the same with FF_DEPTH 4. -/
theorem test_fill_overflow :
    let t := fillCommand (par 4) 4 (issued 5 4 uLabels true 0x04 0 0x701)
    (t.res0, t.res1, t.statusWord) = (4, 8, 0x00040006) := by decide +kernel

/-- V-RL-7: the first span pushed is (0, 0, 0), and the command is still BUSY. -/
theorem test_fill_spans_first :
    let t := fillSpansStart (par 5) 4 (issued 5 4 uLabels true 0x24 0 0x701)
    (t.fifo, t.busy) = ([⟨0, 0, 0⟩], true) := by decide +kernel

/-- V-RL-8: with a FIFO of two entries the third push holds: SPAN_COUNT 2, SPAN_NE, LABELS_VALID, BUSY. -/
theorem test_fill_spans_hold :
    let go := fun s : State => match s.phase with
      | .filling run => fillSpansContinue (par 5) 4 run s
      | _ => s
    (go (go (fillSpansStart (par 5) 4 { issued 5 4 uLabels true 0x24 0 0x701 with lastOp := 2 }))).statusWord =
      0x0202000B := by decide +kernel

/-- R74: with FF_OVF = 1 at the issue, a FILL.SPANS clears the flag in its first step, STATUS shows it set until the
completion, and clear after. -/
theorem test_fill_spans_hides_ff_ovf :
    let go := fun s : State => match s.phase with
      | .filling run => fillSpansContinue (par 5) 4 run s
      | _ => s
    let t := fillSpansStart (par 5) 4 { cell 1 0x24 0 0x701 with ffOvf := true }
    (t.ffOvf, t.statusWord, (go t).ffOvf, (go t).statusWord) = (false, 0x0100000F, false, 0x0104000A) := by decide +kernel

/-- V-FMT-3. -/
theorem test_fmt_correct :
    let t := fmtCommand 5 (issued 0 0 [] false 0x05 0x33DE 0)
    (t.res0, t.res1, t.statusWord) = (0x23D6, 0x0202, 0x00050000) := by decide +kernel

/-- V-FMT-5. -/
theorem test_fmt_correct_fails :
    let t := fmtCommand 5 (issued 0 0 [] false 0x05 0x23D9 0)
    (t.res0, t.res1, t.statusWord, t.sigma 3) = (0x23D9, 0x0300, 0x00050100, 15) := by decide +kernel

/-- V-RS-9: a miscorrection with status OK. -/
theorem test_rs_correct :
    let t := rsCommand (par 8) 6 (issued 0 0 (bytesAt blockBase [154, 3, 3, 4, 4, 0]) false 0x06 0x406 0)
    (t.res1, t.statusWord, t.block 0, t.block 5, t.omega 0) = (0x0101, 0x00060000, 154, 154, 154) := by decide +kernel

/-- V-RS-10: the unguarded division, LOG0 = 0. -/
theorem test_rs_correct_zero_division :
    let t := rsCommand (par 8) 6 (issued 0 0 (bytesAt blockBase [180, 6, 121, 116, 86, 233]) false 0x06 0x406 0)
    (t.res1, t.statusWord, t.block 4) = (0x0201, 0x00060200, 82) := by decide +kernel

/-- V-ACC-5: GRAY[24] with lanes 25..27 out of range. -/
theorem test_access_lanes :
    let s := busAccess (par 8) (.rd .w32 0x100018)
      { State.reset with width := 5, height := 5, mem := bytesAt (grayBase + 24) [0x77] }
    (s.readData, s.errWord) = (0x77, 2) := by decide

/-- V-BUSY-3. -/
theorem test_busy_cmd_write :
    let s := busAccess (par 8) (.wr .w32 0x000 0) (issued 0 0 [] false 0x24 0 0)
    (s.cur.word, s.errWord) = (0x24, 1) := by decide

/-! ## Witnesses: states and operands that meet the hypotheses of the statements -/

/-- A 1×1 block in the middle of a FILL.SPANS of label 1 to 7, its one span pushed or held. -/
def midFill (held : Option Span) (fifo : List Span) : State :=
  { issued 1 1 (bytesAt labelBase [7]) true 0x24 0 0x701 with
    phase := .filling ⟨[⟨0, 0, 0, 0⟩], 1, 1, held, false⟩
    fifo := fifo }

theorem witness_CommandWordsDecode :
    ((0x00000024, .fillSpans) : Word × Instr) ∈ [((0x00000004 : Word), Instr.fill), (0x00000024, .fillSpans)] := by decide

theorem witness_DecodeInvertsEncode :
    (Instr.reserved8F 8).wellFormed = true ∧ (Instr.reserved8F 15).wellFormed = true ∧
    Instr.thresholdInv.wellFormed = true := by decide

theorem witness_StepRunsIssuedCommand :
    (cell 1 0x12 0 0).phase = .issued ∧ decode (cell 1 0x12 0 0).cur.word = .thresholdInv ∧
    { cell 1 0x12 0 0 with agenda := [.engine] }.agenda = [.engine] ∧ (cell 1 0x12 0 0).agenda = [] ∧
    decode (BitVec.ofNat 32 (0x12 % 2 ^ 8)) = .thresholdInv := by decide

theorem witness_StepFollowsAgenda :
    State.reset.phase = .idle ∧ State.reset.agenda = [] ∧
    { State.reset with agenda := [.engine] }.agenda = [.engine] ∧
    { State.reset with agenda := [.host (.rd .w32 0x2FFFFC)] }.agenda = [.host (.rd .w32 0x2FFFFC)] ∧
    { State.reset with agenda := [.reset] }.agenda = [.reset] := by decide

/-- The boundary of the refusal: the first offset outside and the last inside. -/
theorem witness_OnlyOutsideAccessesAreRefused :
    step { State.reset with agenda := [.host (.rd .w8 0x300000)] } = .refused .outsideAperture ∧
    ∃ t, step { State.reset with agenda := [.host (.rd .w8 0x2FFFFF)] } = .next t := ⟨rfl, _, rfl⟩

theorem witness_CommandsCompleteInOneTurn : Instr.fill ≠ .fillSpans ∧ Instr.reserved8F 8 ≠ .fillSpans := by decide

theorem witness_CmdWriteIssues : State.reset.phase = .idle ∧ (cell 1 0x04 0 0x701).busy = true := by decide

theorem witness_ErrorCompletionIsPrecise :
    ∃ t u v, exec .threshold (State.reset.issue 2) = .next t ∧ t.phase = .idle ∧ t.code = .notReady ∧
      exec .rsCorrect (State.reset.issue 6) = .next u ∧ u.phase = .idle ∧ u.code = .badParam ∧
      exec .reserved7 (State.reset.issue 7) = .next v ∧ v.phase = .idle ∧ v.code = .badCommand :=
  ⟨_, _, _, rfl, rfl, rfl, rfl, rfl, rfl, rfl, rfl, rfl⟩

theorem witness_ReservedOpcodesComplete :
    7 ≤ ((0x00000007 : Word).extractLsb' 0 4).toNat ∧ 7 ≤ ((0xFFFFFFFF : Word).extractLsb' 0 4).toNat ∧
    (Instr.reserved8F 8).wellFormed = true ∧ (Instr.reserved8F 15).wellFormed = true := by decide

/-- Legal sizes at both ends of their range, and an illegal one under parameters that leave room for it. -/
theorem witness_SizeWritesResize :
    State.reset.phase = .idle ∧
    ((0 : Word).extractLsb' 0 16).toNat ≤ Config.params.maxW ∧
    ((BitVec.ofNat 32 Config.params.maxW).extractLsb' 0 16).toNat ≤ Config.params.maxW ∧
    ((0 : Word).extractLsb' 0 16).toNat ≤ Config.params.maxH ∧
    ((BitVec.ofNat 32 Config.params.maxH).extractLsb' 0 16).toNat ≤ Config.params.maxH ∧
    (par 8).maxW < ((65 : Word).extractLsb' 0 16).toNat ∧ (par 8).maxH < ((65 : Word).extractLsb' 0 16).toNat := by
  refine ⟨rfl, Nat.zero_le _, ?_, Nat.zero_le _, ?_, by decide, by decide⟩ <;>
    simp [BitVec.extractLsb'_toNat] <;> omega

theorem witness_ThresholdNeedsImage :
    ((State.reset.issue 2).cur.width = 0 ∨ (State.reset.issue 2).cur.height = 0) ∧
    ((issued 1 0 [] false 0x12 0 0).cur.width = 0 ∨ (issued 1 0 [] false 0x12 0 0).cur.height = 0) := by decide

/-- The smallest image. -/
theorem witness_ThresholdLabelsImage : (cell 1 0x02 0 0).cur.width ≠ 0 ∧ (cell 1 0x02 0 0).cur.height ≠ 0 := by decide

theorem witness_InvertedLabelsComplement : (cell 1 0x12 0 0).cur.width ≠ 0 ∧ (cell 1 0x12 0 0).cur.height ≠ 0 := by
  decide

theorem witness_HistogramCountsWindow : 0 < (cell 1 0x02 0 0).cur.w ∧ 0 < (cell 1 0x02 0 0).cur.h ∧ 255 < 256 := by decide

/-- Two occupied bins at the ends of the range: level 0 is evaluated, and so is level 254. The same two values in a 2×1
image; in a 1×1 image no level is evaluated. -/
theorem witness_OtsuKeepsLastMaximum :
    let hist := fun v => if v = 0 ∨ v = 255 then 1 else 0
    let s := issued 2 1 (bytesAt grayBase [0, 255]) false 0x02 0 0
    let s1 := issued 1 1 (bytesAt grayBase [77]) false 0x02 0 0
    (2 = ((List.range 256).map hist).sum ∧ Sys2Proof.Claims.evaluated hist 2 0 ∧
      Sys2Proof.Claims.evaluated hist 2 254) ∧
    (s.cur.width ≠ 0 ∧ s.cur.height ≠ 0 ∧ Sys2Proof.Claims.evaluated (histogram (windowPixels s 2 1)) 2 0) ∧
    (s1.cur.width ≠ 0 ∧ s1.cur.height ≠ 0 ∧
      ¬ ∃ l, Sys2Proof.Claims.evaluated (histogram (windowPixels s1 1 1)) 1 l) := by
  refine ⟨⟨by decide +kernel, ⟨by decide, ?_, ?_⟩, ⟨by decide, ?_, ?_⟩⟩, ⟨by decide, by decide, by decide, ?_, ?_⟩,
    by decide, by decide, ?_⟩
  iterate 6 decide +kernel
  rintro ⟨l, -, h0, h1⟩
  omega

theorem witness_UniformWindowGivesZero :
    (cell 1 0x02 0 0).cur.width ≠ 0 ∧ (cell 1 0x02 0 0).cur.height ≠ 0 ∧
    ∀ x y, 0 ≤ x → x < 1 → 0 ≤ y → y < 1 → (cell 1 0x02 0 0).gray (y * 1 + x) = (cell 1 0x02 0 0).gray 0 := by
  refine ⟨by decide, by decide, fun x y _ hx _ hy => ?_⟩
  have hx0 : x = 0 := by omega
  have hy0 : y = 0 := by omega
  subst hx0; subst hy0; rfl

/-- One witness for each answer of REGION_CODE: NOT_READY, OUT_OF_RANGE at x = W, EXISTING at the least and the greatest
id, WHITE, and TABLE_FULL with REGION_NEXT exactly at its end. -/
theorem witness_RegionCodeWithoutAllocation :
    (State.reset.issue 3).labelsValid = false ∧
    (cell 1 0x03 1 0).labelsValid = true ∧ (cell 1 0x03 1 0).cur.w ≤ (cell 1 0x03 1 0).cur.seedX.toNat ∧
    ((cell 2 0x03 0 0).cur.seedX.toNat < (cell 2 0x03 0 0).cur.w ∧
      2 ≤ ((cell 2 0x03 0 0).label (Sys2Proof.Claims.seedCell (cell 2 0x03 0 0))).toNat) ∧
    2 ≤ ((cell 255 0x03 0 0).label (Sys2Proof.Claims.seedCell (cell 255 0x03 0 0))).toNat ∧
    (cell 0 0x03 0 0).label (Sys2Proof.Claims.seedCell (cell 0 0x03 0 0)) = 0 ∧
    ((cell 1 0x03 0 0).label (Sys2Proof.Claims.seedCell (cell 1 0x03 0 0)) = 1 ∧
      2 + Config.params.maxRegions ≤
        { cell 1 0x03 0 0 with regionNext := BitVec.ofNat 9 (2 + Config.params.maxRegions) }.regionNext.toNat) := by
  refine ⟨by decide, by decide, by decide, by decide, by decide, by decide, by decide, ?_⟩
  have h := Config.params_legal.2.2.2.1.2
  simp only [BitVec.toNat_ofNat]
  omega

/-- A state that meets `newReady`, at the least and at the greatest REGION_NEXT with room. -/
theorem witness_RegionCodeAllocates :
    Sys2Proof.Claims.newReady (cell 1 0x03 0 0) ∧
    Sys2Proof.Claims.newReady
      { cell 1 0x03 0 0 with regionNext := BitVec.ofNat 9 (1 + Config.params.maxRegions) } := by
  have h := Config.params_legal.2.2.2.1
  refine ⟨⟨by decide, by decide, by decide, by decide, by decide, ?_⟩,
    ⟨by decide, by decide, by decide, by decide, ?_, ?_⟩⟩
  · show 2 < _; omega
  all_goals simp only [BitVec.toNat_ofNat]; omega

/-- One witness for each check of FILL. -/
theorem witness_FillChecksInOrder :
    (State.reset.issue 4).labelsValid = false ∧
    ((cell 1 0x04 1 0x701).labelsValid = true ∧ (cell 1 0x04 1 0x701).cur.w ≤ (cell 1 0x04 1 0x701).cur.seedX.toNat) ∧
    ((cell 1 0x24 0 0x101).labelsValid = true ∧ (cell 1 0x24 0 0x101).cur.seedX.toNat < 1 ∧
      (cell 1 0x24 0 0x101).cur.fromLabel = (cell 1 0x24 0 0x101).cur.toLabel) ∧
    ((cell 0 0x04 0 0x701).cur.fromLabel ≠ (cell 0 0x04 0 0x701).cur.toLabel ∧
      (cell 0 0x04 0 0x701).label (Sys2Proof.Claims.seedCell (cell 0 0x04 0 0x701)) ≠
        (cell 0 0x04 0 0x701).cur.fromLabel) := by decide

/-- FILL and FILL.SPANS that pass their checks. -/
theorem witness_FillRelabels :
    Sys2Proof.Claims.fillReady (cell 1 0x04 0 0x701) ∧ Sys2Proof.Claims.fillReady (cell 1 0x24 0 0x701) := by
  refine ⟨⟨?_, ?_, ?_, ?_, ?_⟩, ⟨?_, ?_, ?_, ?_, ?_⟩⟩ <;> decide

theorem witness_FillSpansPushesSeedSpan :
    Sys2Proof.Claims.fillReady (cell 1 0x24 0 0x701) ∧ (cell 1 0x24 0 0x701).phase = .issued :=
  ⟨witness_FillRelabels.2, rfl⟩

/-- Both hypotheses hold, and the seed itself is relabelled. -/
theorem witness_FillStaysInComponent :
    Sys2Proof.Claims.fillReady (cell 1 0x04 0 0x701) ∧ Sys2Proof.Claims.newReady (cell 1 0x03 0 0) ∧
    (cell 1 0x04 0 0x701).label 0 ≠ (fillCommand (par 5) 4 (cell 1 0x04 0 0x701)).label 0 :=
  ⟨witness_FillRelabels.1, witness_RegionCodeAllocates.1, by decide +kernel⟩

/-- FF_OVF = 0, whatever FF_DEPTH is, and FF_OVF = 1 on the U labels under FF_DEPTH = 2, for both commands. -/
theorem witness_FillCoversComponent :
    (par 2).legal ∧
    (Sys2Proof.Claims.fillReady (cell 1 0x04 0 0x701) ∧
      (fillCommand Config.params 0x4 (cell 1 0x04 0 0x701)).ffOvf = false) ∧
    (Sys2Proof.Claims.newReadyFor Config.params (cell 1 0x03 0 0) ∧
      (regionCodeCommand Config.params 0x3 (cell 1 0x03 0 0)).ffOvf = false) ∧
    (Sys2Proof.Claims.fillReady (issued 5 4 uLabels true 0x04 0 0x701) ∧
      (fillCommand (par 2) 0x4 (issued 5 4 uLabels true 0x04 0 0x701)).ffOvf = true) ∧
    (Sys2Proof.Claims.newReadyFor (par 2) (issued 5 4 uLabels true 0x03 0 0) ∧
      (regionCodeCommand (par 2) 0x3 (issued 5 4 uLabels true 0x03 0 0)).ffOvf = true) := by
  refine ⟨by decide, ⟨witness_FillRelabels.1, by decide +kernel⟩, ⟨witness_RegionCodeAllocates.1, ?_⟩,
    ⟨⟨?_, ?_, ?_, ?_, ?_⟩, by decide +kernel⟩, ⟨?_, ?_, ?_, ?_, ?_, ?_⟩, by decide +kernel⟩
  · have e := regionCodeCommand_new (p := Config.params) (op := 3) (s := cell 1 0x03 0 0)
      (by decide) (by decide) (by decide) witness_RegionCodeAllocates.1.2.2.2.2.2
    exact (congrArg State.ffOvf e).trans (by decide +kernel)
  all_goals decide

/-- A component of two rows under a stack of one frame, which overflows, and under one of W·H frames; for the commands,
a 1×1 image, whose cells fit every FF_DEPTH. -/
theorem witness_FloodEndsByItself :
    let s := issued 1 2 (bytesAt labelBase [1, 1]) true 0x04 0 0x701
    let c := fun depth => FillCtx.mk 1 2 1 7 depth
    ((1 : Byte) ≠ 7 ∧ 0 < 1 ∧ 1 < 2 ∧ 1 < 2 ^ 16 ∧ 2 < 2 ^ 16 ∧ (c 1).labelAt s 0 1 = 1) ∧
    ((c 1).depth = 1 ∧ (flood (c 1) 0 1 s).2 = true) ∧
    (1 * 2 ≤ (c 2).depth ∧ (flood (c 2) 0 1 s).2 = false ∧ (c 2).depth ≤ 3) ∧
    ((cell 1 0x04 0 0x701).cur.w * (cell 1 0x04 0 0x701).cur.h ≤ Config.params.ffDepth ∧
      Sys2Proof.Claims.fillReady (cell 1 0x04 0 0x701)) ∧
    ((cell 1 0x03 0 0).cur.w * (cell 1 0x03 0 0).cur.h ≤ Config.params.ffDepth ∧
      Sys2Proof.Claims.newReady (cell 1 0x03 0 0)) :=
  ⟨by decide, by decide +kernel, by decide +kernel, ⟨Config.params_legal.2.2.2.2.1, witness_FillRelabels.1⟩,
    Config.params_legal.2.2.2.2.1, witness_RegionCodeAllocates.1⟩

/-- The least stack, and the FIFO exactly full: the same block serves `FillSpansGoesOn` with room and without. -/
theorem midFill_inv (held : Option Span) (fifo : List Span) (h : fifo.length ≤ Config.params.spanFifoDepth) :
    Inv Config.params (midFill held fifo) where
  mem_wf := (by decide : Memory.wf (midFill none []).mem)
  mem_mapped := (by decide : ∀ c ∈ (midFill none []).mem, mapped c.1)
  gray_inside := (by decide : ∀ c ∈ (midFill none []).mem, grayBase ≤ c.1 → c.1 < labelBase →
    c.1 < grayBase + (midFill none []).imageSize)
  label_inside := (by decide : ∀ c ∈ (midFill none []).mem, labelBase ≤ c.1 →
    c.1 < labelBase + (midFill none []).imageSize)
  width_le := Config.params_legal.1.1
  height_le := Config.params_legal.2.1.1
  labels_written := fun _ => ⟨(by decide : 0 < (midFill none []).imageSize), fun o ho => by
    have ho' : o < 1 := ho
    have h0 : o = 0 := by omega
    subst h0; rfl⟩
  next_range := ⟨Nat.le_refl 2, by show 2 ≤ _; omega⟩
  fifo_le := h
  captured := fun _ => ⟨rfl, rfl, rfl, rfl⟩
  filling := fun run hr => by
    have hd := Config.params_legal.2.2.2.2.1
    have e : run = ⟨[⟨0, 0, 0, 0⟩], 1, 1, held, false⟩ := by
      have hr' : Phase.filling ⟨[⟨0, 0, 0, 0⟩], 1, 1, held, false⟩ = .filling run := hr
      injection hr' with h1
      exact h1.symm
    subst e
    refine ⟨(by decide : decode (midFill none []).cur.word = .fillSpans), rfl,
      (by decide : (midFill none []).cur.fromLabel ≠ (midFill none []).cur.toLabel), Nat.one_pos, hd, ?_⟩
    intro f hf
    have hf' : f = ⟨0, 0, 0, 0⟩ := List.mem_singleton.mp hf
    subst hf'
    exact (by decide : 0 < (midFill none []).cur.h ∧ 0 < (midFill none []).cur.w ∧ 0 ≤ 0 + 1 ∧ 0 ≤ 0 + 1)

/-- A 1×2 image in the middle of a FILL.SPANS of label 1 to 7: the upper cell is relabelled and pushed, the lower is not. -/
def midFill2 : State :=
  { issued 1 2 (bytesAt labelBase [7, 1]) true 0x24 0 0x701 with phase := .filling ⟨[⟨0, 0, 0, 0⟩], 1, 1, none, false⟩ }

theorem midFill2_inv (d : Nat) (hd : 1 ≤ d) : Inv (par d) midFill2 where
  mem_wf := by decide
  mem_mapped := by decide
  gray_inside := by decide
  label_inside := by decide
  width_le := (by decide : midFill2.width.toNat ≤ 64)
  height_le := (by decide : midFill2.height.toNat ≤ 64)
  labels_written := fun _ => by decide
  next_range := (by decide : 2 ≤ midFill2.regionNext.toNat ∧ midFill2.regionNext.toNat ≤ 10 + 2)
  fifo_le := Nat.zero_le _
  captured := fun _ => ⟨rfl, rfl, rfl, rfl⟩
  filling := fun run hr => by
    have e : run = ⟨[⟨0, 0, 0, 0⟩], 1, 1, none, false⟩ := (Phase.filling.inj hr).symm
    subst e
    exact ⟨by decide, rfl, by decide, Nat.one_pos, hd, by decide⟩

/-- The finished arm under the parameters of this hardware, with the FIFO empty and full; the overflow arm under
FF_DEPTH = 1, and the child arm under FF_DEPTH = 2, at the cell below. -/
theorem witness_FillSpansGoesOn :
    (Config.params.legal ∧ Inv Config.params (midFill none []) ∧
      (midFill none []).phase = .filling ⟨[⟨0, 0, 0, 0⟩], 1, 1, none, false⟩ ∧
      advance (fillCtx Config.params (midFill none []).cur) (midFill none []) [⟨0, 0, 0, 0⟩] = .finished ∧
      (midFill none []).fifo.length < Config.params.spanFifoDepth) ∧
    (let full := List.replicate Config.params.spanFifoDepth (⟨0, 0, 0⟩ : Span)
     Inv Config.params (midFill none full) ∧ (midFill none full).fifo.length = Config.params.spanFifoDepth) ∧
    ((par 1).legal ∧ Inv (par 1) midFill2 ∧ midFill2.phase = .filling ⟨[⟨0, 0, 0, 0⟩], 1, 1, none, false⟩ ∧
      advance (fillCtx (par 1) midFill2.cur) midFill2 [⟨0, 0, 0, 0⟩] = .overflow [⟨0, 0, 0, 0⟩]) ∧
    ((par 2).legal ∧ Inv (par 2) midFill2 ∧
      advance (fillCtx (par 2) midFill2.cur) midFill2 [⟨0, 0, 0, 0⟩] = .child [⟨0, 0, 0, 0⟩] 0 1) :=
  ⟨⟨Config.params_legal, midFill_inv _ _ (Nat.zero_le _), rfl, rfl, Config.params_legal.2.2.2.2.2.1.1⟩,
    ⟨midFill_inv _ _ (by simp), by simp [midFill]⟩,
    ⟨by decide, midFill2_inv 1 (by decide), rfl, by decide⟩, by decide, midFill2_inv 2 (by decide), by decide⟩

/-- A held span beside an empty FIFO, which has room whatever its depth, and beside a full one. -/
theorem witness_HeldSpanWaitsForPop :
    ((midFill (some ⟨0, 0, 0⟩) []).phase = .filling ⟨[⟨0, 0, 0, 0⟩], 1, 1, some ⟨0, 0, 0⟩, false⟩ ∧
      (midFill (some ⟨0, 0, 0⟩) []).fifo.length < Config.params.spanFifoDepth) ∧
    ∃ tl, let fifo := (⟨0, 0, 0⟩ : Span) :: tl
      (midFill (some ⟨0, 0, 0⟩) fifo).phase = .filling ⟨[⟨0, 0, 0, 0⟩], 1, 1, some ⟨0, 0, 0⟩, false⟩ ∧
      (midFill (some ⟨0, 0, 0⟩) fifo).fifo = ⟨0, 0, 0⟩ :: tl ∧
      (midFill (some ⟨0, 0, 0⟩) fifo).fifo.length = Config.params.spanFifoDepth := by
  have h := Config.params_legal.2.2.2.2.2.1.1
  refine ⟨⟨rfl, h⟩, List.replicate (Config.params.spanFifoDepth - 1) ⟨0, 0, 0⟩, rfl, rfl, ?_⟩
  simp only [midFill, List.length_cons, List.length_replicate]
  omega

theorem witness_DrainedFillSpansEqualsFill :
    let s := { cell 1 0x24 0 0x701 with agenda := .engine :: Sys2Proof.Claims.drain 3 }
    Sys2Proof.Claims.fillReady s ∧ s.phase = .issued ∧ decode s.cur.word = .fillSpans ∧ s.cur.w * s.cur.h + 2 ≤ 3 ∧
    s.agenda = .engine :: Sys2Proof.Claims.drain 3 :=
  ⟨witness_FillRelabels.2, rfl, by decide, by decide, rfl⟩

/-- A command, a turn and an access that leave the table alone: FILL, a later turn of a FILL.SPANS, a BEGIN, an ARG0 write;
and the two accesses that the statement excepts: a link write and a HEIGHT write. -/
theorem witness_OnlyRegionCodeWritesTable :
    let moves := fun i : Instr => i = .regionCode ∨ i = .beginFrame ∨ i = .threshold ∨ i = .thresholdInv
    ((∃ t, exec .fill (cell 1 0x04 0 0x701) = .next t) ∧ ¬ moves .fill) ∧
    ((∃ t, engineStep midFill2 = .next t) ∧ ¬ (midFill2.phase = .issued ∧ moves (decode midFill2.cur.word))) ∧
    ((∃ t, engineStep (cell 1 0x01 0 0) = .next t) ∧
      ¬ ((cell 1 0x01 0 0).phase = .issued ∧ decode (cell 1 0x01 0 0).cur.word = .regionCode)) ∧
    (∃ t, hostAccess (.wr .w32 0x020 5) State.reset = .next t) ∧
    (∃ t, hostAccess (.wr .w32 0x2FF8 7) { State.reset with regionNext := 256 } = .next t) ∧
    (∃ t, hostAccess (.wr .w32 0x018 0) State.reset = .next t) :=
  ⟨⟨⟨_, rfl⟩, by decide⟩, ⟨engineStep_next _, by decide⟩, ⟨⟨_, rfl⟩, by decide⟩, ⟨_, rfl⟩, ⟨_, rfl⟩, ⟨_, rfl⟩⟩

theorem witness_EngineLeavesHostState :
    (∃ t, engineStep (cell 1 0x24 0 0x701) = .next t ∧ t.busy = true) ∧ grayBase ≤ 0x100000 ∧ 0x1FFFFF < labelBase :=
  ⟨⟨_, rfl, pushSpan_busy _ _ _ _⟩, by decide⟩

/-- The FIFO empty, and with an entry. -/
theorem witness_IdleRegisterReads :
    (State.reset.phase = .idle ∧ State.reset.fifo = []) ∧
    ({ State.reset with fifo := [⟨1, 2, 3⟩] }.phase = .idle ∧ { State.reset with fifo := [⟨1, 2, 3⟩] }.fifo = [⟨1, 2, 3⟩]) :=
  ⟨⟨rfl, rfl⟩, rfl, rfl⟩

/-- Gated accesses while BUSY, well-formed and malformed, at both ends of the aperture. -/
theorem witness_BusyAccessesAreDropped :
    let s := cell 1 0x04 0 0x701
    s.busy = true ∧
    (Access.wr .w32 0x000 0).offset < apertureEnd ∧ (Access.wr .w32 0x000 0).ungated = false ∧
    (Access.wr .w32 0x000 0).malformed (par 8) s = false ∧
    (Access.rd .w8 0x2FFFFF).offset < apertureEnd ∧ (Access.rd .w8 0x2FFFFF).ungated = false ∧
    (Access.rd .w8 0x2FFFFF).malformed (par 8) s = true := by decide

theorem witness_AccessErrorFlags :
    (∀ v, Access.rd .w32 0x008 ≠ .wr .w32 0x008 v) ∧ (∀ v, Access.wr .w8 0x008 0 ≠ .wr .w32 0x008 v) ∧
    (∃ t, hostAccess (.rd .w32 0x008) State.reset = .next t) ∧
    (∃ t, hostAccess (.wr .w8 0x008 0) State.reset = .next t) :=
  ⟨fun _ => nofun, fun _ => nofun, ⟨_, rfl⟩, ⟨_, rfl⟩⟩

theorem witness_ReadsAreLittleEndian :
    State.reset.phase = .idle ∧ (blockBase ≤ 0x1000 ∧ 0x11BC < bufferEnd) ∧
    (grayBase ≤ 0x100000 ∧ 0x2FFFFC < apertureEnd) ∧ 0x11BC % 4 = 0 ∧ 0x2FFFFC % 4 = 0 ∧ 0x2FFFFE % 2 = 0 := by decide

theorem witness_MisalignedAccessesAreRejected :
    0x2FFFFF < apertureEnd ∧ 0x2FFFFF % Width.lanes .w16 ≠ 0 ∧ 0x001 % Width.lanes .w32 ≠ 0 ∧
    (Width.w8 ≠ .w32 ∧ 0xFFF < 0x1000) ∧ (Width.w16 ≠ .w32 ∧ 0x2000 ≤ 0x2FFE ∧ 0x2FFE < 0x3000) := by decide

/-- Both ends of each reserved range. -/
theorem witness_ReservedOffsetsSetAccerr :
    reservedOffset 0x03C = true ∧ reservedOffset 0xFFF = true ∧ reservedOffset 0x11C0 = true ∧
    reservedOffset 0x1FFF = true ∧ reservedOffset 0x3000 = true ∧ reservedOffset 0xFFFFF = true := by decide

/-- Each kind of read-only location, at the boundaries of its range. -/
theorem witness_ReadOnlyWritesAreIgnored :
    [0x004, 0x01C, 0x038, 0x1100, 0x11BF, 0x2000, 0x2024, 0x2028, 0x2FF8, 0x200000, 0x2FFFFF].all
      (fun off => readOnlyOffset State.reset off && decide (off < apertureEnd)) = true ∧
    readOnlyOffset { State.reset with regionNext := 3 } 0x2028 = false := by decide

theorem witness_ByteWindowWrites :
    State.reset.phase = .idle ∧ 0x10FC % Width.lanes .w32 = 0 ∧ (blockBase ≤ 0x10FC ∧ 0x10FC < blockBase + 256) ∧
    0x1FFFFC % Width.lanes .w32 = 0 ∧ (grayBase ≤ 0x1FFFFC ∧ 0x1FFFFC < labelBase) := by decide

/-- An offset inside the 1×1 image, the first beyond it, the last of the window, and the ends of the buffers. -/
theorem witness_ImageByteReads :
    let s := { State.reset with width := 1, height := 1 }
    s.phase = .idle ∧ 0 < s.width.toNat * s.height.toNat ∧ s.width.toNat * s.height.toNat ≤ 1 ∧
    2 ^ 20 - 1 < 2 ^ 20 ∧ s.width.toNat * s.height.toNat ≤ 2 ^ 20 - 1 ∧ 255 < 256 ∧ 63 < 64 := by decide

/-- ARG0 and ARG1 are written while idle. -/
theorem witness_FlagRegisterWrites : State.reset.phase = .idle := rfl

/-- The least and the greatest allocated entry, and the unallocated ones next to them. -/
theorem witness_RegionTableAccess :
    let s := { State.reset with regionNext := 256 }
    s.phase = .idle ∧
    (2 ≤ (2 : BitVec 8).toNat ∧ (2 : BitVec 8).toNat < s.regionNext.toNat) ∧
    (2 ≤ (255 : BitVec 8).toNat ∧ (255 : BitVec 8).toNat < s.regionNext.toNat) ∧
    ¬ (2 ≤ (1 : BitVec 8).toNat ∧ (1 : BitVec 8).toNat < s.regionNext.toNat) ∧
    ¬ (2 ≤ (2 : BitVec 8).toNat ∧ (2 : BitVec 8).toNat < State.reset.regionNext.toNat) := by decide

theorem witness_SpanRegistersPop :
    { State.reset with fifo := [⟨1, 2, 3⟩] }.fifo = [⟨1, 2, 3⟩] ∧ State.reset.fifo = [] := by decide

theorem witness_ReadsAreIdempotent : (0x034 : Nat) ≠ 0x038 ∧ (0x008 : Nat) ≠ 0x038 := by decide

theorem witness_StatusWordFields :
    { State.reset with fifo := List.replicate 255 ⟨0, 0, 0⟩ }.fifo.length ≤ 255 ∧ State.reset.fifo.length ≤ 255 :=
  ⟨Nat.le_of_eq List.length_replicate, by decide⟩

theorem witness_PlatformResetAbandonsCommand :
    (midFill none []).busy = true ∧ { midFill none [] with agenda := [.reset] }.agenda = [.reset] := by decide

theorem witness_TableProductIsFieldProduct :
    (1 : Byte) ≠ 0 ∧ (255 : Byte) ≠ 0 ∧ (255 : Byte).toNat ≤ 255 ∧ (15 : Byte) ≠ 0 ∧ (15 : Byte).toNat ≤ 15 := by decide

/-- The spot values of R193 and 95 §4. -/
theorem test_table_products :
    (gf256 0).mul 0x53 0xCA = 0x8F ∧ (gf256 0).mul 2 0x80 = 0x1D ∧ (gf256 0).div 1 2 = 0x8E ∧
    gf16.mul 7 7 = 6 ∧ gf16.mul 9 9 = 13 := by decide

theorem witness_BerlekampMasseyBounds :
    63 ≤ 63 ∧ ∀ k, k < 63 → polyCoef polyZero k = 0 := ⟨by decide, by decide⟩

/-- The zero word is valid; its three lowest bits are flipped. V-FMT-9's all-ones word is another. -/
theorem witness_FmtCorrectsThreeErrors :
    allZero (fmtSyndromes 0) 6 = true ∧ allZero (fmtSyndromes 0x7FFF) 6 = true ∧
    (List.range 15).countP (fun i => (7 : BitVec 15).getLsbD i) ≤ 3 ∧
    (issued 0 0 [] false 0x05 7 0).cur.fmtWord = (0 : BitVec 15) ^^^ 7 := by decide +kernel

/-- The two branches of FMT_CORRECT's statement. -/
theorem witness_FmtCorrectResult :
    allZero (fmtSyndromes ((issued 0 0 [] false 0x05 0x23D6 0).cur.arg0.extractLsb' 0 15)) 6 = true ∧
    allZero (fmtSyndromes ((issued 0 0 [] false 0x05 0x23D9 0).cur.arg0.extractLsb' 0 15)) 6 = false := by
  decide +kernel

/-- The two operands of an RS_CORRECT issued on ARG0 = `v`. -/
def rsOperands (v : Word) : Nat × Nat :=
  (((issued 0 0 [] false 0x06 v 0).cur.arg0.extractLsb' 0 8).toNat,
    ((issued 0 0 [] false 0x06 v 0).cur.arg0.extractLsb' 8 8).toNat)

theorem rsOperands_eq (v : Word) : rsOperands v = ((v.extractLsb' 0 8).toNat, (v.extractLsb' 8 8).toNat) := rfl

/-- bs = 0; dw = bs; npar = 64 at both ends: each is illegal. -/
theorem witness_RsOperandCheck :
    rsOperands 0x0 = (0, 0) ∧ rsOperands 0x505 = (5, 5) ∧ rsOperands 0x40 = (64, 0) ∧ rsOperands 0xBFFF = (255, 191) ∧
    5 ≤ 5 ∧ 63 < 64 - 0 ∧ 63 < 255 - 191 := by
  simp only [rsOperands_eq]; decide

/-- V-RS-4: from its syndromes and σ, the three coefficients of ω and of σ′, by the model and by the statement's formulas. -/
theorem test_rs_polynomials :
    let poly := fun l : List Nat => l.map (BitVec.ofNat 8)
    let S := poly [137, 53, 18, 246, 239, 103, 238, 162, 83, 5]
    let sigma := poly [1, 236, 242, 181]
    (evaluator (gf256 0) S sigma 10).take 5 = poly [53, 195, 248, 0, 0] ∧
    (List.range 5).map (Sys2Proof.Claims.omegaCoef (polyCoef S) (polyCoef sigma) 10) = poly [53, 195, 248, 0, 0] ∧
    (polyDeriv sigma).take 4 = poly [236, 0, 181, 0] ∧
    (List.range 4).map (Sys2Proof.Claims.derivCoef (polyCoef sigma)) = poly [236, 0, 181, 0] := by decide +kernel

/-- The least block, and the greatest with npar = 63; the first without an error and with one (V-RS-13, V-RS-14). -/
theorem witness_RsCorrectResult :
    rsOperands 0x1 = (1, 0) ∧ rsOperands 0xC0FF = (255, 192) ∧ (1 ≠ 0 ∧ 0 < 1 ∧ 1 - 0 ≤ 63) ∧
    (255 ≠ 0 ∧ 192 < 255 ∧ 255 - 192 ≤ 63) ∧
    (issued 0 0 (bytesAt blockBase [0]) false 0x06 0x1 0).block 0 = 0 ∧
    (issued 0 0 (bytesAt blockBase [7]) false 0x06 0x1 0).block 0 = 7 := by
  simp only [rsOperands_eq]
  refine ⟨by decide, by decide, by decide, by decide, by decide, by decide⟩

/-- V-RS-8: the encoding of 1 2 3 4 with its last byte changed. -/
theorem witness_RsCorrectsOneError :
    let valid := issued 0 0 (bytesAt blockBase [1, 2, 3, 4, 4, 0]) false 0x06 0x406 0
    let s := issued 0 0 (bytesAt blockBase [1, 2, 3, 4, 4, 1]) false 0x06 0x406 0
    (s.cur.arg0.extractLsb' 0 8).toNat = 6 ∧ (s.cur.arg0.extractLsb' 8 8).toNat = 4 ∧ 2 ≤ 6 - 4 ∧ 5 < 6 ∧ (1 : Byte) ≠ 0 ∧
    allZero (rsSyndromes (gf256 0) valid 6 2) 2 = true ∧
    ∀ k, k < 6 → s.block k = if k = 5 then valid.block k ^^^ 1 else valid.block k := by
  refine ⟨by decide, by decide, by decide, by decide, by decide, by decide +kernel, by decide⟩

/-- A state that meets the invariant, and a step from it that answers a next state. -/
theorem witness_StepKeepsInvariant :
    Inv Config.params (midFill none []) ∧ ∃ t, step (midFill none []) = .next t :=
  ⟨midFill_inv _ _ (Nat.zero_le _), _, rfl⟩

end Sys2Proof.Tests
end

