-- ==== Sys2Proof/Proofs/StepAgenda.lean ====
section
/-! One equation of `step` per event the agenda can name next (R74, log entry 1), and what they say of an idle
engine (R6). -/

namespace Sys2Proof.Machine

/-- With no event left the engine takes its turn (log entry 1). -/
theorem step_of_agenda_nil {s : State} (h : s.agenda = []) : step s = engineStep s := by
  unfold step; rw [h]

theorem step_of_agenda_engine {s : State} {rest : List Event} (h : s.agenda = .engine :: rest) :
    step s = engineStep { s with agenda := rest } := by
  unfold step; rw [h]

theorem step_of_agenda_host {s : State} {a : Access} {rest : List Event} (h : s.agenda = .host a :: rest) :
    step s = hostAccess a { s with agenda := rest } := by
  unfold step; rw [h]

theorem step_of_agenda_reset {s : State} {rest : List Event} (h : s.agenda = .reset :: rest) :
    step s = .next (State.platformReset { s with agenda := rest }) := by
  unfold step; rw [h]

/-- Settles O6: each clause is the equation of `step` for that agenda; the turn of an idle engine is
`engineStep_idle`. -/
theorem stepFollowsAgenda : Obligations.StepFollowsAgenda := by
  intro s rest
  refine ⟨fun hidle hagenda => ?engine, fun hidle hagenda => ?none, fun _ => step_of_agenda_host,
    step_of_agenda_reset⟩
  case engine =>
    have hidle' : ({ s with agenda := rest } : State).phase = .idle := hidle
    rw [step_of_agenda_engine hagenda, engineStep_idle hidle']
  case none => rw [step_of_agenda_nil hagenda, engineStep_idle hidle]

end Sys2Proof.Machine
end

