-- ==== Sys2Proof/Proofs/MemoryWrites.lean ====
section
/-! Writes of memory bytes at offsets that meet a predicate: what they keep of the state, of the canonical form and of
every other byte. -/

namespace Sys2Proof.Machine

/-- The offset is written since its contents last became unspecified (R10, log entry 5). -/
abbrev Memory.listed (m : Memory) (a : Nat) : Prop := (Memory.lookup m a).isSome = true

/-- `t` is `s` after writes of bytes at offsets that meet `P`: the memory stays canonical, no byte gets unlisted, and an
offset outside `P` keeps its listing and its byte. -/
structure WritesWithin (P : Nat → Prop) (s t : State) : Prop where
  eq : t = { s with mem := t.mem }
  wf : Memory.wf s.mem → Memory.wf t.mem
  listed : ∀ a, Memory.listed s.mem a → Memory.listed t.mem a
  lookup : ∀ a, ¬ P a → Memory.lookup t.mem a = Memory.lookup s.mem a

namespace WritesWithin

variable {P : Nat → Prop} {s t u : State}

theorem refl (P : Nat → Prop) (s : State) : WritesWithin P s s := ⟨rfl, id, fun _ => id, fun _ _ => rfl⟩

theorem trans (h : WritesWithin P s t) (h' : WritesWithin P t u) : WritesWithin P s u where
  eq := by
    have ht := h.eq
    have hu := h'.eq
    rw [ht] at hu
    exact hu
  wf hs := h'.wf (h.wf hs)
  listed a ha := h'.listed a (h.listed a ha)
  lookup a ha := (h'.lookup a ha).trans (h.lookup a ha)

theorem writeByte (s : State) {a : Nat} (b : Byte) (ha : P a) : WritesWithin P s (s.writeByte a b) where
  eq := rfl
  wf hs := Memory.wf_write hs a b
  listed c hc := by
    rw [Memory.listed, State.writeByte_mem, Memory.lookup_write]
    split
    · rfl
    · exact hc
  lookup c hc := by
    rw [State.writeByte_mem, Memory.lookup_write, if_neg]
    rintro rfl
    exact hc ha

theorem writeBytes (s : State) {base n : Nat} (f : Nat → Byte) (hP : ∀ a, base ≤ a → a < base + n → P a) :
    WritesWithin P s (s.writeBytes base n f) where
  eq := rfl
  wf hs := Memory.wf_writeRange hs base n f
  listed c hc := by
    rw [Memory.listed, State.writeBytes_mem, Memory.lookup_writeRange]
    split
    · rfl
    · exact hc
  lookup c hc := by
    rw [State.writeBytes_mem, Memory.lookup_writeRange, if_neg fun h => hc (hP c h.1 h.2)]

/-- A loop whose every turn writes within `P` writes within `P`. -/
theorem foldl {α β : Type} (toState : α → State) (f : α → β → α) (l : List β) (x : α)
    (hf : ∀ i ∈ l, ∀ y, WritesWithin P (toState y) (toState (f y i))) :
    WritesWithin P (toState x) (toState (l.foldl f x)) := by
  induction l generalizing x with
  | nil => exact refl P _
  | cons i l ih =>
    exact (hf i (by simp) x).trans (ih (f x i) fun j hj => hf j (by simp [hj]))

/-- An access writes within `P` when every lane it writes has its offset there (R61, R65). -/
theorem writeLanes (s : State) (base : Nat) (w : Width) (v : Word) (ok : Nat → Bool)
    (hP : ∀ k, k < w.lanes → ok k = true → P (base + k)) : WritesWithin P s (s.writeLanes base w v ok) := by
  refine foldl id _ _ s fun k hk y => ?_
  dsimp only [id]
  split
  · exact writeByte y _ (hP k (List.mem_range.mp hk) ‹_›)
  · exact refl P y

/-- Only offsets in `P` get listed. -/
theorem listed_or (h : WritesWithin P s t) {a : Nat} (ha : Memory.listed t.mem a) : Memory.listed s.mem a ∨ P a := by
  by_cases hp : P a
  · exact .inr hp
  · rw [Memory.listed, h.lookup a hp] at ha
    exact .inl ha

theorem readByte (h : WritesWithin P s t) {a : Nat} (ha : ¬ P a) : t.readByte a = s.readByte a := by
  have hi : t.imageDraws = s.imageDraws := by rw [h.eq]
  have hb : t.bufferDraws = s.bufferDraws := by rw [h.eq]
  rw [State.readByte, State.readByte, h.lookup a ha, State.unlisted_congr hi hb]

end WritesWithin

/-! ## The buffers and the labels -/

/-- The offset lies in BLOCK, SYND, SIGMA or OMEGA (R60). -/
abbrev InBuffers (a : Nat) : Prop := blockBase ≤ a ∧ a < bufferEnd

/-- The offset is the GRAY byte or the LABEL cell of a pixel, when the window at `base` holds `n` of them (R36, R37). -/
abbrev InImage (base n a : Nat) : Prop := base ≤ a ∧ a < base + n

theorem writeEccArrays_within (s : State) (synd sigma omega : Poly) :
    WritesWithin InBuffers s (writeEccArrays s synd sigma omega) :=
  have within (base : Nat) (hlo : blockBase ≤ base) (hhi : base + maxPoly ≤ bufferEnd) (t : State) (P : Poly) :
      WritesWithin InBuffers t (t.writeBytes base maxPoly (polyCoef P)) :=
    .writeBytes t _ fun _ _ _ => ⟨by omega, by omega⟩
  ((within syndBase (by decide) (by decide) s _).trans (within sigmaBase (by decide) (by decide) _ _)).trans
    (within omegaBase (by decide) (by decide) _ _)

theorem rsCorrectBlock_within (F : FieldTables) (sigma deriv omega : Poly) {bs : Nat} (hbs : bs ≤ 256) (s : State) :
    WritesWithin InBuffers s (rsCorrectBlock F sigma deriv omega bs s).1 := by
  rw [rsCorrectBlock_eq]
  refine WritesWithin.foldl Prod.fst _ _ (s, 0) fun i hi acc => ?_
  have hlt : i < bs := List.mem_range.mp hi
  unfold correctTurn
  cases rsMagnitude F sigma deriv omega i with
  | none => exact .refl _ _
  | some e => exact .writeByte _ _ ⟨by omega, by simp only [blockBase, bufferEnd]; omega⟩

theorem labelImage_within (s : State) (w h : Nat) (t : Byte) (inv : Bool) :
    WritesWithin (InImage labelBase (w * h)) s (labelImage s w h t inv) :=
  .writeBytes s _ fun _ h1 h2 => ⟨h1, h2⟩

end Sys2Proof.Machine
end

