-- ==== Sys2Proof/Proofs/CommandWork.lean ====
section
/-! What a turn of the engine and an answered host access can do, said once: the work each command does before it
completes (R121), the first span of a FILL.SPANS, and the later turns of one (R170). -/

namespace Sys2Proof.Machine

/-- FMT_CORRECT writes the three arrays and completes (R220, R223). -/
theorem fmtCommand_cases (op : BitVec 4) (s : State) :
    ∃ u code r0 r1, WritesWithin InBuffers s u ∧ fmtCommand op s = u.complete op code r0 r1 := by
  cases hz : allZero (fmtSyndromes s.cur.fmtWord) fmtSynd with
  | true => exact ⟨_, _, _, _, writeEccArrays_within _ _ _ _, fmtCommand_clean hz⟩
  | false =>
    rw [fmtCommand_errors hz]
    split <;> exact ⟨_, _, _, _, writeEccArrays_within _ _ _ _, rfl⟩

/-- RS_CORRECT writes at most the three arrays and the block, and completes (R224, R230). -/
theorem rsCommand_cases (p : Params) (op : BitVec 4) (s : State) :
    ∃ u code r0 r1, WritesWithin InBuffers s u ∧ rsCommand p op s = u.complete op code r0 r1 := by
  cases hp : rsBadParam s.cur.blockSize s.cur.dataWords with
  | true => exact ⟨_, _, _, _, .refl _ _, rsCommand_badParam hp⟩
  | false =>
    cases hz : allZero (rsSyndromes (gf256 p.log0) s s.cur.blockSize (s.cur.blockSize - s.cur.dataWords))
        (s.cur.blockSize - s.cur.dataWords) with
    | true => exact ⟨_, _, _, _, writeEccArrays_within _ _ _ _, rsCommand_clean hp hz⟩
    | false =>
      have hbs : s.cur.blockSize ≤ 256 := Nat.le_of_lt (s.cur.arg0.extractLsb' 0 8).isLt
      exact ⟨_, _, _, _, (writeEccArrays_within _ _ _ _).trans (rsCorrectBlock_within _ _ _ _ hbs _),
        rsCommand_errors hp rfl rfl hz rfl rfl⟩

/-- The result of FILL's flood, before FF_OVF is set (R168). -/
def fillFlood (p : Params) (s : State) : Fill × Bool :=
  flood (fillCtx p s.cur) s.cur.seedX.toNat s.cur.seedY.toNat { s with ffOvf := false }

/-- The first span of a FILL.SPANS, visited on the emptied FIFO (R168, R170). -/
def firstSpan (p : Params) (s : State) : Fill × Span :=
  visitLine (fillCtx p s.cur) (Fill.start { s with ffOvf := false, fifo := [] }) s.cur.seedX.toNat s.cur.seedY.toNat

theorem labelsOnly_fillFlood (p : Params) (s : State) : LabelsOnly { s with ffOvf := false } (fillFlood p s).1.s :=
  labelsOnly_flood _ _ _ _

theorem labelsOnly_firstSpan (p : Params) (s : State) :
    LabelsOnly { s with ffOvf := false, fifo := [] } (firstSpan p s).1.s :=
  labelsOnly_visitLine _ (Fill.start { s with ffOvf := false, fifo := [] }) _ _

/-- `Work i s u`: the block is `u` when command `i`, issued in `s`, has done everything but complete (R121). -/
inductive Work : Instr → State → State → Prop where
  /-- NOP, a reserved opcode or a failing check: nothing is done (R122, R124, R126). -/
  | nothing {i : Instr} {s : State} : Work i s s
  /-- BEGIN (R125). -/
  | newFrame {s : State} : Work .beginFrame s (s.newFrame false)
  /-- THRESHOLD on an image (R148). -/
  | labelled {i : Instr} {s : State} (t : Byte) (inv : Bool) (hi : i = .threshold ∨ i = .thresholdInv)
      (hw : s.cur.w ≠ 0) (hh : s.cur.h ≠ 0) :
      Work i s (State.newFrame { labelImage s s.cur.w s.cur.h t inv with threshT := t, threshInv := inv } true)
  /-- REGION_CODE without an allocation (R166). -/
  | answered {s : State} : Work .regionCode s { s with ffOvf := false }
  /-- REGION_CODE's NEW case (R165, R167). -/
  | allocated {s : State} (hseed : s.cur.seedInImage = true) (hnext : s.regionNext.toNat < 2 + Config.params.maxRegions) :
      Work .regionCode s (allocateRegion Config.params { s with ffOvf := false })
  /-- FILL (R168). -/
  | filled {s : State} (hseed : s.cur.seedInImage = true) :
      Work .fill s { (fillFlood Config.params s).1.s with ffOvf := (fillFlood Config.params s).2 }
  /-- FMT_CORRECT and RS_CORRECT (R220, R224). -/
  | corrected {i : Instr} {s u : State} (h : WritesWithin InBuffers s u) : Work i s u

/-- A command does its work and completes, or is a FILL.SPANS that pushes its first span (R121, R170). -/
def Runs (i : Instr) (s t : State) : Prop :=
  (∃ u op code r0 r1, Work i s u ∧ t = u.complete op code r0 r1) ∨
  (i = .fillSpans ∧ fillCheck s = none ∧
    t = pushSpan Config.params s.ffOvf (firstSpan Config.params s).1 (firstSpan Config.params s).2)

theorem Runs.of_work {i : Instr} {s t u : State} {op : BitVec 4} {code : StatusCode} {r0 r1 : Word} (hw : Work i s u)
    (ht : t = u.complete op code r0 r1) : Runs i s t := .inl ⟨u, op, code, r0, r1, hw, ht⟩

theorem runs_threshold {i : Instr} (hi : i = .threshold ∨ i = .thresholdInv) (p : Params) (op : BitVec 4) (inv : Bool)
    (s : State) : Runs i s (thresholdCommand p op inv s) := by
  by_cases h : s.cur.w = 0 ∨ s.cur.h = 0
  · exact .of_work .nothing (thresholdCommand_notReady p op inv s h)
  · obtain ⟨hw, hh⟩ := not_or.mp h
    exact .of_work (.labelled _ inv hi hw hh) (thresholdCommand_ready p op inv s hw hh)

theorem runs_regionCode (op : BitVec 4) (s : State) : Runs .regionCode s (regionCodeCommand Config.params op s) := by
  rcases regionCodeCommand_cases Config.params op s with h | ⟨r0, r1, h⟩ | ⟨hv, hi, hl, hr⟩
  · exact .of_work .nothing h
  · exact .of_work .answered h
  · exact .of_work (.allocated hi hr) (regionCodeCommand_new hv hi hl hr)

theorem runs_fill (op : BitVec 4) (s : State) : Runs .fill s (fillCommand Config.params op s) := by
  cases h : fillCheck s with
  | some code => exact .of_work .nothing (fillCommand_error h)
  | none =>
    obtain ⟨_, hseed, _, _⟩ := fillCheck_none h
    exact .of_work (.filled hseed) (fillCommand_ok h)

theorem runs_fillSpans (op : BitVec 4) (s : State) : Runs .fillSpans s (fillSpansStart Config.params op s) := by
  cases h : fillCheck s with
  | some code => exact .of_work .nothing (fillSpansStart_error h)
  | none =>
    refine .inr ⟨rfl, h, ?_⟩
    unfold fillSpansStart
    rw [h]
    rfl

/-- What a command in its turn can do. -/
theorem exec_runs {i : Instr} {s t : State} (h : exec i s = .next t) : Runs i s t := by
  cases i <;> injection h with h <;> subst h
  case nop => exact .of_work .nothing rfl
  case beginFrame => exact .of_work .newFrame rfl
  case threshold => exact runs_threshold (.inl rfl) _ _ _ s
  case thresholdInv => exact runs_threshold (.inr rfl) _ _ _ s
  case regionCode => exact runs_regionCode _ s
  case fill => exact runs_fill _ s
  case fillSpans => exact runs_fillSpans _ s
  case fmtCorrect =>
    obtain ⟨u, code, r0, r1, hu, h⟩ := fmtCommand_cases Instr.fmtCorrect.opcode s
    exact .of_work (.corrected hu) h
  case rsCorrect =>
    obtain ⟨u, code, r0, r1, hu, h⟩ := rsCommand_cases Config.params Instr.rsCorrect.opcode s
    exact .of_work (.corrected hu) h
  case reserved7 => exact .of_work .nothing rfl
  case reserved8F op => exact .of_work .nothing rfl

/-- A later turn of a FILL.SPANS holds, pushes the span it held, completes, or goes on to a child (R161, R170). -/
theorem fillSpansContinue_cases (p : Params) (op : BitVec 4) (run : FillRun) (s : State) :
    fillSpansContinue p op run s = s ∨
    (∃ sp, run.held = some sp ∧
      fillSpansContinue p op run s = pushSpan p run.ffOvfBefore ⟨s, run.stack, run.spans, run.pixels⟩ sp) ∨
    (∃ ovf r0 r1, fillSpansContinue p op run s = State.complete { s with ffOvf := ovf } op .ok r0 r1) ∨
    ∃ stack x y, advance (fillCtx p s.cur) s run.stack = .child stack x y ∧
      fillSpansContinue p op run s =
        pushSpan p run.ffOvfBefore (visitLine (fillCtx p s.cur) ⟨s, stack, run.spans, run.pixels⟩ x y).1
          (visitLine (fillCtx p s.cur) ⟨s, stack, run.spans, run.pixels⟩ x y).2 := by
  unfold fillSpansContinue
  cases run.held with
  | some sp =>
    dsimp only
    split
    · exact .inr (.inl ⟨sp, rfl, rfl⟩)
    · exact .inl rfl
  | none =>
    cases advance (fillCtx p s.cur) s run.stack with
    | finished => exact .inr (.inr (.inl ⟨_, _, _, rfl⟩))
    | overflow stack => exact .inr (.inr (.inl ⟨_, _, _, rfl⟩))
    | child stack x y => exact .inr (.inr (.inr ⟨stack, x, y, rfl, rfl⟩))

/-- A turn of the engine leaves the block alone, runs the issued command, or goes on with a FILL.SPANS (R6, R120, R170). -/
theorem engineStep_cases {s t : State} (h : engineStep s = .next t) :
    (s.phase = .idle ∧ t = s) ∨
    (s.phase = .issued ∧ Runs (decode s.cur.word) s t) ∨
    ∃ run, s.phase = .filling run ∧ t = fillSpansContinue Config.params Instr.fillSpans.opcode run s := by
  cases hp : s.phase with
  | idle =>
    rw [engineStep_idle hp] at h
    exact .inl ⟨rfl, (Host.Outcome.next.inj h).symm⟩
  | issued =>
    rw [engineStep_issued hp] at h
    exact .inr (.inl ⟨rfl, exec_runs h⟩)
  | filling run =>
    rw [engineStep_filling hp] at h
    exact .inr (.inr ⟨run, rfl, (Host.Outcome.next.inj h).symm⟩)

/-- A host access that is answered lies inside the aperture and is one of the bus (R70). -/
theorem hostAccess_cases {a : Access} {s t : State} (h : hostAccess a s = .next t) :
    a.offset < apertureEnd ∧ t = busAccess Config.params a s := by
  by_cases hin : a.offset < apertureEnd
  · rw [hostAccess_inside s hin] at h
    exact ⟨hin, (Host.Outcome.next.inj h).symm⟩
  · rw [hostAccess_outside s (Nat.le_of_not_lt hin)] at h
    cases h

end Sys2Proof.Machine
end

