-- ==== Sys2Proof/Proofs/FillGeometry.lean ====
section
/-! A fill stays inside the image: every frame of its stack lies on it, so every cell it writes is a cell of it (R160, R161). -/

namespace Sys2Proof.Machine

/-- The frame is a span of the image of `c` with its cursors on it or just past it (R161). -/
abbrev FrameInside (c : FillCtx) (f : Frame) : Prop :=
  f.y.toNat < c.h ∧ f.right.toNat < c.w ∧ f.up.toNat ≤ f.right.toNat + 1 ∧ f.down.toNat ≤ f.right.toNat + 1

/-- Every frame of the stack is inside (R46). -/
abbrev StackInside (c : FillCtx) (stack : List Frame) : Prop := ∀ f ∈ stack, FrameInside c f

/-- Rows and columns of the image fit the fields of a frame (R27, R28, R46). -/
structure FillCtx.Fits (c : FillCtx) : Prop where
  w_lt : c.w < 2 ^ 16
  h_lt : c.h < 2 ^ 16

theorem fillCtx_fits (p : Params) (c : Cmd) : (fillCtx p c).Fits := ⟨c.width.isLt, c.height.isLt⟩

theorem regionCtx_fits (p : Params) (c : Cmd) (id : Byte) : (regionCtx p c id).Fits := ⟨c.width.isLt, c.height.isLt⟩

theorem toNat_ofNat_half {n : Nat} (h : n < 2 ^ 16) : (BitVec.ofNat 16 n).toNat = n := by
  rw [BitVec.toNat_ofNat, Nat.mod_eq_of_lt h]

section
variable {c : FillCtx} {s : State} {x y : Nat}

/-- The span of a line lies around its start and ends inside the image (R160). -/
theorem lineSpan_inside (hx : x < c.w) : (lineSpan c s x y).1 ≤ x ∧ x ≤ (lineSpan c s x y).2 ∧ (lineSpan c s x y).2 < c.w := by
  obtain ⟨hl, _, _⟩ := extendLeft_spec (c.isFrom s y) x
  obtain ⟨hr, hr', _, _⟩ := extendRight_spec (c.isFrom s y) (c.w - 1 - x) x
  refine ⟨hl, hr, ?_⟩
  show extendRight (c.isFrom s y) (c.w - 1 - x) x < c.w
  omega

/-- Relabelling a span of a row of the image writes cells of the image only (R37, R160). -/
theorem relabelSpan_within {l r : Nat} (hy : y < c.h) (hr : r < c.w) :
    WritesWithin (InImage labelBase (c.w * c.h)) s (relabelSpan c s y l r) := by
  refine .writeBytes s _ fun a hlo hhi => ⟨by omega, ?_⟩
  have hrow : (y + 1) * c.w ≤ c.w * c.h := by
    rw [Nat.mul_comm c.w]
    exact Nat.mul_le_mul_right _ hy
  rw [Nat.succ_mul] at hrow
  omega

theorem visitLine_within (f : Fill) (hx : x < c.w) (hy : y < c.h) :
    WritesWithin (InImage labelBase (c.w * c.h)) f.s (visitLine c f x y).1.s := by
  obtain ⟨_, _, hr⟩ := lineSpan_inside (s := f.s) (y := y) hx
  exact relabelSpan_within hy hr

/-- The frame a visited line pushes is inside (R161). -/
theorem visitLine_stackInside (hc : c.Fits) {f : Fill} (hf : StackInside c f.stack) (hx : x < c.w) (hy : y < c.h) :
    StackInside c (visitLine c f x y).1.stack := by
  obtain ⟨hl, hr, hrw⟩ := lineSpan_inside (s := f.s) (y := y) hx
  obtain ⟨hw, hh⟩ := hc
  intro g hg
  rcases List.mem_cons.mp hg with rfl | hg
  · unfold FrameInside
    dsimp only
    rw [toNat_ofNat_half (by omega), toNat_ofNat_half (by omega), toNat_ofNat_half (by omega)]
    omega
  · exact hf g hg

/-- A cursor at most one past the right end of a span stays so when its row is scanned (R161). -/
theorem scanRow_le {isFrom : Nat → Bool} {start right : Nat} (h : start ≤ right + 1) :
    (scanRow isFrom (right + 1 - start) start).1 ≤ right + 1 := by
  obtain ⟨_, hle, _⟩ := scanRow_spec isFrom (right + 1 - start) start
  omega

/-- A frame inside stays inside when its cursors are saved (R161). -/
theorem nextChild_inside (hc : c.Fits) {f : Frame} (hf : FrameInside c f) : FrameInside c (nextChild c s f).1 := by
  obtain ⟨hy, hr, hu, hd⟩ := hf
  obtain ⟨hw, hh⟩ := hc
  have saved {n : Nat} (h : n ≤ f.right.toNat + 1) : (BitVec.ofNat 16 n).toNat ≤ f.right.toNat + 1 := by
    rw [toNat_ofNat_half (by omega)]
    exact h
  have row (cond : Prop) [Decidable cond] (isFrom : Nat → Bool) {start : Nat} (h : start ≤ f.right.toNat + 1) :
      (if cond then scanRow isFrom (f.right.toNat + 1 - start) start else (start, false)).1 ≤ f.right.toNat + 1 := by
    split
    · exact scanRow_le h
    · exact h
  unfold nextChild
  extract_lets y right above below
  have habove : above.1 ≤ f.right.toNat + 1 := row _ _ hu
  have hbelow : below.1 ≤ f.right.toNat + 1 := row _ _ hd
  split
  · exact ⟨hy, hr, saved habove, hd⟩
  · exact ⟨hy, hr, saved habove, saved hbelow⟩

/-- The child a frame inside finds lies in the image (R161). -/
theorem nextChild_some_inside {f f' : Frame} (hf : FrameInside c f) (h : nextChild c s f = (f', some (x, y))) :
    x < c.w ∧ y < c.h := by
  obtain ⟨hy, hr, hu, hd⟩ := hf
  obtain ⟨_, _, _, ⟨_, rfl, _, hx⟩ | ⟨_, rfl, _, hx⟩⟩ := nextChild_some h <;> omega

/-- A fill that goes on has its child in the image, its stack inside and room on it (R161, R162). -/
theorem advance_child_inside (hc : c.Fits) {stack stack' : List Frame} (hs : StackInside c stack)
    (h : advance c s stack = .child stack' x y) :
    x < c.w ∧ y < c.h ∧ StackInside c stack' ∧ stack'.length < c.depth := by
  obtain ⟨f, f', below, hsuf, hn, rfl, hlen⟩ := advance_child h
  have hf : FrameInside c f := hs f (hsuf.subset (by simp))
  obtain ⟨hx, hy⟩ := nextChild_some_inside hf hn
  refine ⟨hx, hy, fun g hg => ?_, hlen⟩
  rcases List.mem_cons.mp hg with rfl | hg
  · have hin := nextChild_inside (s := s) hc hf
    rwa [hn] at hin
  · exact hs g (hsuf.subset (List.mem_cons_of_mem _ hg))

/-- A whole fill writes cells of the image only, however it ends (R161, R162). -/
theorem floodLoop_within (hc : c.Fits) (turns : Nat) {f : Fill} (hf : StackInside c f.stack) :
    WritesWithin (InImage labelBase (c.w * c.h)) f.s (floodLoop c turns f).1.s := by
  induction turns generalizing f with
  | zero => exact .refl _ _
  | succ turns ih =>
    rw [floodLoop]
    split
    · exact .refl _ _
    · exact .refl _ _
    · rename_i stack x y hadv
      obtain ⟨hx, hy, hstack, _⟩ := advance_child_inside hc hf hadv
      exact (visitLine_within { f with stack := stack } hx hy).trans (ih (visitLine_stackInside hc hstack hx hy))

theorem flood_within (hc : c.Fits) (hx : x < c.w) (hy : y < c.h) :
    WritesWithin (InImage labelBase (c.w * c.h)) s (flood c x y s).1.s :=
  have hstart : StackInside c (Fill.start s).stack := by simp [Fill.start, StackInside]
  (visitLine_within (Fill.start s) hx hy).trans (floodLoop_within hc _ (visitLine_stackInside hc hstart hx hy))

end

/-- The seed of a command lies in the image captured at its issue (R166, R169). -/
theorem Cmd.seed_lt {c : Cmd} (h : c.seedInImage = true) : c.seedX.toNat < c.w ∧ c.seedY.toNat < c.h := by
  simpa [Cmd.seedInImage] using h

end Sys2Proof.Machine
end

