-- ==== Sys2Proof/Proofs/Invariant.lean ====
section
/-! The invariant under each operation of the block, and so under every step: O60. -/

namespace Sys2Proof.Machine

/-! ## What the invariant speaks of -/

/-- The fields the invariant speaks of. -/
def invFields (s : State) :=
  (s.phase, s.cur, s.labelsValid, s.width, s.height, s.regionNext, s.arg0, s.arg1, s.fifo, s.mem)

/-- A change of the other fields keeps the invariant. -/
theorem Inv.congr {p : Params} {s t : State} (h : Inv p s) (hf : invFields t = invFields s) : Inv p t := by
  cases s
  cases t
  simp only [invFields, Prod.mk.injEq] at hf
  obtain ⟨rfl, rfl, rfl, rfl, rfl, rfl, rfl, rfl, rfl, rfl⟩ := hf
  exact ⟨h.mem_wf, h.mem_mapped, h.gray_inside, h.label_inside, h.width_le, h.height_le, h.labels_written, h.next_range,
    h.fifo_le, h.captured, h.filling⟩

/-- A byte at this offset may be listed while the image has `n` pixels (R60, R65, R148). -/
structure Writable (n a : Nat) : Prop where
  mapped : mapped a
  gray : grayBase ≤ a → a < labelBase → a < grayBase + n
  label : labelBase ≤ a → a < labelBase + n

theorem InBuffers.writable {n a : Nat} (h : InBuffers a) : Writable n a := by
  obtain ⟨h1, h2⟩ := h
  simp only [blockBase, bufferEnd] at h1 h2
  constructor <;> simp only [Machine.mapped, blockBase, bufferEnd, grayBase, labelBase] <;> omega

theorem InImage.writable_gray {n a : Nat} (hn : n ≤ 2 ^ 20) (h : InImage grayBase n a) : Writable n a := by
  obtain ⟨h1, h2⟩ := h
  simp only [grayBase] at h1 h2
  constructor <;> simp only [Machine.mapped, grayBase, labelBase, apertureEnd] <;> omega

theorem InImage.writable_label {n a : Nat} (hn : n ≤ 2 ^ 20) (h : InImage labelBase n a) : Writable n a := by
  obtain ⟨h1, h2⟩ := h
  simp only [labelBase] at h1 h2
  constructor <;> simp only [Machine.mapped, grayBase, labelBase, apertureEnd] <;> omega

section
variable {p : Params} {s t : State}

theorem Inv.writable (h : Inv p s) {a : Nat} (ha : Memory.listed s.mem a) : Writable s.imageSize a := by
  obtain ⟨c, hc, rfl⟩ := Memory.lookup_isSome.mp ha
  exact ⟨h.mem_mapped c hc, h.gray_inside c hc, h.label_inside c hc⟩

/-- The image fits its windows (R5, R60). -/
theorem Inv.imageSize_le (hp : p.legal) (h : Inv p s) : s.imageSize ≤ 2 ^ 20 := by
  obtain ⟨_, _, harea, _⟩ := hp
  exact (Nat.mul_le_mul h.width_le h.height_le).trans harea

/-! ## Operations that keep the phase -/

/-- Writes of bytes that may be listed keep the invariant. -/
theorem Inv.writesWithin {P : Nat → Prop} (h : Inv p s) (hw : WritesWithin P s t)
    (hP : ∀ a, P a → Writable s.imageSize a) : Inv p t := by
  have hnew : ∀ c ∈ t.mem, Writable s.imageSize c.1 := fun c hc =>
    (hw.listed_or (Memory.lookup_isSome.mpr ⟨c, hc, rfl⟩)).elim h.writable (hP c.1)
  have hall : Inv p { s with mem := t.mem } :=
    { h with
      mem_wf := hw.wf h.mem_wf
      mem_mapped := fun c hc => (hnew c hc).mapped
      gray_inside := fun c hc => (hnew c hc).gray
      label_inside := fun c hc => (hnew c hc).label
      labels_written := fun hv =>
        have hlab := h.labels_written hv
        ⟨hlab.1, fun o ho => hw.listed _ (hlab.2 o ho)⟩ }
  exact hw.eq ▸ hall

theorem Inv.withFifo (h : Inv p s) {fifo : List Span} (hf : fifo.length ≤ p.spanFifoDepth) :
    Inv p { s with fifo := fifo } := { h with fifo_le := hf }

theorem Inv.withRegionNext (h : Inv p s) {n : BitVec 9} (hn : 2 ≤ n.toNat ∧ n.toNat ≤ p.maxRegions + 2) :
    Inv p { s with regionNext := n } := { h with next_range := hn }

/-- A new frame keeps the invariant outside a FILL.SPANS, when the labels it declares valid are there (R125, R140). -/
theorem Inv.newFrame (h : Inv p s) (hphase : ∀ run, s.phase ≠ .filling run) {valid : Bool}
    (hvalid : valid = true → 0 < s.imageSize ∧ ∀ o, o < s.imageSize → Memory.listed s.mem (labelBase + o)) :
    Inv p (s.newFrame valid) :=
  { h with
    labels_written := hvalid
    next_range := ⟨Nat.le_refl 2, Nat.le_add_left 2 _⟩
    fifo_le := Nat.zero_le _
    filling := fun run hr => absurd hr (hphase run) }

/-! ## Operations that change the phase -/

theorem Inv.complete (h : Inv p s) (op : BitVec 4) (code : StatusCode) (r0 r1 : Word) :
    Inv p (s.complete op code r0 r1) :=
  { h with
    captured := fun hb => absurd hb Bool.false_ne_true
    filling := fun _ hr => Phase.noConfusion hr }

theorem Inv.issue (h : Inv p s) (w : Word) : Inv p (s.issue w) :=
  { h with
    captured := fun _ => ⟨rfl, rfl, rfl, rfl⟩
    filling := fun _ hr => Phase.noConfusion hr }

/-- What a fill in progress needs, beside its stack (R169). -/
structure FillsLabels (s : State) : Prop where
  busy : s.busy = true
  word : decode s.cur.word = .fillSpans
  valid : s.labelsValid = true
  labels : s.cur.fromLabel ≠ s.cur.toLabel

/-- The invariant's clause on the stack of a fill in progress (R46). -/
structure StackOk (p : Params) (c : Cmd) (stack : List Frame) : Prop where
  nonempty : 0 < stack.length
  le_depth : stack.length ≤ p.ffDepth
  inside : StackInside (fillCtx p c) stack

theorem Inv.withFilling (h : Inv p s) (hs : FillsLabels s) {run : FillRun} (hstack : StackOk p s.cur run.stack) :
    Inv p { s with phase := .filling run } :=
  { h with
    captured := fun _ => h.captured hs.busy
    filling := fun run' hr => by
      obtain rfl : run = run' := Phase.filling.inj hr
      exact ⟨hs.word, hs.valid, hs.labels, hstack.nonempty, hstack.le_depth, hstack.inside⟩ }

theorem Inv.pushSpan {f : Fill} (h : Inv p f.s) (hs : FillsLabels f.s) (hstack : StackOk p f.s.cur f.stack)
    (before : Bool) (sp : Span) : Inv p (pushSpan p before f sp) := by
  rcases pushSpan_cases p before f sp with ⟨hroom, heq⟩ | ⟨_, heq⟩ <;> rw [heq]
  · have hfifo : Inv p { f.s with fifo := f.s.fifo ++ [sp] } := h.withFifo (by simpa using hroom)
    exact hfifo.withFilling ⟨hs.busy, hs.word, hs.valid, hs.labels⟩ hstack
  · exact h.withFilling hs hstack

/-! ## Size writes and reset -/

/-- A resize to a legal size gives the invariant: what it leaves listed lies below the images (R27, R28, R127). -/
theorem Inv.resized (h : Inv p s) (hidle : s.busy = false) {w v : Half} (hw : w.toNat ≤ p.maxW) (hv : v.toNat ≤ p.maxH) :
    Inv p (State.resized { s with width := w, height := v }) where
  mem_wf := Memory.wf_dropImage h.mem_wf
  mem_mapped c hc := h.mem_mapped c (Memory.mem_dropImage hc).1
  gray_inside c hc hge _ := absurd (Memory.mem_dropImage hc).2 (Nat.not_lt.mpr hge)
  label_inside c hc hge := absurd (Memory.mem_dropImage hc).2 (by simp only [labelBase, grayBase] at *; omega)
  width_le := hw
  height_le := hv
  labels_written hvalid := absurd hvalid Bool.false_ne_true
  next_range := ⟨Nat.le_refl 2, Nat.le_add_left 2 _⟩
  fifo_le := Nat.zero_le _
  captured hb := absurd (hidle ▸ hb : false = true) Bool.false_ne_true
  filling run hr := by
    have hb : s.busy = true := by
      unfold State.busy
      rw [show s.phase = .filling run from hr]
    exact absurd (hidle ▸ hb) Bool.false_ne_true

theorem inv_platformReset (p : Params) (s : State) : Inv p s.platformReset where
  mem_wf := .nil
  mem_mapped _ hc := absurd hc List.not_mem_nil
  gray_inside _ hc := absurd hc List.not_mem_nil
  label_inside _ hc := absurd hc List.not_mem_nil
  width_le := Nat.zero_le _
  height_le := Nat.zero_le _
  labels_written hv := absurd hv Bool.false_ne_true
  next_range := ⟨Nat.le_refl 2, Nat.le_add_left 2 _⟩
  fifo_le := Nat.zero_le _
  captured hb := absurd hb Bool.false_ne_true
  filling _ hr := Phase.noConfusion hr


/-! ## Host accesses -/

theorem Inv.busRead (h : Inv p s) (w : Width) (off : Nat) : Inv p (busRead w off s).2 := by
  rcases busRead_state w off s with heq | heq | heq | ⟨sp, rest, hfifo, heq⟩ <;> rw [heq]
  · exact h
  · exact h.congr rfl
  · exact h.congr rfl
  · refine h.withFifo (Nat.le_trans ?_ h.fifo_le)
    rw [hfifo]
    exact Nat.le_succ _

/-- A write of lanes of BLOCK keeps the invariant, wherever in BLOCK the access begins (R38). -/
theorem Inv.writeBlockLanes (h : Inv p s) {off : Nat} (hlo : blockBase ≤ off) (hhi : off < syndBase) (w : Width) (v : Word)
    (ok : Nat → Bool) : Inv p (s.writeLanes off w v ok) := by
  have hlanes : w.lanes ≤ 4 := by cases w <;> decide
  refine h.writesWithin (.writeLanes (P := InBuffers) s off w v ok fun k hk _ => ?_) fun _ => InBuffers.writable
  simp only [InBuffers, blockBase, bufferEnd, syndBase] at *
  omega

/-- A write of the lanes of GRAY that lie in the image keeps the invariant (R65). -/
theorem Inv.writeGrayLanes (hp : p.legal) (h : Inv p s) {off : Nat} (hlo : grayBase ≤ off) (w : Width) (v : Word) :
    Inv p (s.writeLanes off w v fun k => decide (off - grayBase + k < s.imageSize)) := by
  refine h.writesWithin (.writeLanes (P := InImage grayBase s.imageSize) s off w v _ fun k _ hok => ?_)
    fun _ => InImage.writable_gray (h.imageSize_le hp)
  have hk : off - grayBase + k < s.imageSize := of_decide_eq_true hok
  exact ⟨by omega, by omega⟩

theorem Inv.busWrite (hp : p.legal) (h : Inv p s) (w : Width) (off : Nat) (v : Word) : Inv p (busWrite p w off v s) := by
  rcases busWrite_cases p w off v s with heq | heq | ⟨_, _, heq⟩ | ⟨_, _, heq⟩ | ⟨_, _, heq⟩ | ⟨hb, hact⟩
  case inr.inr.inr.inr.inr =>
    have notBusy {q : Prop} (hq : s.busy = true) : q := absurd (hb ▸ hq) Bool.false_ne_true
    rcases hact with ⟨_, _, heq⟩ | ⟨_, _, hw, heq⟩ | ⟨_, _, hv, heq⟩ | ⟨_, _, heq⟩ | ⟨_, _, heq⟩ |
      ⟨id, _, _, _, heq⟩ | ⟨hlo, hhi, heq⟩ | ⟨hlo, _, heq⟩ | ⟨hlo, _, heq⟩ <;> rw [heq]
    · exact h.issue v
    · exact h.resized hb hw h.height_le
    · exact h.resized hb h.width_le hv
    · exact { h with captured := notBusy }
    · exact { h with captured := notBusy }
    · exact h.congr rfl
    · exact h.writeBlockLanes hlo hhi w v _
    · exact h.writeGrayLanes hp hlo w v
    · exact (h.writeGrayLanes hp hlo w v).congr rfl
  all_goals rw [heq]; exact h.congr rfl

theorem Inv.hostAccess (h : Inv Config.params s) {a : Access} (ht : hostAccess a s = .next t) : Inv Config.params t := by
  obtain ⟨_, rfl⟩ := hostAccess_cases ht
  cases a with
  | rd w off => exact (h.busRead w off).congr rfl
  | wr w off v => exact h.busWrite Config.params_legal w off v

/-! ## Turns of the engine -/

/-- The stack has room for a first frame (R5). -/
theorem Config.ffDepth_pos : 0 < Config.params.ffDepth := by
  obtain ⟨_, _, _, _, hdepth, _⟩ := Config.params_legal
  exact hdepth

theorem Inv.capturedSize (h : Inv p s) (hb : s.busy = true) : s.cur.w * s.cur.h = s.imageSize := by
  obtain ⟨_, _, hw, hh⟩ := h.captured hb
  rw [Cmd.w, Cmd.h, hw, hh, State.imageSize]

/-- Writes of labels of the image captured at issue keep the invariant (R120, R148). -/
theorem Inv.writesLabels (hp : p.legal) (h : Inv p s) (hb : s.busy = true)
    (hw : WritesWithin (InImage labelBase (s.cur.w * s.cur.h)) s t) : Inv p t := by
  rw [h.capturedSize hb] at hw
  exact h.writesWithin hw fun _ => InImage.writable_label (h.imageSize_le hp)

/-- THRESHOLD leaves a label in every cell of the image (R44, R148). -/
theorem Inv.labelled (hp : p.legal) (h : Inv p s) (hs : s.phase = .issued) (hw : s.cur.w ≠ 0) (hh : s.cur.h ≠ 0)
    (t : Byte) (inv : Bool) :
    Inv p (State.newFrame { labelImage s s.cur.w s.cur.h t inv with threshT := t, threshInv := inv } true) := by
  have hb : s.busy = true := by simp [State.busy, hs]
  have hlab : Inv p (labelImage s s.cur.w s.cur.h t inv) := h.writesLabels hp hb (labelImage_within s _ _ t inv)
  refine (hlab.congr (t := { labelImage s s.cur.w s.cur.h t inv with threshT := t, threshInv := inv }) rfl).newFrame
    (fun run hr => ?_) fun _ => ⟨?_, fun o ho => ?_⟩
  · have hr' : s.phase = .filling run := hr
    simp [hs] at hr'
  · exact h.capturedSize hb ▸ Nat.mul_pos (Nat.pos_of_ne_zero hw) (Nat.pos_of_ne_zero hh)
  · have ho' : o < s.cur.w * s.cur.h := h.capturedSize hb ▸ ho
    show Memory.listed (Memory.writeRange s.mem labelBase (s.cur.w * s.cur.h) _) (labelBase + o)
    rw [Memory.listed, Memory.lookup_writeRange, if_pos ⟨by omega, by omega⟩]
    rfl

theorem Inv.allocated (hp : p.legal) (h : Inv p s) (hb : s.busy = true) (hseed : s.cur.seedInImage = true)
    (hnext : s.regionNext.toNat < 2 + p.maxRegions) : Inv p (allocateRegion p s) := by
  obtain ⟨hx, hy⟩ := Cmd.seed_lt hseed
  have hsucc : (s.regionNext + 1).toNat = s.regionNext.toNat + 1 := by
    obtain ⟨_, _, _, ⟨_, hregions⟩, _⟩ := hp
    rw [BitVec.toNat_add_of_lt (by simp; omega)]
    rfl
  have hs : Inv p { s with regionNext := s.regionNext + 1 } :=
    h.withRegionNext ⟨by have := h.next_range.1; omega, by omega⟩
  have hflood := hs.writesLabels hp hb (flood_within (regionCtx_fits p s.cur (s.regionNext.setWidth 8)) hx hy)
  exact hflood.congr rfl

theorem Inv.fillFlood (hp : p.legal) (h : Inv p s) (hb : s.busy = true) (hseed : s.cur.seedInImage = true) :
    Inv p (fillFlood p s).1.s := by
  obtain ⟨hx, hy⟩ := Cmd.seed_lt hseed
  have hs : Inv p { s with ffOvf := false } := h.congr rfl
  exact hs.writesLabels hp hb (flood_within (fillCtx_fits p s.cur) hx hy)

/-- Every command's work keeps the invariant. -/
theorem Inv.work (h : Inv Config.params s) (hs : s.phase = .issued) {i : Instr} {u : State} (hu : Work i s u) :
    Inv Config.params u := by
  have hb : s.busy = true := by simp [State.busy, hs]
  cases hu with
  | nothing => exact h
  | newFrame => exact h.newFrame (by simp [hs]) (by simp)
  | labelled t inv _ hw hh => exact h.labelled Config.params_legal hs hw hh t inv
  | answered => exact h.congr rfl
  | allocated hseed hnext =>
    have hs' : Inv Config.params { s with ffOvf := false } := h.congr rfl
    exact hs'.allocated Config.params_legal hb hseed hnext
  | filled hseed => exact (h.fillFlood Config.params_legal hb hseed).congr rfl
  | corrected hw => exact h.writesWithin hw fun _ => InBuffers.writable

/-- Visiting a line of the image and pushing its span keeps the invariant (R160, R170). -/
theorem Inv.visitAndPush (hp : p.legal) {f : Fill} (h : Inv p f.s) (hf : FillsLabels f.s) {x y : Nat}
    (hx : x < f.s.cur.w) (hy : y < f.s.cur.h) (hin : StackInside (fillCtx p f.s.cur) f.stack)
    (hroom : f.stack.length < p.ffDepth) (before : Bool) :
    Inv p (Machine.pushSpan p before (visitLine (fillCtx p f.s.cur) f x y).1 (visitLine (fillCtx p f.s.cur) f x y).2) := by
  have hinv := h.writesLabels hp hf.busy (visitLine_within (c := fillCtx p f.s.cur) f hx hy)
  exact hinv.pushSpan ⟨hf.busy, hf.word, hf.valid, hf.labels⟩
    ⟨Nat.succ_pos _, hroom, visitLine_stackInside (fillCtx_fits p f.s.cur) hin hx hy⟩ before _

theorem Inv.runs (h : Inv Config.params s) (hs : s.phase = .issued) (ht : Runs (decode s.cur.word) s t) :
    Inv Config.params t := by
  rcases ht with ⟨u, op, code, r0, r1, hu, rfl⟩ | ⟨hword, hcheck, rfl⟩
  · exact (h.work hs hu).complete op code r0 r1
  · obtain ⟨hvalid, hseed, hne, _⟩ := fillCheck_none hcheck
    obtain ⟨hx, hy⟩ := Cmd.seed_lt hseed
    have hb : s.busy = true := by simp [State.busy, hs]
    have hclear : Inv Config.params { s with ffOvf := false, fifo := [] } :=
      (h.withFifo (fifo := []) (Nat.zero_le _)).congr rfl
    exact Inv.visitAndPush (f := Fill.start { s with ffOvf := false, fifo := [] }) Config.params_legal hclear
      ⟨hb, hword, hvalid, hne⟩ hx hy (by simp [Fill.start, StackInside]) Config.ffDepth_pos _

theorem Inv.fillSpansContinue (h : Inv Config.params s) {run : FillRun} (hs : s.phase = .filling run) (op : BitVec 4) :
    Inv Config.params (fillSpansContinue Config.params op run s) := by
  obtain ⟨hword, hvalid, hne, hpos, hdepth, hin⟩ := h.filling run hs
  have hf : FillsLabels s := ⟨by simp [State.busy, hs], hword, hvalid, hne⟩
  rcases fillSpansContinue_cases Config.params op run s with heq | ⟨sp, _, heq⟩ | ⟨ovf, r0, r1, heq⟩ |
    ⟨stack, x, y, hadv, heq⟩ <;> rw [heq]
  · exact h
  · exact Inv.pushSpan (f := ⟨s, run.stack, run.spans, run.pixels⟩) h hf ⟨hpos, hdepth, hin⟩ _ sp
  · have hovf : Inv Config.params { s with ffOvf := ovf } := h.congr rfl
    exact hovf.complete op .ok r0 r1
  · obtain ⟨hx, hy, hstack, hroom⟩ := advance_child_inside (fillCtx_fits _ _) hin hadv
    exact Inv.visitAndPush (f := ⟨s, stack, run.spans, run.pixels⟩) Config.params_legal h hf hx hy hstack hroom _

theorem Inv.engineStep (h : Inv Config.params s) (ht : engineStep s = .next t) : Inv Config.params t := by
  rcases engineStep_cases ht with ⟨_, rfl⟩ | ⟨hs, hruns⟩ | ⟨run, hs, rfl⟩
  · exact h
  · exact h.runs hs hruns
  · exact h.fillSpansContinue hs _

end

/-- Settles O60: each of the three events a step can take keeps the invariant, and the rest of the agenda is no part of it. -/
theorem stepKeepsInvariant : Obligations.StepKeepsInvariant := by
  intro s t h ht
  have hrest (rest : List Event) : Inv Config.params { s with agenda := rest } := h.congr rfl
  rcases step_cases s with ⟨_, heq⟩ | ⟨rest, _, heq⟩ | ⟨a, rest, _, heq⟩ | ⟨rest, _, heq⟩ <;> rw [heq] at ht
  · exact h.engineStep ht
  · exact (hrest rest).engineStep ht
  · exact (hrest rest).hostAccess ht
  · exact Host.Outcome.next.inj ht ▸ inv_platformReset _ _

end Sys2Proof.Machine
end

