-- ==== Sys2Proof/Proofs/EngineFrame.lean ====
section
/-! What a turn of the engine leaves alone: the host's registers, GRAY and the shown part of STATUS (O33), and the region
table unless the turn is REGION_CODE's (O32). -/

namespace Sys2Proof.Machine

/-! ## Registers and GRAY -/

/-- The registers that no turn of the engine writes, and the two fields of the model's own that none touches. -/
def hostFields (s : State) :=
  (s.arg0, s.arg1, s.width, s.height, s.cur, s.errOverrun, s.errAccerr, s.doneEn, s.spanEn, s.agenda, s.readData)

/-- `t` has the host's registers and the GRAY bytes of `s` (R36, R79). -/
structure EngineFrame (s t : State) : Prop where
  fields : hostFields t = hostFields s
  gray : ∀ a, grayBase ≤ a → a < labelBase → t.readByte a = s.readByte a

namespace EngineFrame

variable {s t u : State}

theorem refl (s : State) : EngineFrame s s := ⟨rfl, fun _ _ _ => rfl⟩

theorem of_labelsOnly (h : LabelsOnly s t) : EngineFrame s t where
  fields := by
    rw [h.1.1]
    rfl
  gray a _ ha := h.2 a ha

theorem of_writesWithin (h : WritesWithin InBuffers s t) : EngineFrame s t where
  fields := by
    rw [h.eq]
    rfl
  gray a ha _ := h.readByte fun hin => by
    simp only [InBuffers, bufferEnd, grayBase] at hin ha
    omega

theorem labelImage (s : State) (w h : Nat) (x : Byte) (inv : Bool) : EngineFrame s (labelImage s w h x inv) where
  fields := rfl
  gray a _ ha := by rw [readByte_labelImage, if_neg (by omega)]

theorem work {i : Instr} (h : Work i s u) : EngineFrame s u := by
  cases h with
  | nothing => exact refl s
  | newFrame => exact ⟨rfl, fun _ _ _ => rfl⟩
  | labelled x inv =>
    have h := labelImage s s.cur.w s.cur.h x inv
    exact ⟨h.fields, h.gray⟩
  | answered => exact ⟨rfl, fun _ _ _ => rfl⟩
  | allocated =>
    have h := of_labelsOnly (labelsOnly_flood (regionCtx Config.params s.cur (s.regionNext.setWidth 8))
      s.cur.seedX.toNat s.cur.seedY.toNat { s with ffOvf := false, regionNext := s.regionNext + 1 })
    exact ⟨h.fields, h.gray⟩
  | filled =>
    have h := of_labelsOnly (labelsOnly_fillFlood Config.params s)
    exact ⟨h.fields, h.gray⟩
  | corrected h => exact of_writesWithin h

theorem pushSpan {f : Fill} (h : EngineFrame s f.s) (p : Params) (before : Bool) (sp : Span) :
    EngineFrame s (pushSpan p before f sp) := by
  rcases pushSpan_cases p before f sp with ⟨_, heq⟩ | ⟨_, heq⟩ <;> rw [heq] <;> exact ⟨h.fields, h.gray⟩

theorem runs {i : Instr} (h : Runs i s t) : EngineFrame s t := by
  rcases h with ⟨u, op, code, r0, r1, hu, rfl⟩ | ⟨_, _, rfl⟩
  · have h := work hu
    exact ⟨h.fields, h.gray⟩
  · have h := of_labelsOnly (labelsOnly_firstSpan Config.params s)
    have hspan : EngineFrame s (firstSpan Config.params s).1.s := ⟨h.fields, h.gray⟩
    exact pushSpan hspan _ _ _

theorem fillSpansContinue (p : Params) (op : BitVec 4) (run : FillRun) (s : State) :
    EngineFrame s (fillSpansContinue p op run s) := by
  rcases fillSpansContinue_cases p op run s with heq | ⟨sp, _, heq⟩ | ⟨ovf, r0, r1, heq⟩ | ⟨stack, x, y, _, heq⟩ <;> rw [heq]
  · exact refl s
  · exact pushSpan (f := ⟨s, run.stack, run.spans, run.pixels⟩) (refl s) p _ sp
  · exact ⟨rfl, fun _ _ _ => rfl⟩
  · exact pushSpan (of_labelsOnly (labelsOnly_visitLine _ ⟨s, stack, run.spans, run.pixels⟩ x y)) p _ _

theorem engineStep (h : engineStep s = .next t) : EngineFrame s t := by
  rcases engineStep_cases h with ⟨_, rfl⟩ | ⟨_, hruns⟩ | ⟨run, _, rfl⟩
  · exact refl t
  · exact runs hruns
  · exact fillSpansContinue _ _ run s

end EngineFrame

/-! ## STATUS while a command is BUSY -/

/-- What STATUS shows beside its span fields, and DONE (R23, R25). -/
def shownFields (s : State) := (s.intDone, s.lastOp, s.code, s.ffOvfShown, s.labelsValid, s.busy)

/-- STATUS below SPAN_COUNT, but for SPAN_NE, is made of those fields (R23). -/
theorem statusWord_congr {s t : State} (h : shownFields t = shownFields s) {k : Nat} (hk : k < 24) (hne : k ≠ 3) :
    t.statusWord.getLsbD k = s.statusWord.getLsbD k := by
  simp only [shownFields, Prod.mk.injEq] at h
  obtain ⟨-, hop, hcode, hovf, hvalid, hbusy⟩ := h
  unfold State.statusWord
  rw [hop, hcode, hovf, hvalid, hbusy]
  simp only [BitVec.getLsbD_append]
  rcases Nat.lt_or_gt_of_ne hne with hlt | hgt
  · have h3 : k - 1 - 1 < 1 := by omega
    simp only [h3, if_true]
  · have h0 : ¬ k < 1 := by omega
    have h1 : ¬ k - 1 < 1 := by omega
    have h2 : ¬ k - 1 - 1 < 1 := by omega
    have h3 : ¬ k - 1 - 1 - 1 < 1 := by omega
    have h4 : k - 1 - 1 - 1 - 1 - 4 - 8 - 4 < 4 := by omega
    simp only [h0, h1, h2, h3, h4, if_true, if_false]

/-- PUSH_SPAN shows nothing new but the span fields (R74, R170). -/
theorem shownFields_pushSpan (p : Params) (before : Bool) (f : Fill) (sp : Span) :
    shownFields (pushSpan p before f sp) = (f.s.intDone, f.s.lastOp, f.s.code, before, f.s.labelsValid, true) := by
  rcases pushSpan_cases p before f sp with ⟨_, heq⟩ | ⟨_, heq⟩ <;> rw [heq] <;> rfl

/-- A turn that leaves the command BUSY shows nothing new but the span fields (R74, log entry 26). -/
theorem shownFields_engineStep {s t : State} (h : engineStep s = .next t) (hb : t.busy = true) :
    shownFields t = shownFields s := by
  have notDone {u : State} {op : BitVec 4} {code : StatusCode} {r0 r1 : Word} {q : Prop}
      (hu : (u.complete op code r0 r1).busy = true) : q := absurd hu Bool.false_ne_true
  rcases engineStep_cases h with ⟨_, rfl⟩ | ⟨hs, ⟨u, op, code, r0, r1, _, rfl⟩ | ⟨_, _, rfl⟩⟩ | ⟨run, hs, rfl⟩
  · rfl
  · exact notDone hb
  · rw [shownFields_pushSpan, shownFields, State.ffOvfShown_issued hs, show s.busy = true by simp [State.busy, hs]]
    rfl
  · have shown : shownFields s = (s.intDone, s.lastOp, s.code, run.ffOvfBefore, s.labelsValid, true) := by
      rw [shownFields, State.ffOvfShown_filling hs, show s.busy = true by simp [State.busy, hs]]
    rcases fillSpansContinue_cases Config.params Instr.fillSpans.opcode run s with heq | ⟨sp, _, heq⟩ |
      ⟨ovf, r0, r1, heq⟩ | ⟨stack, x, y, _, heq⟩ <;> rw [heq] at hb ⊢
    · rw [shownFields_pushSpan, shown]
    · exact notDone hb
    · rw [shownFields_pushSpan, shown]
      rfl

/-- Settles O33: the frame of a turn, and what STATUS shows while the command stays BUSY. -/
theorem engineLeavesHostState : Obligations.EngineLeavesHostState := by
  intro s t h
  obtain ⟨hfields, hgray⟩ := EngineFrame.engineStep h
  simp only [hostFields, Prod.mk.injEq] at hfields
  obtain ⟨h0, h1, hw, hh, hcur, hover, hacc, hdone, hspan, hagenda, hread⟩ := hfields
  refine ⟨hgray, h0, h1, hw, hh, hcur, hover, hacc, hdone, hspan, hagenda, hread, fun hb => ?_⟩
  have hshown := shownFields_engineStep h hb
  exact ⟨congrArg Prod.fst hshown, fun k => statusWord_congr hshown⟩

/-! ## The region table -/

/-- The commands that write REGION_NEXT (R125, R140, R165). -/
abbrev MovesRegionNext (i : Instr) : Prop := i = .regionCode ∨ i = .beginFrame ∨ i = .threshold ∨ i = .thresholdInv

/-- `t` has the region table of `s` unless REGION_CODE ran, and its REGION_NEXT unless a command ran that moves it
(R43, R172). -/
def TableKept (i : Instr) (s t : State) : Prop :=
  (i ≠ .regionCode → t.regions = s.regions) ∧ (¬ MovesRegionNext i → t.regionNext = s.regionNext)

theorem TableKept.of_memOnly {i : Instr} {s t : State} (h : MemOnly s t) : TableKept i s t := by
  rw [h.1]
  exact ⟨fun _ => rfl, fun _ => rfl⟩

theorem TableKept.of_writesWithin {i : Instr} {P : Nat → Prop} {s t : State} (h : WritesWithin P s t) : TableKept i s t :=
  .of_memOnly ⟨h.eq, h.wf⟩

theorem TableKept.work {i : Instr} {s u : State} (h : Work i s u) : TableKept i s u := by
  cases h with
  | nothing => exact ⟨fun _ => rfl, fun _ => rfl⟩
  | newFrame => exact ⟨fun _ => rfl, fun hm => absurd (.inr (.inl rfl)) hm⟩
  | labelled x inv hi => exact ⟨fun _ => rfl, fun hm => absurd (.inr (.inr hi)) hm⟩
  | answered => exact ⟨fun _ => rfl, fun _ => rfl⟩
  | allocated => exact ⟨fun hne => absurd rfl hne, fun hm => absurd (.inl rfl) hm⟩
  | filled =>
    have h := of_memOnly (i := .fill) (labelsOnly_fillFlood Config.params s).1
    exact ⟨h.1, h.2⟩
  | corrected h => exact of_writesWithin h

theorem TableKept.pushSpan (i : Instr) (p : Params) (before : Bool) (f : Fill) (sp : Span) :
    TableKept i f.s (pushSpan p before f sp) := by
  rcases pushSpan_cases p before f sp with ⟨_, heq⟩ | ⟨_, heq⟩ <;> rw [heq] <;> exact ⟨fun _ => rfl, fun _ => rfl⟩

theorem TableKept.runs {i : Instr} {s t : State} (h : Runs i s t) : TableKept i s t := by
  rcases h with ⟨u, op, code, r0, r1, hu, rfl⟩ | ⟨_, _, rfl⟩
  · have h := work hu
    exact ⟨h.1, h.2⟩
  · have hspan := of_memOnly (i := i) (labelsOnly_firstSpan Config.params s).1
    have hpush := pushSpan i Config.params s.ffOvf (firstSpan Config.params s).1 (firstSpan Config.params s).2
    exact ⟨fun hne => (hpush.1 hne).trans (hspan.1 hne), fun hm => (hpush.2 hm).trans (hspan.2 hm)⟩

/-- No later turn of a FILL.SPANS writes the table (R170). -/
theorem fillSpansContinue_table (p : Params) (op : BitVec 4) (run : FillRun) (s : State) :
    (fillSpansContinue p op run s).regions = s.regions ∧ (fillSpansContinue p op run s).regionNext = s.regionNext := by
  have pushed (before : Bool) (f : Fill) (sp : Span) : (pushSpan p before f sp).regions = f.s.regions ∧
      (pushSpan p before f sp).regionNext = f.s.regionNext :=
    have h := TableKept.pushSpan .fillSpans p before f sp
    ⟨h.1 (by simp), h.2 (by simp)⟩
  rcases fillSpansContinue_cases p op run s with heq | ⟨sp, _, heq⟩ | ⟨ovf, r0, r1, heq⟩ | ⟨stack, x, y, _, heq⟩ <;> rw [heq]
  · exact ⟨rfl, rfl⟩
  · exact pushed _ _ sp
  · exact ⟨rfl, rfl⟩
  · exact pushed _ _ _

/-- A turn of the engine keeps the table as the command in it does; other turns keep it whole. -/
theorem engineStep_table {s t : State} (h : engineStep s = .next t) :
    (s.phase = .issued ∧ TableKept (decode s.cur.word) s t) ∨ (t.regions = s.regions ∧ t.regionNext = s.regionNext) := by
  rcases engineStep_cases h with ⟨_, rfl⟩ | ⟨hs, hruns⟩ | ⟨run, _, rfl⟩
  · exact .inr ⟨rfl, rfl⟩
  · exact .inl ⟨hs, .runs hruns⟩
  · exact .inr (fillSpansContinue_table _ _ run s)

/-- Of the host's reads none writes the table (R72). -/
theorem busRead_table (w : Width) (off : Nat) (s : State) :
    (busRead w off s).2.regions = s.regions ∧ (busRead w off s).2.regionNext = s.regionNext := by
  rcases busRead_state w off s with heq | heq | heq | ⟨sp, rest, _, heq⟩ <;> rw [heq] <;> exact ⟨rfl, rfl⟩

/-- Of the host's writes only the link write writes the table, one entry's CAPSTONE, and only those of WIDTH and HEIGHT move
REGION_NEXT, to 2 (R127, R171, R172). -/
theorem busWrite_table (p : Params) (w : Width) (off : Nat) (v : Word) (s : State) :
    ((busWrite p w off v s).regions = s.regions ∧ (busWrite p w off v s).regionNext = s.regionNext) ∨
    (w = .w32 ∧ ∃ id : BitVec 8, off = regionBase + 16 * id.toNat + 8 ∧
      busWrite p w off v s = s.setRegion id { s.region id with capstone := v.extractLsb' 0 16 }) ∨
    (w = .w32 ∧ (off = 0x014 ∨ off = 0x018) ∧
      (busWrite p w off v s).regions = s.regions ∧ (busWrite p w off v s).regionNext = 2) := by
  have lanes (ok : Nat → Bool) :
      (s.writeLanes off w v ok).regions = s.regions ∧ (s.writeLanes off w v ok).regionNext = s.regionNext := by
    rw [(writeLanes_spec s off w v ok).1.1]
    exact ⟨rfl, rfl⟩
  rcases busWrite_cases p w off v s with heq | heq | ⟨_, _, heq⟩ | ⟨_, _, heq⟩ | ⟨_, _, heq⟩ |
    ⟨_, ⟨_, _, heq⟩ | ⟨hw, hoff, _, heq⟩ | ⟨hw, hoff, _, heq⟩ | ⟨_, _, heq⟩ | ⟨_, _, heq⟩ |
      ⟨id, hw, hoff, _, heq⟩ | ⟨_, _, heq⟩ | ⟨_, _, heq⟩ | ⟨_, _, heq⟩⟩ <;> rw [heq]
  · exact .inl ⟨rfl, rfl⟩
  · exact .inl ⟨rfl, rfl⟩
  · exact .inl ⟨rfl, rfl⟩
  · exact .inl ⟨rfl, rfl⟩
  · exact .inl ⟨rfl, rfl⟩
  · exact .inl ⟨rfl, rfl⟩
  · exact .inr (.inr ⟨hw, .inl hoff, rfl, rfl⟩)
  · exact .inr (.inr ⟨hw, .inr hoff, rfl, rfl⟩)
  · exact .inl ⟨rfl, rfl⟩
  · exact .inl ⟨rfl, rfl⟩
  · exact .inr (.inl ⟨hw, id, hoff, rfl⟩)
  · exact .inl (lanes _)
  · exact .inl (lanes _)
  · exact .inl (lanes _)

/-- Settles O32: by what the command in a turn does (`engineStep_table`), and by what a host access can do
(`busRead_table`, `busWrite_table`). -/
theorem onlyRegionCodeWritesTable : Obligations.OnlyRegionCodeWritesTable := by
  refine ⟨fun i s t h => TableKept.runs (exec_runs h), fun s t h => ?turn, fun a s t h => ?access⟩
  case turn =>
    rcases engineStep_table h with ⟨hs, hregions, hnext⟩ | ⟨hregions, hnext⟩
    · exact ⟨fun hne => hregions fun hw => hne ⟨hs, hw⟩, fun hne => hnext fun hw => hne ⟨hs, hw⟩⟩
    · exact ⟨fun _ => hregions, fun _ => hnext⟩
  case access =>
    obtain ⟨_, rfl⟩ := hostAccess_cases h
    cases a with
    | rd w off =>
      obtain ⟨hregions, hnext⟩ := busRead_table w off s
      exact ⟨.inl hregions, .inl hnext⟩
    | wr w off v =>
      rcases busWrite_table Config.params w off v s with ⟨hregions, hnext⟩ | ⟨rfl, id, rfl, heq⟩ |
        ⟨rfl, hoff, hregions, hnext⟩
      · exact ⟨.inl hregions, .inl hnext⟩
      · simp only [busAccess, heq, State.setRegion_regionNext, State.region_setRegion, true_or, and_true]
        exact .inr ⟨id, v, rfl, if_pos rfl, fun n hn => if_neg (Ne.symm hn)⟩
      · refine ⟨.inl hregions, .inr ⟨hnext, v, ?_⟩⟩
        rcases hoff with rfl | rfl
        · exact .inl rfl
        · exact .inr rfl

end Sys2Proof.Machine
end

