-- ==== Sys2Proof/Proofs/RegisterAccess.lean ====
section
/-! 32-bit host accesses of the registers, one equation for reads and one for writes, and what follows for each register:
O9, O14, O34, O44, O45. Reserved offsets: O39. -/

namespace Sys2Proof.Machine

/-! ## A register access is the register's own operation -/

theorem Reg.word_lt (r : Reg) : r.word < 15 := by
  cases r <;> decide

/-- A 32-bit read at a register's offset reads that register (R21, R60). -/
theorem hostAccess_rd_reg (r : Reg) (s : State) :
    hostAccess (.rd .w32 (4 * r.word)) s = .next { (readReg r s).2 with readData := (readReg r s).1 } := by
  cases r <;> rfl

/-- A 32-bit write at a register's offset writes that register (R21, R60). -/
theorem busAccess_wr_reg (p : Params) (r : Reg) (v : Word) (s : State) :
    busAccess p (.wr .w32 (4 * r.word) v) s = writeReg p r v s := by
  cases r <;> rfl

theorem hostAccess_wr_reg (r : Reg) (v : Word) (s : State) :
    hostAccess (.wr .w32 (4 * r.word) v) s = .next (writeReg Config.params r v s) := by
  rw [← busAccess_wr_reg]
  exact hostAccess_inside s (by have := r.word_lt; simp only [Access.offset, apertureEnd]; omega)

/-- A write that comes to `t` as its register's own operation comes to `t` on the bus. -/
theorem hostAccess_wr_eq {r : Reg} {v : Word} {s t : State} (h : writeReg Config.params r v s = t) :
    hostAccess (.wr .w32 (4 * r.word) v) s = .next t :=
  h ▸ hostAccess_wr_reg r v s

theorem busy_of_idle {s : State} (h : s.phase = .idle) : s.busy = false := by
  simp [State.busy, h]

/-- The word a register reads while idle (R21 to R33). -/
def State.regWord (s : State) : Reg → Word
  | .cmd => 0
  | .status => s.statusWord
  | .err => s.errWord
  | .intStatus => s.intStatusWord
  | .intEnable => s.intEnableWord
  | .width => s.width.setWidth 32
  | .height => s.height.setWidth 32
  | .regionNext => s.regionNext.setWidth 32
  | .arg0 => s.arg0
  | .arg1 => s.arg1
  | .res0 => s.res0
  | .res1 => s.res1
  | .thresh => s.threshWord
  | .spanY => s.spanYWord
  | .spanX => s.popSpan.1

/-- While idle a read of any register but SPAN_X returns its word and changes nothing (R21, R64). -/
theorem hostAccess_rd_idle {r : Reg} {s : State} (h : s.phase = .idle) (hr : r ≠ .spanX) :
    hostAccess (.rd .w32 (4 * r.word)) s = .next { s with readData := s.regWord r } := by
  have hb := busy_of_idle h
  rw [hostAccess_rd_reg]
  cases r
  case spanX => exact absurd rfl hr
  all_goals simp [readReg, State.regWord, hb]

/-! ## CMD -/

/-- Settles O9: CMD is gated, and its write issues the command. -/
theorem cmdWriteIssues : Obligations.CmdWriteIssues := by
  intro s v
  refine ⟨fun hidle => ?idle, fun hb => ?busy⟩
  case idle => exact ⟨hostAccess_wr_eq (r := .cmd) (gatedWrite_idle _ _ (busy_of_idle hidle)),
    hostAccess_rd_idle (r := .cmd) hidle (by decide)⟩
  case busy => exact ⟨hostAccess_wr_eq (r := .cmd) (gatedWrite_busy _ _ hb),
    (hostAccess_rd_reg .cmd s).trans (by simp [readReg, hb])⟩

/-! ## Reads while idle -/

/-- The THRESH word as a sum (R32). -/
theorem threshWord_eq (s : State) : s.threshWord = s.threshT.setWidth 32 + if s.threshInv then 0x100 else 0 := by
  have happend (n : BitVec 24) : (n ++ s.threshT : Word).toNat = n.toNat * 2 ^ 8 + s.threshT.toNat := by
    refine (BitVec.toNat_append n s.threshT).trans ?_
    rw [← Nat.shiftLeft_add_eq_or_of_lt s.threshT.isLt, Nat.shiftLeft_eq]
  apply BitVec.eq_of_toNat_eq
  rw [State.threshWord, happend]
  cases s.threshInv <;> simp [bit] <;> omega

/-- Settles O34: every register but SPAN_X by `hostAccess_rd_idle`, and SPAN_X by the head of the FIFO. -/
theorem idleRegisterReads : Obligations.IdleRegisterReads := by
  intro s hidle
  have reads (r : Reg) (hr : r ≠ .spanX := by decide) := hostAccess_rd_idle hidle hr
  refine ⟨reads .cmd, reads .status, reads .err, reads .intStatus, reads .intEnable, reads .width, reads .height,
    reads .regionNext, reads .arg0, reads .arg1, reads .res0, reads .res1, ?thresh, ?spanY, ?spanX⟩
  case thresh => exact threshWord_eq s ▸ reads .thresh
  case spanY => exact reads .spanY
  case spanX =>
    refine (hostAccess_rd_reg .spanX s).trans ?_
    cases hfifo : s.fifo <;> simp [readReg, State.popSpan, State.badRead, hfifo]

/-! ## The span registers -/

/-- Settles O44: what SPAN_Y shows and SPAN_X pops, by the head of the FIFO. -/
theorem spanRegistersPop : Obligations.SpanRegistersPop := by
  intro s
  refine ⟨fun sp rest hfifo => ?entry, fun hfifo => ?empty, fun v => ?writes⟩
  case entry => exact ⟨(hostAccess_rd_reg .spanY s).trans (by simp [readReg, State.spanYWord, hfifo]),
    (hostAccess_rd_reg .spanX s).trans (by simp [readReg, State.popSpan, hfifo])⟩
  case empty => exact ⟨(hostAccess_rd_reg .spanY s).trans (by simp [readReg, State.spanYWord, hfifo]),
    (hostAccess_rd_reg .spanX s).trans (by simp [readReg, State.popSpan, State.badRead, hfifo])⟩
  case writes => exact ⟨hostAccess_wr_reg .spanY v s, hostAccess_wr_reg .spanX v s⟩

/-! ## Writes of the flag and operand registers -/

theorem writeErr_eq (s : State) (v : Word) : s.writeErr v = { s with
    errOverrun := if v.getLsbD 0 then false else s.errOverrun
    errAccerr := if v.getLsbD 1 then false else s.errAccerr } := by
  unfold State.writeErr
  cases v.getLsbD 0 <;> cases v.getLsbD 1 <;> simp

theorem writeIntStatus_eq (s : State) (v : Word) :
    s.writeIntStatus v = { s with intDone := if v.getLsbD 0 then false else s.intDone } := by
  unfold State.writeIntStatus
  cases v.getLsbD 0 <;> simp

/-- Settles O45: each write is its register's own, and the operands are written because the block is idle. -/
theorem flagRegisterWrites : Obligations.FlagRegisterWrites := by
  intro s v
  refine ⟨?err, ?intStatus, hostAccess_wr_reg .intEnable v s, fun hidle => ⟨?arg0, ?arg1⟩⟩
  case err => exact writeErr_eq s v ▸ hostAccess_wr_reg .err v s
  case intStatus => exact writeIntStatus_eq s v ▸ hostAccess_wr_reg .intStatus v s
  case arg0 => exact hostAccess_wr_eq (r := .arg0) (gatedWrite_idle _ _ (busy_of_idle hidle))
  case arg1 => exact hostAccess_wr_eq (r := .arg1) (gatedWrite_idle _ _ (busy_of_idle hidle))

/-! ## Size writes -/

/-- After a resize every byte of GRAY and LABEL is a fresh free value (R127, log entry 5). -/
theorem readByte_resized_image (s : State) {a : Nat} (h : grayBase ≤ a) :
    s.resized.readByte a = Config.freeByte (s.imageDraws + 1) a := by
  simp [State.readByte, State.unlisted, Memory.lookup_dropImage, Nat.not_lt.mpr h]

/-- Settles O14: a legal size write while idle is `State.resized`, an illegal one is malformed. -/
theorem sizeWritesResize : Obligations.SizeWritesResize := by
  intro s v
  refine ⟨fun hidle hle => ?width, fun hidle hle => ?height, fun p hlt => ?badWidth, fun p hlt => ?badHeight⟩
  case width =>
    refine ⟨State.resized { s with width := v.extractLsb' 0 16 }, ?_, rfl,
      fun a ha => State.readByte_resized _ ha, fun a ha => readByte_resized_image _ ha⟩
    refine hostAccess_wr_eq (r := .width) ?_
    rw [writeReg, writeWidth, if_neg (Nat.not_lt.mpr hle), gatedWrite_idle _ _ (busy_of_idle hidle)]
  case height =>
    refine ⟨State.resized { s with height := v.extractLsb' 0 16 }, ?_, rfl,
      fun a ha => State.readByte_resized _ ha, fun a ha => readByte_resized_image _ ha⟩
    refine hostAccess_wr_eq (r := .height) ?_
    rw [writeReg, writeHeight, if_neg (Nat.not_lt.mpr hle), gatedWrite_idle _ _ (busy_of_idle hidle)]
  case badWidth => exact (busAccess_wr_reg p .width v s).trans (if_pos hlt)
  case badHeight => exact (busAccess_wr_reg p .height v s).trans (if_pos hlt)

/-! ## Reserved offsets -/

/-- No register lies beyond word 14 of the register page (R21, R35). -/
theorem regAt_eq_none {n : Nat} (h : 15 ≤ n) : regAt n = none := by
  cases hr : regAt n with
  | none => rfl
  | some r =>
    have hn := regAt_word hr
    have hlt := r.word_lt
    omega

/-- The reserved offsets name nothing (R35, R70). -/
theorem targetOf_reserved {off : Nat} (h : reservedOffset off = true) : targetOf off = .reserved := by
  simp only [reservedOffset, decide_eq_true_eq] at h
  unfold targetOf
  simp only [blockBase, syndBase, bufferEnd, regionBase, grayBase]
  rcases h with ⟨h1, h2⟩ | ⟨h1, h2⟩ | ⟨h1, h2⟩
  · rw [if_pos (by omega), regAt_eq_none (by omega)]
  · rw [if_neg (by omega), if_neg (by omega), if_neg (by omega), if_pos (by omega)]
  · rw [if_neg (by omega), if_neg (by omega), if_neg (by omega), if_neg (by omega), if_neg (by omega), if_pos (by omega)]

/-- Settles O39: aligned or not, an access of a reserved offset is malformed. -/
theorem reservedOffsetsSetAccerr : Obligations.ReservedOffsetsSetAccerr := by
  intro s w off v h
  have ht := targetOf_reserved (off := off) (by simpa [reservedOffset] using h)
  have hin : off < apertureEnd := by simp only [apertureEnd]; omega
  have hread : busRead w off s = s.badRead := by
    unfold busRead
    rw [ht, ite_self]
  have hwrite : busWrite Config.params w off v s = s.setAccerr := by
    unfold busWrite
    rw [ht, ite_self]
  rw [hostAccess_inside (a := .rd w off) s hin, hostAccess_inside (a := .wr w off v) s hin, busAccess, busAccess, hread, hwrite]
  exact ⟨rfl, rfl⟩

end Sys2Proof.Machine
end

