-- ==== Sys2Proof/Proofs/StatusWords.lean ====
section
/-! The fields of the STATUS, ERR, INT_STATUS and INT_ENABLE words: O47. -/

namespace Sys2Proof.Machine

theorem spanNe_iff (s : State) : s.spanNe = true ↔ s.fifo ≠ [] := by
  simp [State.spanNe]

/-- The four flags of STATUS, from bit 0 up (R23). -/
theorem statusWord_flags (s : State) :
    s.statusWord.getLsbD 0 = s.busy ∧ s.statusWord.getLsbD 1 = s.labelsValid ∧
    s.statusWord.getLsbD 2 = s.ffOvfShown ∧ s.statusWord.getLsbD 3 = s.spanNe := by
  simp only [State.statusWord, bit, BitVec.getLsbD_append, Nat.reduceSub, Nat.reduceLT, if_true, if_false]
  simp

/-- STATUS with its width written as the sum of its fields' widths, so that a field is split off by its width (R23). -/
theorem statusWord_extractLsb' (s : State) (start len : Nat) :
    s.statusWord.extractLsb' start len = BitVec.extractLsb' (n := 8 + 4 + 4 + 8 + 4 + 1 + 1 + 1 + 1) start len
      (s.spanCount ++ (0 : BitVec 4) ++ s.lastOp ++ s.code.toByte ++ (0 : BitVec 4) ++
        bit s.spanNe ++ bit s.ffOvfShown ++ bit s.labelsValid ++ bit s.busy) := rfl

/-- The fields of STATUS above its flags (R23). -/
theorem statusWord_fields (s : State) :
    s.statusWord.extractLsb' 4 4 = 0 ∧ s.statusWord.extractLsb' 8 8 = s.code.toByte ∧
    s.statusWord.extractLsb' 16 4 = s.lastOp ∧ s.statusWord.extractLsb' 20 4 = 0 ∧
    s.statusWord.extractLsb' 24 8 = s.spanCount := by
  simp only [statusWord_extractLsb', BitVec.extractLsb'_append_eq_of_le, BitVec.extractLsb'_append_eq_right,
    BitVec.extractLsb'_eq_self, Nat.reduceLeDiff, Nat.reduceSub, and_self]

/-- SPAN_COUNT counts a FIFO of at most 255 entries exactly (R23, R45). -/
theorem spanCount_toNat {s : State} (h : s.fifo.length ≤ 255) : s.spanCount.toNat = s.fifo.length := by
  rw [State.spanCount, BitVec.toNat_ofNat, Nat.mod_eq_of_lt (by omega)]

/-- A word of two flags, and its reserved bits (R24 to R26). -/
theorem flagWord_fields (hi lo : Bool) (w : Word) (hw : w = (0 : BitVec 30) ++ bit hi ++ bit lo) :
    w.getLsbD 0 = lo ∧ w.getLsbD 1 = hi ∧ w.extractLsb' 2 30 = 0 := by
  subst hw
  cases hi <;> cases lo <;> decide

/-- Settles O47: the fields of the four words, and R251's numbers. -/
theorem statusWordFields : Obligations.StatusWordFields := by
  refine ⟨fun s hfifo => ?status, fun s => ?flagWords, rfl, rfl, rfl, rfl, rfl, rfl⟩
  case status =>
    obtain ⟨hbusy, hvalid, hovf, hne⟩ := statusWord_flags s
    obtain ⟨hres, hcode, hop, hres', hcount⟩ := statusWord_fields s
    refine ⟨hbusy, hvalid, hovf.trans ?_, hne ▸ spanNe_iff s, hres, hcode, hop, hres', ?_⟩
    · cases hp : s.phase <;> simp [hp]
    · rw [hcount, spanCount_toNat hfifo]
  case flagWords =>
    obtain ⟨hover, hacc, herr⟩ := flagWord_fields s.errAccerr s.errOverrun s.errWord rfl
    obtain ⟨hdone, hne, hint⟩ := flagWord_fields s.spanNe s.intDone s.intStatusWord rfl
    obtain ⟨hdoneEn, hspanEn, hen⟩ := flagWord_fields s.spanEn s.doneEn s.intEnableWord rfl
    exact ⟨hover, hacc, herr, hdone, hne ▸ spanNe_iff s, hint, hdoneEn, hspanEn, hen⟩

end Sys2Proof.Machine
end

