-- ==== Sys2Proof/Proofs/AccessPlaces.lean ====
section
/-! Where an access of the bus lands (R60): nowhere, when its width or its offset is against R62, R63 or R70, or on one of six
kinds of place; one equation of `busRead` and `busWrite` for each (the write of a register is `busAccess_wr_reg`).
Misaligned and narrow accesses: O38. -/

namespace Sys2Proof.Machine

/-! ## Misplaced accesses -/

/-- The width and the offset alone make an access malformed: misaligned (R63), reserved (R35, R70), or narrower than the
32-bit words it names (R62). -/
def misplaced (w : Width) (off : Nat) : Bool :=
  off % w.lanes != 0 || reservedOffset off || (wordOnlyOffset off && w != .w32)

theorem misplaced_eq_false {w : Width} {off : Nat} :
    misplaced w off = false ↔ off % w.lanes = 0 ∧ reservedOffset off = false ∧ (wordOnlyOffset off = true → w = .w32) := by
  cases hword : wordOnlyOffset off <;> simp [misplaced, hword, and_assoc]

/-- R253's conditions on a read, `misplaced` taken as one. -/
theorem malformed_rd (p : Params) (s : State) (w : Width) (off : Nat) :
    (Access.rd w off).malformed p s = (misplaced w off || beyondImage s w off || (off == 0x038 && s.fifo.isEmpty)) := rfl

/-- R253's conditions on a write, `misplaced` taken as one. -/
theorem malformed_wr (p : Params) (s : State) (w : Width) (off : Nat) (v : Word) :
    (Access.wr w off v).malformed p s = (misplaced w off || beyondImage s w off || (readOnlyOffset s off ||
      (off == 0x014 && decide (p.maxW < (v.extractLsb' 0 16).toNat)) ||
      (off == 0x018 && decide (p.maxH < (v.extractLsb' 0 16).toNat)))) := rfl

/-- The register page and the region table hold registers, words of entries, and reserved offsets (R60). -/
theorem targetOf_wordOnly {off : Nat} (h : wordOnlyOffset off = true) :
    (∃ r, targetOf off = .register r) ∨ (∃ id k, targetOf off = .regionWord id k) ∨ targetOf off = .reserved := by
  simp only [wordOnlyOffset, decide_eq_true_eq] at h
  cases ht : targetOf off with
  | register r => exact .inl ⟨r, rfl⟩
  | regionWord id k => exact .inr (.inl ⟨id, k, rfl⟩)
  | reserved => exact .inr (.inr rfl)
  | buffer b =>
    obtain ⟨hlo, hhi, _⟩ := targetOf_buffer ht
    simp only [blockBase, bufferEnd] at hlo hhi
    omega
  | image b base =>
    rcases targetOf_image ht with ⟨_, _, hlo, _⟩ | ⟨_, _, hlo⟩ <;> simp only [grayBase, labelBase] at hlo <;> omega

/-- A misplaced access is misaligned, or names nothing at its width. -/
theorem misplaced_cases {w : Width} {off : Nat} (h : misplaced w off = true) :
    aligned w off = false ∨ targetOf off = .reserved ∨
      (w ≠ .w32 ∧ ((∃ r, targetOf off = .register r) ∨ ∃ id k, targetOf off = .regionWord id k)) := by
  simp only [misplaced, Bool.or_eq_true, Bool.and_eq_true, bne_iff_ne] at h
  rcases h with (hal | hres) | ⟨hword, hw⟩
  · exact .inl (by simpa [aligned] using hal)
  · exact .inr (.inl (targetOf_reserved hres))
  · rcases targetOf_wordOnly hword with hr | hr | hr
    · exact .inr (.inr ⟨hw, .inl hr⟩)
    · exact .inr (.inr ⟨hw, .inr hr⟩)
    · exact .inr (.inl hr)

theorem busRead_misplaced {w : Width} {off : Nat} (h : misplaced w off = true) (s : State) :
    busRead w off s = s.badRead := by
  unfold busRead
  rcases misplaced_cases h with hal | ht | ⟨hw, ⟨r, ht⟩ | ⟨id, k, ht⟩⟩
  · simp [hal]
  · simp [ht]
  · simp [ht, hw]
  · simp [ht, hw]

theorem busWrite_misplaced {w : Width} {off : Nat} (h : misplaced w off = true) (p : Params) (v : Word) (s : State) :
    busWrite p w off v s = s.setAccerr := by
  unfold busWrite
  rcases misplaced_cases h with hal | ht | ⟨hw, ⟨r, ht⟩ | ⟨id, k, ht⟩⟩
  · simp [hal]
  · simp [ht]
  · simp [ht, hw]
  · simp [ht, hw]

/-- Settles O38: both kinds of access are misplaced. -/
theorem misalignedAccessesAreRejected : Obligations.MisalignedAccessesAreRejected := by
  intro s w off v hin h
  have hmis : misplaced w off = true := by
    rcases h with hal | ⟨hw, hword⟩
    · simp [misplaced, hal]
    · simp [misplaced, wordOnlyOffset, hw, hword]
  rw [hostAccess_inside (a := .rd w off) s hin, hostAccess_inside (a := .wr w off v) s hin, busAccess, busAccess,
    busRead_misplaced hmis, busWrite_misplaced hmis]
  exact ⟨rfl, rfl⟩

/-! ## The places of the map -/

/-- Each of the first fifteen words of the register page is a register (R21). -/
theorem exists_reg_word {n : Nat} (h : n < 15) : ∃ r : Reg, n = r.word := by
  have hsome : ∀ n < 15, (regAt n).isSome = true := by decide
  obtain ⟨r, hr⟩ := Option.isSome_iff_exists.mp (hsome n h)
  exact ⟨r, regAt_word hr⟩

/-- What an access that is not misplaced names (R60). -/
inductive Place : Width → Nat → Prop where
  /-- A register of R21. -/
  | register (r : Reg) : Place .w32 (4 * r.word)
  /-- Bytes of BLOCK. -/
  | block {w : Width} {off : Nat} (hal : off % w.lanes = 0) (lo : blockBase ≤ off) (hi : off < syndBase) : Place w off
  /-- Bytes of SYND, SIGMA or OMEGA. -/
  | eccArray {w : Width} {off : Nat} (hal : off % w.lanes = 0) (lo : syndBase ≤ off) (hi : off < bufferEnd) : Place w off
  /-- A word of a region-table entry. -/
  | regionWord (id : BitVec 8) {k : Nat} (hk : k < 4) : Place .w32 (regionBase + 16 * id.toNat + 4 * k)
  /-- Bytes of GRAY. -/
  | gray {w : Width} {off : Nat} (hal : off % w.lanes = 0) (lo : grayBase ≤ off) (hi : off < labelBase) : Place w off
  /-- Bytes of LABEL, whose window ends the aperture. -/
  | label {w : Width} {off : Nat} (hal : off % w.lanes = 0) (lo : labelBase ≤ off) : Place w off

/-- An access that is not misplaced has its place. -/
theorem place_of_not_misplaced {w : Width} {off : Nat} (h : misplaced w off = false) : Place w off := by
  obtain ⟨hal, hres, hword⟩ := misplaced_eq_false.mp h
  simp only [reservedOffset, wordOnlyOffset, decide_eq_false_iff_not, decide_eq_true_eq] at hres hword
  by_cases hreg : off < 0x1000
  · obtain rfl := hword (.inl hreg)
    simp only [Width.lanes] at hal
    obtain ⟨r, hr⟩ := exists_reg_word (n := off / 4) (by omega)
    obtain rfl : off = 4 * r.word := by omega
    exact .register r
  · by_cases hbuf : off < 0x11C0
    · by_cases hblock : off < 0x1100
      · exact .block hal (by simp only [blockBase]; omega) hblock
      · exact .eccArray hal (by simp only [syndBase]; omega) hbuf
    · by_cases htable : off < 0x3000
      · obtain rfl := hword (.inr ⟨by omega, htable⟩)
        simp only [Width.lanes] at hal
        obtain ⟨id, hid⟩ : ∃ id : BitVec 8, id.toNat = (off - 0x2000) / 16 :=
          ⟨BitVec.ofNat 8 ((off - 0x2000) / 16), by rw [BitVec.toNat_ofNat]; omega⟩
        obtain ⟨k, hk, rfl⟩ : ∃ k < 4, off = regionBase + 16 * id.toNat + 4 * k :=
          ⟨off % 16 / 4, by omega, by simp only [regionBase]; omega⟩
        exact .regionWord id hk
      · by_cases hgray : off < 0x200000
        · exact .gray hal (by simp only [grayBase]; omega) hgray
        · exact .label hal (by simp only [labelBase]; omega)

theorem misplaced_or_place (w : Width) (off : Nat) : misplaced w off = true ∨ Place w off := by
  cases h : misplaced w off with
  | true => exact .inl rfl
  | false => exact .inr (place_of_not_misplaced h)

/-! ## The target of each place -/

section
variable {off : Nat}

theorem targetOf_block (lo : blockBase ≤ off) (hi : off < syndBase) : targetOf off = .buffer true := by
  unfold targetOf
  rw [if_neg (by omega), if_pos hi]

theorem targetOf_eccArray (lo : syndBase ≤ off) (hi : off < bufferEnd) : targetOf off = .buffer false := by
  unfold targetOf
  simp only [blockBase, syndBase] at *
  rw [if_neg (by omega), if_neg (by omega), if_pos hi]

theorem targetOf_gray (lo : grayBase ≤ off) (hi : off < labelBase) : targetOf off = .image true grayBase := by
  unfold targetOf
  simp only [blockBase, syndBase, bufferEnd, regionBase, grayBase] at *
  rw [if_neg (by omega), if_neg (by omega), if_neg (by omega), if_neg (by omega), if_neg (by omega), if_neg (by omega),
    if_pos hi]

theorem targetOf_label (lo : labelBase ≤ off) : targetOf off = .image false labelBase := by
  unfold targetOf
  simp only [blockBase, syndBase, bufferEnd, regionBase, grayBase, labelBase] at *
  rw [if_neg (by omega), if_neg (by omega), if_neg (by omega), if_neg (by omega), if_neg (by omega), if_neg (by omega),
    if_neg (by omega)]

end

theorem targetOf_entryWord (id : BitVec 8) {k : Nat} (hk : k < 4) :
    targetOf (regionBase + 16 * id.toNat + 4 * k) = .regionWord id k := by
  have hid := id.isLt
  unfold targetOf
  simp only [blockBase, syndBase, bufferEnd, regionBase] at *
  rw [if_neg (by omega), if_neg (by omega), if_neg (by omega), if_neg (by omega), if_pos (by omega)]
  have hentry : (0x2000 + 16 * id.toNat + 4 * k - 0x2000) / 16 = id.toNat := by omega
  have hword : (0x2000 + 16 * id.toNat + 4 * k - 0x2000) % 16 / 4 = k := by omega
  rw [hentry, hword, BitVec.ofNat_toNat, BitVec.setWidth_eq]

/-! ## What each place reads -/

/-- A 32-bit read at a register's offset reads that register (R21). -/
theorem busRead_reg (r : Reg) (s : State) : busRead .w32 (4 * r.word) s = readReg r s := by
  cases r <;> rfl

theorem busRead_entryWord (id : BitVec 8) {k : Nat} (hk : k < 4) (s : State) :
    busRead .w32 (regionBase + 16 * id.toNat + 4 * k) s = s.gatedRead (s.regionWord id k) := by
  have hal : aligned .w32 (regionBase + 16 * id.toNat + 4 * k) = true := by
    simp only [aligned, Width.lanes, regionBase, beq_iff_eq]
    omega
  unfold busRead
  simp [hal, targetOf_entryWord id hk]

section
variable {w : Width} {off : Nat} (hal : off % w.lanes = 0) (s : State)
include hal

theorem busRead_buffer (lo : blockBase ≤ off) (hi : off < bufferEnd) :
    busRead w off s = s.gatedRead (gatherLanes w fun k => s.readByte (off + k)) := by
  unfold busRead
  by_cases h : off < syndBase
  · simp [aligned, hal, targetOf_block lo h]
  · simp [aligned, hal, targetOf_eccArray (Nat.le_of_not_lt h) hi]

theorem busRead_gray (lo : grayBase ≤ off) (hi : off < labelBase) : busRead w off s = readImage w grayBase off s := by
  unfold busRead
  simp [aligned, hal, targetOf_gray lo hi]

theorem busRead_label (lo : labelBase ≤ off) : busRead w off s = readImage w labelBase off s := by
  unfold busRead
  simp [aligned, hal, targetOf_label lo]

end

/-! ## What each place writes -/

theorem busWrite_entryWord (p : Params) (id : BitVec 8) {k : Nat} (hk : k < 4) (v : Word) (s : State) :
    busWrite p .w32 (regionBase + 16 * id.toNat + 4 * k) v s = writeRegionWord id k v s := by
  have hal : aligned .w32 (regionBase + 16 * id.toNat + 4 * k) = true := by
    simp only [aligned, Width.lanes, regionBase, beq_iff_eq]
    omega
  unfold busWrite
  simp [hal, targetOf_entryWord id hk]

section
variable {w : Width} {off : Nat} (hal : off % w.lanes = 0) (p : Params) (v : Word) (s : State)
include hal

theorem busWrite_block (lo : blockBase ≤ off) (hi : off < syndBase) :
    busWrite p w off v s = s.gatedWrite (s.writeLanes off w v fun _ => true) := by
  unfold busWrite
  simp [aligned, hal, targetOf_block lo hi]

theorem busWrite_eccArray (lo : syndBase ≤ off) (hi : off < bufferEnd) : busWrite p w off v s = s.setAccerr := by
  unfold busWrite
  simp [aligned, hal, targetOf_eccArray lo hi]

theorem busWrite_gray (lo : grayBase ≤ off) (hi : off < labelBase) : busWrite p w off v s = writeGray w off v s := by
  unfold busWrite
  simp [aligned, hal, targetOf_gray lo hi]

theorem busWrite_label (lo : labelBase ≤ off) : busWrite p w off v s = s.setAccerr := by
  unfold busWrite
  simp [aligned, hal, targetOf_label lo]

end

end Sys2Proof.Machine
end

