-- ==== Sys2Proof/Proofs/AccessOutcome.lean ====
section
/-! Which accesses are malformed, and what that and BUSY make of an access (R71, R253): O35, O36. Writes of read-only
locations: O40. -/

namespace Sys2Proof.Machine

/-! ## Lanes beyond the image -/

section
variable {off : Nat} (s : State) (w : Width)

theorem beyondImage_of_lt (h : off < grayBase) : beyondImage s w off = false := by
  have h' : ¬ 0x100000 ≤ off := Nat.not_le.mpr h
  simp [beyondImage, h']

/-- In GRAY the lanes of R65 beyond the image are those R253 counts. -/
theorem laneOutOfRange_gray (lo : grayBase ≤ off) (hi : off < labelBase) :
    s.laneOutOfRange w (off - grayBase) = beyondImage s w off := by
  simp only [grayBase, labelBase] at *
  have hoff : off % 0x100000 = off - 0x100000 := by omega
  rw [beyondImage, hoff, decide_eq_true lo, Bool.true_and]
  rfl

/-- In LABEL the lanes of R66 beyond the image are those R253 counts. -/
theorem laneOutOfRange_label (lo : labelBase ≤ off) (hi : off < apertureEnd) :
    s.laneOutOfRange w (off - labelBase) = beyondImage s w off := by
  simp only [labelBase, apertureEnd] at *
  have hoff : off % 0x100000 = off - 0x200000 := by omega
  have hge : 0x100000 ≤ off := by omega
  rw [beyondImage, hoff, decide_eq_true hge, Bool.true_and]
  rfl

end

/-! ## Read-only places -/

/-- R64, R66, R68 and R69 as one list of offsets. -/
theorem readOnlyOffset_iff {s : State} {off : Nat} : readOnlyOffset s off = true ↔
    (off = 0x004 ∨ off = 0x01C ∨ off = 0x028 ∨ off = 0x02C ∨ off = 0x030 ∨ off = 0x034 ∨ off = 0x038) ∨
    (0x1100 ≤ off ∧ off < 0x11C0) ∨ 0x200000 ≤ off ∨
    ((0x2000 ≤ off ∧ off < 0x3000) ∧ (off % 16 ≠ 8 ∨ s.allocated (BitVec.ofNat 8 ((off - 0x2000) / 16)) = false)) := by
  simp [readOnlyOffset, or_assoc]

section
variable {off : Nat} (s : State)

theorem readOnlyOffset_block (lo : blockBase ≤ off) (hi : off < syndBase) : readOnlyOffset s off = false := by
  simp only [blockBase, syndBase] at lo hi
  rw [← Bool.not_eq_true, readOnlyOffset_iff]
  omega

theorem readOnlyOffset_gray (lo : grayBase ≤ off) (hi : off < labelBase) : readOnlyOffset s off = false := by
  simp only [grayBase, labelBase] at lo hi
  rw [← Bool.not_eq_true, readOnlyOffset_iff]
  omega

theorem readOnlyOffset_eccArray (lo : syndBase ≤ off) (hi : off < bufferEnd) : readOnlyOffset s off = true :=
  readOnlyOffset_iff.mpr (.inr (.inl ⟨lo, hi⟩))

theorem readOnlyOffset_label (lo : labelBase ≤ off) : readOnlyOffset s off = true :=
  readOnlyOffset_iff.mpr (.inr (.inr (.inl lo)))

/-- Only the link word of an allocated entry can be written (R68). -/
theorem readOnlyOffset_entryWord (id : BitVec 8) {k : Nat} (hk : k < 4) :
    readOnlyOffset s (regionBase + 16 * id.toNat + 4 * k) = !decide (k = 2 ∧ s.allocated id = true) := by
  have hid := id.isLt
  simp only [regionBase]
  have hentry : (0x2000 + 16 * id.toNat + 4 * k - 0x2000) / 16 = id.toNat := by omega
  have hword : (0x2000 + 16 * id.toNat + 4 * k) % 16 = 8 ↔ k = 2 := by omega
  rw [Bool.eq_iff_iff, readOnlyOffset_iff, or_iff_right (by omega), or_iff_right (by omega), or_iff_right (by omega),
    and_iff_right (by omega), hentry, BitVec.ofNat_toNat, BitVec.setWidth_eq, ne_eq, hword]
  simp

end

/-- Settles O40: at each place, what is read-only is what its write refuses. -/
theorem readOnlyWritesAreIgnored : Obligations.ReadOnlyWritesAreIgnored := by
  intro s w off v hin hro
  suffices h : busWrite Config.params w off v s = s.setAccerr by
    rw [hostAccess_inside (a := .wr w off v) s hin, busAccess, h]
    rfl
  rcases misplaced_or_place w off with h | hplace
  · exact busWrite_misplaced h _ v s
  · cases hplace with
    | register r =>
      refine (busAccess_wr_reg Config.params r v s).trans ?_
      cases r
      case status | regionNext | res0 | res1 | thresh | spanY | spanX => rfl
      all_goals simp [readOnlyOffset_iff, Reg.word] at hro
    | block hal lo hi => simp [readOnlyOffset_block s lo hi] at hro
    | eccArray hal lo hi => exact busWrite_eccArray hal _ v s lo hi
    | regionWord id hk =>
      rw [readOnlyOffset_entryWord s id hk, Bool.not_eq_true', decide_eq_false_iff_not] at hro
      rw [busWrite_entryWord _ id hk, writeRegionWord, if_neg hro]
    | gray hal lo hi => simp [readOnlyOffset_gray s lo hi] at hro
    | label hal lo => exact busWrite_label hal _ v s lo

/-! ## The outcome of an access -/

/-- What `readData` holds after an access that returns 0 or writes nothing (log entry 8). -/
def Access.droppedData (s : State) : Access → Word
  | .rd _ _ => 0
  | .wr _ _ _ => s.readData

/-- What an access comes to under R71 and R253: it is malformed, dropped, or carried out. -/
inductive AccessOutcome (p : Params) (s : State) (a : Access) (t : State) : Prop where
  /-- It sets ACCERR, and while BUSY that is all. -/
  | malformed (hm : a.malformed p s = true) (hacc : t.errAccerr = true) (hover : t.errOverrun = s.errOverrun)
      (hbusy : s.busy = true → t = { s with errAccerr := true, readData := a.droppedData s })
  /-- A gated location while BUSY: it sets OVERRUN, and that is all. -/
  | dropped (hm : a.malformed p s = false) (hg : a.ungated = false) (hb : s.busy = true)
      (ht : t = { s with errOverrun := true, readData := a.droppedData s })
  /-- It is carried out and sets no error flag. -/
  | done (hm : a.malformed p s = false) (hfree : a.ungated = true ∨ s.busy = false)
      (hacc : t.errAccerr = s.errAccerr) (hover : t.errOverrun = s.errOverrun)

namespace AccessOutcome

variable {p : Params} {s : State} {w : Width} {off : Nat} {v : Word}

theorem of_badRead (hm : (Access.rd w off).malformed p s = true) (h : busRead w off s = s.badRead) :
    AccessOutcome p s (.rd w off) (busAccess p (.rd w off) s) := by
  rw [busAccess, h]
  exact .malformed hm rfl rfl fun _ => rfl

theorem of_gatedRead (hm : (Access.rd w off).malformed p s = false) (hg : (Access.rd w off).ungated = false)
    (h : busRead w off s = s.gatedRead v) : AccessOutcome p s (.rd w off) (busAccess p (.rd w off) s) := by
  rw [busAccess, h]
  cases hb : s.busy with
  | true => exact .dropped hm hg hb (by rw [gatedRead_busy s v hb]; rfl)
  | false => rw [gatedRead_idle s v hb]; exact .done hm (.inr hb) rfl rfl

theorem of_freeRead (hm : (Access.rd w off).malformed p s = false) (hg : (Access.rd w off).ungated = true)
    (h : (busRead w off s).2 = s) : AccessOutcome p s (.rd w off) (busAccess p (.rd w off) s) := by
  rw [busAccess, h]
  exact .done hm (.inl hg) rfl rfl

theorem of_setAccerr (hm : (Access.wr w off v).malformed p s = true) (h : busWrite p w off v s = s.setAccerr) :
    AccessOutcome p s (.wr w off v) (busAccess p (.wr w off v) s) := by
  rw [busAccess, h]
  exact .malformed hm rfl rfl fun _ => rfl

theorem of_gatedWrite (hm : (Access.wr w off v).malformed p s = false) (hg : (Access.wr w off v).ungated = false)
    {act : State} (hacc : act.errAccerr = s.errAccerr) (hover : act.errOverrun = s.errOverrun)
    (h : busWrite p w off v s = s.gatedWrite act) :
    AccessOutcome p s (.wr w off v) (busAccess p (.wr w off v) s) := by
  rw [busAccess, h]
  cases hb : s.busy with
  | true => exact .dropped hm hg hb (by rw [gatedWrite_busy s act hb]; rfl)
  | false => rw [gatedWrite_idle s act hb]; exact .done hm (.inr hb) hacc hover

end AccessOutcome

/-- No register reachable while BUSY lies outside the register page (R71). -/
theorem ungated_of_ge {a : Access} (h : blockBase ≤ a.offset) : a.ungated = false := by
  simp only [blockBase] at h
  simp only [Access.ungated, Bool.or_eq_false_iff, beq_eq_false_iff_ne]
  omega

/-- The region table lies between the buffers and the images (R60). -/
theorem entryWord_range (id : BitVec 8) {k : Nat} (hk : k < 4) :
    blockBase ≤ regionBase + 16 * id.toNat + 4 * k ∧ regionBase + 16 * id.toNat + 4 * k < grayBase := by
  have hid := id.isLt
  simp only [blockBase, regionBase, grayBase]
  omega

/-- A read of either image window comes to what R65, R66 and R71 say. -/
theorem readImage_outcome {p : Params} {s : State} {w : Width} {off base : Nat} (lo : grayBase ≤ off)
    (hread : busRead w off s = readImage w base off s) (hlane : s.laneOutOfRange w (off - base) = beyondImage s w off)
    (hmis : misplaced w off = false) : AccessOutcome p s (.rd w off) (busAccess p (.rd w off) s) := by
  have hne : (off == 0x038) = false := by simp only [grayBase] at lo; simp only [beq_eq_false_iff_ne]; omega
  have hm : (Access.rd w off).malformed p s = beyondImage s w off := by
    rw [malformed_rd, hmis, hne, Bool.false_or, Bool.false_and, Bool.or_false]
  rw [readImage, hlane] at hread
  cases hbeyond : beyondImage s w off with
  | false =>
    rw [hbeyond] at hm hread
    exact .of_gatedRead hm (ungated_of_ge (Nat.le_trans (by decide) lo)) hread
  | true =>
    rw [hbeyond] at hm hread
    cases hb : s.busy with
    | true => exact .of_badRead hm (hread.trans (by simp [hb]))
    | false =>
      rw [busAccess, hread]
      simp only [hb, if_true]
      exact .malformed hm rfl rfl fun h => absurd (hb.symm.trans h) Bool.false_ne_true

/-- A 32-bit read of a register (R21 to R34, R71). -/
theorem readReg_outcome (p : Params) (s : State) (r : Reg) :
    AccessOutcome p s (.rd .w32 (4 * r.word)) (busAccess p (.rd .w32 (4 * r.word)) s) := by
  have hread := busRead_reg r s
  cases r
  case spanX =>
    cases hfifo : s.fifo with
    | nil =>
      exact .of_badRead (by simp [malformed_rd, hfifo, Reg.word]) (hread.trans (by simp [readReg, State.popSpan, hfifo]))
    | cons sp rest =>
      have hpop : busRead .w32 (4 * Reg.spanX.word) s = (sp.right ++ sp.left, { s with fifo := rest }) :=
        hread.trans (by simp [readReg, State.popSpan, hfifo])
      rw [busAccess, hpop]
      refine .done ?_ (.inl rfl) rfl rfl
      rw [malformed_rd, hfifo]
      rfl
  case status | err | intStatus | intEnable | spanY => exact .of_freeRead rfl rfl (by rw [hread]; rfl)
  all_goals exact .of_gatedRead rfl rfl hread

theorem busRead_outcome (p : Params) (s : State) (w : Width) {off : Nat} (hin : off < apertureEnd) :
    AccessOutcome p s (.rd w off) (busAccess p (.rd w off) s) := by
  have wellFormed (hmis : misplaced w off = false) (lo : blockBase ≤ off) (hi : off < grayBase) :
      (Access.rd w off).malformed p s = false := by
    have hne : (off == 0x038) = false := by simp only [blockBase] at lo; simp only [beq_eq_false_iff_ne]; omega
    rw [malformed_rd, hmis, beyondImage_of_lt s w hi, hne]
    rfl
  cases hmis : misplaced w off with
  | true => exact .of_badRead (by rw [malformed_rd, hmis]; rfl) (busRead_misplaced hmis s)
  | false =>
    cases place_of_not_misplaced hmis with
    | register r => exact readReg_outcome p s r
    | block hal lo hi =>
      simp only [syndBase] at hi
      exact .of_gatedRead (wellFormed hmis lo (by simp only [grayBase]; omega)) (ungated_of_ge lo)
        (busRead_buffer hal s lo (by simp only [bufferEnd]; omega))
    | eccArray hal lo hi =>
      have lo' : blockBase ≤ off := Nat.le_trans (by decide) lo
      simp only [bufferEnd] at hi
      exact .of_gatedRead (wellFormed hmis lo' (by simp only [grayBase]; omega)) (ungated_of_ge lo')
        (busRead_buffer hal s lo' hi)
    | @regionWord id k hk =>
      obtain ⟨lo, hi⟩ := entryWord_range id hk
      exact .of_gatedRead (wellFormed hmis lo hi) (ungated_of_ge lo) (busRead_entryWord id hk s)
    | gray hal lo hi =>
      exact readImage_outcome lo (busRead_gray hal s lo hi) (laneOutOfRange_gray s w lo hi) hmis
    | label hal lo =>
      exact readImage_outcome (Nat.le_trans (by decide) lo) (busRead_label hal s lo) (laneOutOfRange_label s w lo hin) hmis

/-- What a write outside the register page adds to being misplaced (R253). -/
theorem malformed_wr_of_ge {p : Params} {s : State} {w : Width} {off : Nat} (v : Word) (hmis : misplaced w off = false)
    (lo : blockBase ≤ off) : (Access.wr w off v).malformed p s = (beyondImage s w off || readOnlyOffset s off) := by
  simp only [blockBase] at lo
  have hw : (off == 0x014) = false := by rw [beq_eq_false_iff_ne]; omega
  have hh : (off == 0x018) = false := by rw [beq_eq_false_iff_ne]; omega
  rw [malformed_wr, hmis, hw, hh]
  simp only [Bool.false_or, Bool.false_and, Bool.or_false]

/-- While idle, a write of GRAY stores the lanes in range, and sets ACCERR when some lane is not (R65). -/
theorem writeGray_idle {s : State} (hb : s.busy = false) (w : Width) (off : Nat) (v : Word) :
    writeGray w off v s =
      { s.writeLanes off w v fun k => decide (off - grayBase + k < s.imageSize) with
        errAccerr := s.errAccerr || s.laneOutOfRange w (off - grayBase) } := by
  have hmem := (writeLanes_spec s off w v fun k => decide (off - grayBase + k < s.imageSize)).1.1
  unfold writeGray
  cases hlane : s.laneOutOfRange w (off - grayBase) with
  | true =>
    rw [if_pos rfl, hb, Bool.or_true]
    rfl
  | false =>
    have hall : ∀ k, k < w.lanes → decide (off - grayBase + k < s.imageSize) = true := fun k hk => by
      simp only [State.laneOutOfRange, decide_eq_false_iff_not, decide_eq_true_eq] at hlane ⊢
      omega
    rw [if_neg Bool.false_ne_true, gatedWrite_idle _ _ hb, writeLanes_all s off w v _ hall, Bool.or_false]
    rw [hmem]

/-- A write of GRAY comes to what R65 and R71 say. -/
theorem writeGray_outcome (p : Params) {s : State} {w : Width} {off : Nat} (v : Word) (hal : off % w.lanes = 0)
    (lo : grayBase ≤ off) (hi : off < labelBase) (hmis : misplaced w off = false) :
    AccessOutcome p s (.wr w off v) (busAccess p (.wr w off v) s) := by
  have lo' : blockBase ≤ off := Nat.le_trans (by decide) lo
  have hm := malformed_wr_of_ge (p := p) (s := s) v hmis lo'
  rw [readOnlyOffset_gray s lo hi, Bool.or_false, ← laneOutOfRange_gray s w lo hi] at hm
  have hwrite := busWrite_gray hal p v s lo hi
  cases hb : s.busy with
  | true =>
    cases hlane : s.laneOutOfRange w (off - grayBase) with
    | true => exact .of_setAccerr (hm.trans hlane) (hwrite.trans (by simp [writeGray, hlane, hb]))
    | false =>
      exact .of_gatedWrite (act := s) (hm.trans hlane) (ungated_of_ge lo') rfl rfl
        (hwrite.trans (by simp [writeGray, hlane, hb]))
  | false =>
    have hmem := (writeLanes_spec s off w v fun k => decide (off - grayBase + k < s.imageSize)).1.1
    have hover : (busWrite p w off v s).errOverrun = s.errOverrun := by rw [hwrite, writeGray_idle hb, hmem]
    have hacc : (busWrite p w off v s).errAccerr = (s.errAccerr || s.laneOutOfRange w (off - grayBase)) := by
      rw [hwrite, writeGray_idle hb]
    cases hlane : s.laneOutOfRange w (off - grayBase) with
    | true =>
      exact .malformed (hm.trans hlane) (hacc.trans (by rw [hlane, Bool.or_true])) hover
        fun h => absurd (hb.symm.trans h) Bool.false_ne_true
    | false => exact .done (hm.trans hlane) (.inr hb) (hacc.trans (by rw [hlane, Bool.or_false])) hover

/-- The registers whose 32-bit write is malformed: the read-only ones (R64), and a size register with an illegal value
(R27, R28). -/
def Reg.refuses (p : Params) (v : Word) : Reg → Bool
  | .status | .regionNext | .res0 | .res1 | .thresh | .spanY | .spanX => true
  | .width => decide (p.maxW < (v.extractLsb' 0 16).toNat)
  | .height => decide (p.maxH < (v.extractLsb' 0 16).toNat)
  | .cmd | .err | .intStatus | .intEnable | .arg0 | .arg1 => false

theorem malformed_wr_reg (p : Params) (s : State) (r : Reg) (v : Word) :
    (Access.wr .w32 (4 * r.word) v).malformed p s = r.refuses p v := by
  have hmis : misplaced .w32 (4 * r.word) = false := by cases r <;> decide
  have hlt : 4 * r.word < grayBase := by have := r.word_lt; simp only [grayBase]; omega
  rw [malformed_wr, hmis, beyondImage_of_lt s .w32 hlt]
  cases r <;> simp [Reg.word, Reg.refuses, readOnlyOffset]

/-- A 32-bit write of a register but ERR (R21 to R34, R71). -/
theorem writeReg_outcome (p : Params) (s : State) {r : Reg} (hr : r ≠ .err) (v : Word) :
    AccessOutcome p s (.wr .w32 (4 * r.word) v) (busAccess p (.wr .w32 (4 * r.word) v) s) := by
  have hwrite : busWrite p .w32 (4 * r.word) v s = writeReg p r v s := busAccess_wr_reg p r v s
  have hm := malformed_wr_reg p s r v
  cases r
  case err => exact absurd rfl hr
  case status | regionNext | res0 | res1 | thresh | spanY | spanX => exact .of_setAccerr hm hwrite
  case intStatus | intEnable => exact .done hm (.inl rfl) rfl rfl
  case cmd => exact .of_gatedWrite (act := s.issue v) hm rfl rfl rfl hwrite
  case arg0 => exact .of_gatedWrite (act := { s with arg0 := v }) hm rfl rfl rfl hwrite
  case arg1 => exact .of_gatedWrite (act := { s with arg1 := v }) hm rfl rfl rfl hwrite
  case width =>
    by_cases hlt : p.maxW < (v.extractLsb' 0 16).toNat
    · exact .of_setAccerr (hm.trans (decide_eq_true hlt)) (hwrite.trans (if_pos hlt))
    · exact .of_gatedWrite (act := State.resized { s with width := v.extractLsb' 0 16 }) (hm.trans (decide_eq_false hlt))
        rfl rfl rfl (hwrite.trans (if_neg hlt))
  case height =>
    by_cases hlt : p.maxH < (v.extractLsb' 0 16).toNat
    · exact .of_setAccerr (hm.trans (decide_eq_true hlt)) (hwrite.trans (if_pos hlt))
    · exact .of_gatedWrite (act := State.resized { s with height := v.extractLsb' 0 16 }) (hm.trans (decide_eq_false hlt))
        rfl rfl rfl (hwrite.trans (if_neg hlt))

theorem writeEntryWord_outcome (p : Params) (s : State) (id : BitVec 8) {k : Nat} (hk : k < 4) (v : Word)
    (hmis : misplaced .w32 (regionBase + 16 * id.toNat + 4 * k) = false) :
    AccessOutcome p s (.wr .w32 (regionBase + 16 * id.toNat + 4 * k) v)
      (busAccess p (.wr .w32 (regionBase + 16 * id.toNat + 4 * k) v) s) := by
  obtain ⟨lo, hi⟩ := entryWord_range id hk
  have hm := malformed_wr_of_ge (p := p) (s := s) v hmis lo
  rw [beyondImage_of_lt s .w32 hi, readOnlyOffset_entryWord s id hk, Bool.false_or] at hm
  have hwrite := busWrite_entryWord p id hk v s
  by_cases hlink : k = 2 ∧ s.allocated id = true
  · exact .of_gatedWrite (act := s.setRegion id { s.region id with capstone := v.extractLsb' 0 16 })
      (hm.trans (by rw [decide_eq_true hlink]; rfl)) (ungated_of_ge lo) rfl rfl (hwrite.trans (if_pos hlink))
  · exact .of_setAccerr (hm.trans (by rw [decide_eq_false hlink]; rfl)) (hwrite.trans (if_neg hlink))

/-- A write but one of ERR, which clears flags (R24). -/
theorem busWrite_outcome (p : Params) (s : State) {w : Width} {off : Nat} {v : Word}
    (herr : Access.wr w off v ≠ .wr .w32 0x008 v) : AccessOutcome p s (.wr w off v) (busAccess p (.wr w off v) s) := by
  cases hmis : misplaced w off with
  | true => exact .of_setAccerr (by rw [malformed_wr, hmis]; rfl) (busWrite_misplaced hmis p v s)
  | false =>
    cases place_of_not_misplaced hmis with
    | register r => exact writeReg_outcome p s (by rintro rfl; exact herr rfl) v
    | block hal lo hi =>
      have hlt : off < grayBase := Nat.lt_trans hi (by decide)
      have hm := malformed_wr_of_ge (p := p) (s := s) v hmis lo
      rw [beyondImage_of_lt s w hlt, readOnlyOffset_block s lo hi] at hm
      have hmem := (writeLanes_spec s off w v fun _ => true).1.1
      exact .of_gatedWrite hm (ungated_of_ge lo) (by rw [hmem]) (by rw [hmem]) (busWrite_block hal p v s lo hi)
    | eccArray hal lo hi =>
      have hm := malformed_wr_of_ge (p := p) (s := s) v hmis (Nat.le_trans (by decide) lo)
      rw [readOnlyOffset_eccArray s lo hi, Bool.or_true] at hm
      exact .of_setAccerr hm (busWrite_eccArray hal p v s lo hi)
    | regionWord id hk => exact writeEntryWord_outcome p s id hk v hmis
    | gray hal lo hi => exact writeGray_outcome p v hal lo hi hmis
    | label hal lo =>
      have hm := malformed_wr_of_ge (p := p) (s := s) v hmis (Nat.le_trans (by decide) lo)
      rw [readOnlyOffset_label s lo, Bool.or_true] at hm
      exact .of_setAccerr hm (busWrite_label hal p v s lo)

/-- Every access inside the aperture but a write of ERR. -/
theorem busAccess_outcome (p : Params) (s : State) {a : Access} (hin : a.offset < apertureEnd)
    (herr : ∀ v, a ≠ .wr .w32 0x008 v) : AccessOutcome p s a (busAccess p a s) := by
  cases a with
  | rd w off => exact busRead_outcome p s w hin
  | wr w off v => exact busWrite_outcome p s (herr v)

/-- Settles O35: a gated access while BUSY is malformed or dropped. -/
theorem busyAccessesAreDropped : Obligations.BusyAccessesAreDropped := by
  intro s a hb hin hgated
  have herr : ∀ v, a ≠ .wr .w32 0x008 v := by
    rintro v rfl
    cases hgated
  refine ⟨_, hostAccess_inside s hin, ?_⟩
  cases busAccess_outcome Config.params s hin herr with
  | malformed hm _ _ hbusy =>
    rw [hbusy hb, if_pos hm]
    cases a <;> exact ⟨rfl, rfl⟩
  | dropped hm _ _ ht =>
    rw [ht, hm]
    cases a <;> exact ⟨rfl, rfl⟩
  | done _ hfree =>
    rcases hfree with hfree | hidle
    · exact absurd (hgated.symm.trans hfree) Bool.false_ne_true
    · exact absurd (hidle.symm.trans hb) Bool.false_ne_true

/-- Settles O36: the two flags in each of the three outcomes. -/
theorem accessErrorFlags : Obligations.AccessErrorFlags := by
  intro s t a herr ht
  obtain ⟨hin, rfl⟩ := hostAccess_cases ht
  cases busAccess_outcome Config.params s hin herr with
  | malformed hm hacc hover _ => simp [hm, hacc, hover]
  | dropped hm hg hb ht => simp [hm, hg, hb, ht]
  | done hm hfree hacc hover =>
    rcases hfree with hfree | hidle
    · simp [hm, hfree, hacc, hover]
    · simp [hm, hidle, hacc, hover]

end Sys2Proof.Machine
end

