-- ==== Sys2Proof/Proofs/WindowAccess.lean ====
section
/-! Accesses of the byte windows and of the region table while idle (R61, R65 to R69): O37, O41, O42, O43. -/

namespace Sys2Proof.Machine

/-! ## Lanes of a window -/

theorem gatherLanes_congr {w : Width} {f g : Nat → Byte} (h : ∀ k < w.lanes, f k = g k) :
    gatherLanes w f = gatherLanes w g := by
  cases w <;> simp only [Width.lanes] at h <;> simp [gatherLanes, h]

/-- The lanes of an aligned access do not cross a multiple of 4, so neither the end of a window (R60, R63). -/
theorem lane_lt {w : Width} {off k limit : Nat} (hal : off % w.lanes = 0) (hk : k < w.lanes) (hlimit : limit % 4 = 0)
    (hi : off < limit) : off + k < limit := by
  cases w <;> simp only [Width.lanes] at hal hk <;> omega

/-- The byte an idle block shows at an offset of a byte window: 0 beyond the image (R65, R66). -/
def State.windowByte (s : State) (a : Nat) : Byte :=
  if grayBase ≤ a ∧ s.imageSize ≤ a % 0x100000 then 0 else s.readByte a

theorem windowByte_of_lt (s : State) {a : Nat} (h : a < grayBase) : s.windowByte a = s.readByte a :=
  if_neg fun h' => Nat.not_le.mpr h h'.1

/-- In an image window, the pixel's number decides (R65, R66). -/
theorem windowByte_image (s : State) {base o : Nat} (hbase : base = grayBase ∨ base = labelBase) (ho : o < 0x100000) :
    s.windowByte (base + o) = if o < s.imageSize then s.readByte (base + o) else 0 := by
  have hmod : (base + o) % 0x100000 = o := by
    rcases hbase with rfl | rfl <;> simp only [grayBase, labelBase] <;> omega
  have hge : grayBase ≤ base + o := by
    rcases hbase with rfl | rfl <;> simp only [grayBase, labelBase] <;> omega
  rw [State.windowByte, hmod]
  by_cases hlt : o < s.imageSize
  · rw [if_pos hlt, if_neg (by omega)]
  · rw [if_neg hlt, if_pos (by omega)]

/-! ## Reads of a window -/

/-- While idle a read of an image returns the bytes it shows, and sets ACCERR when some lane is beyond (R65, R66). -/
theorem readImage_idle {s : State} (hb : s.busy = false) {w : Width} {off base : Nat}
    (hbase : base = grayBase ∨ base = labelBase) (hal : off % w.lanes = 0) (lo : base ≤ off) (hi : off < base + 0x100000) :
    readImage w base off s = (gatherLanes w fun k => s.windowByte (off + k),
      if s.laneOutOfRange w (off - base) then s.setAccerr else s) := by
  have hlane : ∀ k < w.lanes, s.windowByte (off + k) = if off - base + k < s.imageSize then s.readByte (off + k) else 0 := by
    intro k hk
    have hlt := lane_lt hal hk (by rcases hbase with rfl | rfl <;> rfl) hi
    have hoff : off + k = base + (off - base + k) := by omega
    rw [hoff, windowByte_image s hbase (by omega)]
  rw [readImage, gatherLanes_congr hlane]
  cases hout : s.laneOutOfRange w (off - base) with
  | true => simp [hb]
  | false =>
    have hin : ∀ k < w.lanes, (if off - base + k < s.imageSize then s.readByte (off + k) else 0) = s.readByte (off + k) := by
      intro k hk
      simp only [State.laneOutOfRange, decide_eq_false_iff_not] at hout
      rw [if_pos (by omega)]
    rw [gatherLanes_congr hin]
    simp [hb]

/-- While idle an aligned read of a byte window returns the bytes the window shows in its lanes, and sets ACCERR when some
lane is beyond the image (R61, R65 to R67, R69). -/
theorem busRead_window {s : State} (hb : s.busy = false) {w : Width} {off : Nat} (hal : off % w.lanes = 0)
    (hmap : mapped off) :
    busRead w off s = (gatherLanes w fun k => s.windowByte (off + k), if beyondImage s w off then s.setAccerr else s) := by
  rcases hmap with ⟨lo, hi⟩ | ⟨lo, hi⟩
  · have hlt : off < grayBase := Nat.lt_trans hi (by decide)
    have hbytes : ∀ k < w.lanes, s.windowByte (off + k) = s.readByte (off + k) := fun k hk =>
      windowByte_of_lt s (lane_lt hal hk rfl hlt)
    rw [busRead_buffer hal s lo hi, gatherLanes_congr hbytes, gatedRead_idle _ _ hb, beyondImage_of_lt s w hlt]
    rfl
  · by_cases hgray : off < labelBase
    · rw [busRead_gray hal s lo hgray, readImage_idle hb (.inl rfl) hal lo hgray, laneOutOfRange_gray s w lo hgray]
    · have lo' := Nat.le_of_not_lt hgray
      rw [busRead_label hal s lo', readImage_idle hb (.inr rfl) hal lo' hi, laneOutOfRange_label s w lo' hi]

/-- The 8-bit read of a window (R61). -/
theorem busRead_byte {s : State} (hb : s.busy = false) {off : Nat} (hmap : mapped off) :
    busRead .w8 off s = ((s.windowByte off).setWidth 32, if beyondImage s .w8 off then s.setAccerr else s) :=
  busRead_window hb (Nat.mod_one off) hmap

/-- Settles O37: every lane of an aligned read shows what the 8-bit read of its offset shows. -/
theorem readsAreLittleEndian : Obligations.ReadsAreLittleEndian := by
  intro s off hidle hmap
  have hb := busy_of_idle hidle
  have lane_mapped {w : Width} (hal : off % w.lanes = 0) {k : Nat} (hk : k < w.lanes) : mapped (off + k) :=
    hmap.imp (fun h => ⟨Nat.le_add_right_of_le h.1, lane_lt hal hk rfl h.2⟩)
      (fun h => ⟨Nat.le_add_right_of_le h.1, lane_lt hal hk rfl h.2⟩)
  have byte {w : Width} (hal : off % w.lanes = 0) {k : Nat} (hk : k < w.lanes) :
      (busRead .w8 (off + k) s).1.setWidth 8 = s.windowByte (off + k) := by
    rw [busRead_byte hb (lane_mapped hal hk)]
    exact (BitVec.setWidth_setWidth_of_le _ (by decide)).trans (BitVec.setWidth_eq _)
  refine ⟨fun hal => ?half, fun hal => ?word⟩
  case half =>
    show (busRead .w16 off s).1 = ((busRead .w8 (off + 1) s).1.setWidth 8 ++ (busRead .w8 (off + 0) s).1.setWidth 8 :
      BitVec 16).setWidth 32
    rw [busRead_window hb (w := .w16) hal hmap, byte (w := .w16) hal (by decide), byte (w := .w16) hal (by decide)]
    rfl
  case word =>
    show (busRead .w32 off s).1 = (busRead .w8 (off + 3) s).1.setWidth 8 ++ (busRead .w8 (off + 2) s).1.setWidth 8 ++
      (busRead .w8 (off + 1) s).1.setWidth 8 ++ (busRead .w8 (off + 0) s).1.setWidth 8
    rw [busRead_window hb (w := .w32) hal hmap, byte (w := .w32) hal (by decide), byte (w := .w32) hal (by decide),
      byte (w := .w32) hal (by decide), byte (w := .w32) hal (by decide)]
    rfl

/-! ## Byte reads -/

/-- The 8-bit read of a window as a host access. -/
theorem hostAccess_byte {s : State} (hb : s.busy = false) {off : Nat} (hmap : mapped off) :
    hostAccess (.rd .w8 off) s =
      .next { (if beyondImage s .w8 off then s.setAccerr else s) with readData := (s.windowByte off).setWidth 32 } := by
  have hin : off < apertureEnd := by
    rcases hmap with ⟨_, hi⟩ | ⟨_, hi⟩
    · exact Nat.lt_trans hi (by decide)
    · exact hi
  rw [hostAccess_inside (a := .rd .w8 off) s hin, busAccess, busRead_byte hb hmap]

/-- Below the images an 8-bit read returns the byte and changes nothing (R67, R69). -/
theorem hostAccess_byte_buffer {s : State} (hb : s.busy = false) {off : Nat} (lo : blockBase ≤ off) (hi : off < bufferEnd) :
    hostAccess (.rd .w8 off) s = .next { s with readData := (s.readByte off).setWidth 32 } := by
  have hlt : off < grayBase := Nat.lt_trans hi (by decide)
  rw [hostAccess_byte hb (.inl ⟨lo, hi⟩), beyondImage_of_lt s .w8 hlt, windowByte_of_lt s hlt]
  rfl

/-- In an image window an 8-bit read returns the pixel's byte, or 0 with ACCERR beyond the image (R65, R66). -/
theorem hostAccess_byte_image {s : State} (hb : s.busy = false) {base o : Nat} (hbase : base = grayBase ∨ base = labelBase)
    (ho : o < 0x100000) :
    hostAccess (.rd .w8 (base + o)) s = if o < s.imageSize then
        .next { s with readData := (s.readByte (base + o)).setWidth 32 }
      else .next { s with errAccerr := true, readData := 0 } := by
  have hmap : mapped (base + o) := by
    right
    rcases hbase with rfl | rfl <;> simp only [grayBase, labelBase, apertureEnd] <;> omega
  have hbeyond : beyondImage s .w8 (base + o) = decide (s.imageSize ≤ o) := by
    obtain ⟨hge, hmod⟩ : 0x100000 ≤ base + o ∧ (base + o) % 0x100000 = o := by
      rcases hbase with rfl | rfl <;> simp only [grayBase, labelBase] <;> omega
    rw [beyondImage, decide_eq_true hge, hmod, Bool.true_and]
    exact decide_eq_decide.mpr Nat.lt_succ_iff
  rw [hostAccess_byte hb hmap, hbeyond, windowByte_image s hbase ho]
  by_cases hin : o < s.imageSize
  · rw [if_pos hin, if_pos hin, decide_eq_false (Nat.not_le.mpr hin)]
    rfl
  · rw [if_neg hin, if_neg hin, decide_eq_true (Nat.le_of_not_lt hin)]
    rfl

/-- Settles O42: the images by `hostAccess_byte_image`, the buffers by `hostAccess_byte_buffer`. -/
theorem imageByteReads : Obligations.ImageByteReads := by
  intro s o hidle
  have hb := busy_of_idle hidle
  refine ⟨fun ho hin => ?inside, fun ho hout => ?beyond, fun ho => ?block, fun ho => ?arrays⟩
  case inside => exact ⟨(hostAccess_byte_image hb (.inl rfl) ho).trans (if_pos hin),
    (hostAccess_byte_image hb (.inr rfl) ho).trans (if_pos hin)⟩
  case beyond => exact ⟨(hostAccess_byte_image hb (.inl rfl) ho).trans (if_neg (Nat.not_lt.mpr hout)),
    (hostAccess_byte_image hb (.inr rfl) ho).trans (if_neg (Nat.not_lt.mpr hout))⟩
  case block =>
    exact hostAccess_byte_buffer hb (Nat.le_add_right _ _) (by simp only [blockBase, bufferEnd]; omega)
  case arrays =>
    have array {base : Nat} (lo : blockBase ≤ base) (hi : base + 64 ≤ bufferEnd) :=
      hostAccess_byte_buffer hb (off := base + o) (by omega) (by omega)
    exact ⟨array (by decide) (by decide), array (by decide) (by decide), array (by decide) (by decide)⟩

/-! ## Writes of BLOCK and GRAY -/

/-- Settles O41: while idle the lanes are written, all of BLOCK's, and GRAY's below W·H. -/
theorem byteWindowWrites : Obligations.ByteWindowWrites := by
  intro s w off v hidle hal
  have hb := busy_of_idle hidle
  refine ⟨fun lo hi => ?block, fun lo hi => ?gray⟩
  case block =>
    obtain ⟨⟨hmem, _⟩, hbytes⟩ := writeLanes_spec s off w v fun _ => true
    refine ⟨s.writeLanes off w v fun _ => true, ?_, hmem, fun a => ?_⟩
    · rw [hostAccess_inside (a := .wr w off v) s (Nat.lt_trans hi (by decide)), busAccess, busWrite_block hal _ v s lo hi,
        gatedWrite_idle _ _ hb]
    · simpa using hbytes a
  case gray =>
    have hwrite := busWrite_gray hal Config.params v s lo hi
    rw [writeGray_idle hb] at hwrite
    obtain ⟨⟨hmem, _⟩, hbytes⟩ := writeLanes_spec s off w v fun k => decide (off - grayBase + k < s.imageSize)
    refine ⟨_, (hostAccess_inside (a := .wr w off v) s (Nat.lt_trans hi (by decide))).trans (congrArg _ hwrite), ?_,
      fun a => (hbytes a).trans ?_⟩
    · rw [hmem]
      rfl
    · have hlane : (off ≤ a ∧ a < off + w.lanes ∧ decide (off - grayBase + (a - off) < s.imageSize) = true) ↔
          (off ≤ a ∧ a < off + w.lanes ∧ a < grayBase + s.width.toNat * s.height.toNat) := by
        rw [decide_eq_true_eq, State.imageSize]
        omega
      simp only [hlane]

/-! ## The region table -/

/-- While idle a word of an entry reads as the table shows it (R43, R68). -/
theorem hostAccess_rd_entryWord {s : State} (hb : s.busy = false) (id : BitVec 8) {k : Nat} (hk : k < 4) :
    hostAccess (.rd .w32 (regionBase + 16 * id.toNat + 4 * k)) s = .next { s with readData := s.regionWord id k } := by
  have hin := Nat.lt_trans (entryWord_range id hk).2 (show grayBase < apertureEnd by decide)
  rw [hostAccess_inside (a := .rd .w32 _) s hin, busAccess, busRead_entryWord id hk, gatedRead_idle _ _ hb]

theorem hostAccess_wr_entryWord (id : BitVec 8) {k : Nat} (hk : k < 4) (v : Word) (s : State) :
    hostAccess (.wr .w32 (regionBase + 16 * id.toNat + 4 * k) v) s = .next (writeRegionWord id k v s) := by
  have hin := Nat.lt_trans (entryWord_range id hk).2 (show grayBase < apertureEnd by decide)
  rw [hostAccess_inside (a := .wr .w32 _ v) s hin, busAccess, busWrite_entryWord _ id hk]

theorem regionWord_unallocated {s : State} {id : BitVec 8} (h : s.allocated id = false) (k : Nat) :
    s.regionWord id k = 0 := by
  simp [State.regionWord, h]

/-- A write of any word but the link word of an allocated entry is malformed (R68). -/
theorem writeRegionWord_malformed {id : BitVec 8} {k : Nat} {s : State} (h : ¬ (k = 2 ∧ s.allocated id = true)) (v : Word) :
    writeRegionWord id k v s = s.setAccerr := if_neg h

/-- While idle the link word of an allocated entry takes the write (R68, R171). -/
theorem writeRegionWord_link {id : BitVec 8} {s : State} (hb : s.busy = false) (h : s.allocated id = true) (v : Word) :
    writeRegionWord id 2 v s = s.setRegion id { s.region id with capstone := v.extractLsb' 0 16 } := by
  rw [writeRegionWord, if_pos ⟨rfl, h⟩, gatedWrite_idle _ _ hb]

/-- Settles O43: the four words of an entry, and the one write that is not malformed. -/
theorem regionTableAccess : Obligations.RegionTableAccess := by
  intro s id v hidle
  have hb := busy_of_idle hidle
  have reads (k : Nat) (hk : k < 4) {x : Word} (hx : s.regionWord id k = x) := hx ▸ hostAccess_rd_entryWord hb id hk
  have writes (k : Nat) (hk : k < 4) {t : State} (ht : writeRegionWord id k v s = t) := ht ▸ hostAccess_wr_entryWord id hk v s
  refine ⟨fun halloc => ?allocated, fun halloc => ?unallocated, fun k hk => ?others⟩
  case allocated =>
    have ha : s.allocated id = true := decide_eq_true halloc
    have shown (k : Nat) (hk : k < 4) := reads k hk (if_pos ha)
    refine ⟨shown 0 (by decide), shown 1 (by decide), shown 2 (by decide), shown 3 (by decide), _,
      writes 2 (by decide) (writeRegionWord_link hb ha v), rfl, ?_, fun n hn => ?_⟩
    · rw [State.region_setRegion, if_pos rfl]
    · rw [State.region_setRegion, if_neg hn.symm]
  case unallocated =>
    have ha : s.allocated id = false := decide_eq_false halloc
    have shown (k : Nat) (hk : k < 4) := reads k hk (regionWord_unallocated ha k)
    exact ⟨shown 0 (by decide), shown 1 (by decide), shown 2 (by decide), shown 3 (by decide),
      writes 2 (by decide) (writeRegionWord_malformed (by simp [ha]) v)⟩
  case others =>
    rcases hk with rfl | rfl | rfl
    · exact writes 0 (by decide) (writeRegionWord_malformed (by simp) v)
    · exact writes 1 (by decide) (writeRegionWord_malformed (by simp) v)
    · exact writes 3 (by decide) (writeRegionWord_malformed (by simp) v)

end Sys2Proof.Machine
end

