-- ==== Sys2Proof/Proofs/ReadsRepeat.lean ====
section
/-! A read but that of SPAN_X changes error flags only, and returns the same again (R72): O46. -/

namespace Sys2Proof.Machine

/-! ## What a read leaves -/

theorem gatedRead_fifo (s : State) (v : Word) : (s.gatedRead v).2.fifo = s.fifo := by
  rcases gatedRead_state s v with h | h <;> simp [h]

/-- Only a read of SPAN_X takes an entry from the FIFO (R72, R173). -/
theorem busRead_fifo (w : Width) {off : Nat} (h : off ≠ 0x038) (s : State) : (busRead w off s).2.fifo = s.fifo := by
  have image (base : Nat) : (readImage w base off s).2.fifo = s.fifo := by
    unfold readImage
    split
    · split <;> rfl
    · exact gatedRead_fifo s _
  rcases misplaced_or_place w off with hmis | hplace
  · rw [busRead_misplaced hmis]
    rfl
  · cases hplace with
    | register r =>
      rw [busRead_reg]
      cases r
      case spanX => exact absurd rfl h
      case status | err | intStatus | intEnable | spanY => rfl
      all_goals exact gatedRead_fifo s _
    | block hal lo hi => exact busRead_buffer hal s lo (Nat.lt_trans hi (by decide)) ▸ gatedRead_fifo s _
    | eccArray hal lo hi => exact busRead_buffer hal s (Nat.le_trans (by decide) lo) hi ▸ gatedRead_fifo s _
    | regionWord id hk => exact busRead_entryWord id hk s ▸ gatedRead_fifo s _
    | gray hal lo hi => exact busRead_gray hal s lo hi ▸ image grayBase
    | label hal lo => exact busRead_label hal s lo ▸ image labelBase

/-- `s` with other error flags and another value returned to the host (R72). -/
def State.withFlags (s : State) (overrun accerr : Bool) (data : Word) : State :=
  { s with errOverrun := overrun, errAccerr := accerr, readData := data }

/-- A read but that of SPAN_X changes the error flags and the returned value only (R72). -/
theorem busAccess_rd_withFlags (p : Params) (w : Width) {off : Nat} (h : off ≠ 0x038) (s : State) :
    ∃ overrun accerr, busAccess p (.rd w off) s = s.withFlags overrun accerr (busRead w off s).1 := by
  rw [busAccess]
  rcases busRead_state w off s with heq | heq | heq | ⟨sp, rest, hfifo, heq⟩
  · exact ⟨s.errOverrun, s.errAccerr, by rw [heq]; rfl⟩
  · exact ⟨true, s.errAccerr, by rw [heq]; rfl⟩
  · exact ⟨s.errOverrun, true, by rw [heq]; rfl⟩
  · have hkept := busRead_fifo w h s
    rw [heq, hfifo] at hkept
    exact absurd hkept (List.ne_cons_self)

/-! ## What a read returns -/

theorem gatedRead_fst (s : State) (v : Word) : (s.gatedRead v).1 = if s.busy then 0 else v := by
  unfold State.gatedRead
  split <;> rfl

/-- No read but that of ERR returns anything of the error flags (R24, R72). -/
theorem busRead_fst_withFlags {w : Width} {off : Nat} (h : ¬ (w = .w32 ∧ off = 0x008)) (s : State) (overrun accerr : Bool)
    (data : Word) : (busRead w off (s.withFlags overrun accerr data)).1 = (busRead w off s).1 := by
  have gated (v : Word) : ((s.withFlags overrun accerr data).gatedRead v).1 = (s.gatedRead v).1 := by
    rw [gatedRead_fst, gatedRead_fst]
    rfl
  have image (base : Nat) :
      (readImage w base off (s.withFlags overrun accerr data)).1 = (readImage w base off s).1 := by
    simp only [readImage, apply_ite Prod.fst, gatedRead_fst]
    rfl
  rcases misplaced_or_place w off with hmis | hplace
  · rw [busRead_misplaced hmis, busRead_misplaced hmis]
    rfl
  · cases hplace with
    | register r =>
      rw [busRead_reg, busRead_reg]
      cases r
      case err => exact absurd ⟨rfl, rfl⟩ h
      case status | intStatus | intEnable | spanY => rfl
      case spanX =>
        unfold readReg State.popSpan
        cases hfifo : s.fifo <;> simp [State.withFlags, hfifo, State.badRead]
      all_goals exact gated _
    | block hal lo hi =>
      have hi' := Nat.lt_trans hi (show syndBase < bufferEnd by decide)
      rw [busRead_buffer hal _ lo hi', busRead_buffer hal _ lo hi']
      exact gated _
    | eccArray hal lo hi =>
      have lo' := Nat.le_trans (show blockBase ≤ syndBase by decide) lo
      rw [busRead_buffer hal _ lo' hi, busRead_buffer hal _ lo' hi]
      exact gated _
    | regionWord id hk =>
      rw [busRead_entryWord id hk, busRead_entryWord id hk]
      exact gated _
    | gray hal lo hi =>
      rw [busRead_gray hal _ lo hi, busRead_gray hal _ lo hi]
      exact image grayBase
    | label hal lo =>
      rw [busRead_label hal _ lo, busRead_label hal _ lo]
      exact image labelBase

/-- Settles O46: a read leaves `State.withFlags`, which no read sees but that of ERR, and that one leaves the flags alone. -/
theorem readsAreIdempotent : Obligations.ReadsAreIdempotent := by
  intro s w off hoff
  obtain ⟨overrun, accerr, heq⟩ := busAccess_rd_withFlags Config.params w hoff s
  refine ⟨by rw [heq]; rfl, ?again⟩
  case again =>
    by_cases herr : w = .w32 ∧ off = 0x008
    · obtain ⟨rfl, rfl⟩ := herr
      rfl
    · rw [heq]
      exact busRead_fst_withFlags herr s overrun accerr _

end Sys2Proof.Machine
end

