-- ==== Sys2Proof/Proofs/SeedSpan.lean ====
section
/-! The first turn of a FILL.SPANS (R168, R170): O28. -/

namespace Sys2Proof.Machine

/-- A fill that is ready passes every check (R169). -/
theorem fillCheck_of_ready {s : State} (h : Sys2Proof.Claims.fillReady s) : fillCheck s = none := by
  obtain ⟨hvalid, hx, hy, hne, hlabel⟩ := h
  have hseed : s.cur.seedInImage = true := decide_eq_true ⟨hx, hy⟩
  have hcell : s.label (s.cur.seedY.toNat * s.cur.w + s.cur.seedX.toNat) = s.cur.fromLabel := hlabel
  simp [fillCheck, hvalid, hseed, hne, hcell]

/-- The span of a line is the maximal one of FROM cells around its start (R160). -/
theorem lineSpan_maximal {c : FillCtx} {s : State} {x y : Nat} (hx : x < c.w) (hstart : c.labelAt s x y = c.source) :
    (∀ i, (lineSpan c s x y).1 ≤ i → i ≤ (lineSpan c s x y).2 → c.labelAt s i y = c.source) ∧
    (0 < (lineSpan c s x y).1 → c.labelAt s ((lineSpan c s x y).1 - 1) y ≠ c.source) ∧
    ((lineSpan c s x y).2 + 1 < c.w → c.labelAt s ((lineSpan c s x y).2 + 1) y ≠ c.source) := by
  obtain ⟨_, hleft, hleftEnd⟩ := extendLeft_spec (c.isFrom s y) x
  obtain ⟨_, _, hright, hrightEnd⟩ := extendRight_spec (c.isFrom s y) (c.w - 1 - x) x
  simp only [FillCtx.isFrom, beq_iff_eq, beq_eq_false_iff_ne] at hleft hleftEnd hright hrightEnd
  refine ⟨fun i hlo hhi => ?_, hleftEnd, fun hlt => hrightEnd ?_⟩
  · rcases Nat.lt_trichotomy i x with hi | rfl | hi
    · exact hleft i hlo hi
    · exact hstart
    · exact hright i hi hhi
  · have hroom : extendRight (c.isFrom s y) (c.w - 1 - x) x + 1 < c.w := hlt
    show extendRight (c.isFrom s y) (c.w - 1 - x) x < x + (c.w - 1 - x)
    omega

/-- On an empty FIFO, PUSH_SPAN has room (R5, R170). -/
theorem pushSpan_empty {p : Params} (hp : p.legal) (before : Bool) {f : Fill} (sp : Span) (h : f.s.fifo = []) :
    pushSpan p before f sp =
      { f.s with fifo := [sp], phase := .filling ⟨f.stack, f.spans, f.pixels, none, before⟩ } := by
  obtain ⟨_, _, _, _, _, ⟨hdepth, _⟩, _⟩ := hp
  have hroom : f.s.fifo.length < p.spanFifoDepth := by rw [h]; exact hdepth
  rw [pushSpan, if_pos hroom, h, List.nil_append]

/-- The first turn of a ready FILL.SPANS visits the seed's line on the emptied FIFO and pushes its span (R168, R170). -/
theorem exec_fillSpans_ready {s : State} (h : Sys2Proof.Claims.fillReady s) :
    exec .fillSpans s = .next (pushSpan Config.params s.ffOvf (firstSpan Config.params s).1 (firstSpan Config.params s).2) := by
  show Host.Outcome.next (fillSpansStart Config.params Instr.fillSpans.opcode s) = _
  rw [fillSpansStart, fillCheck_of_ready h]
  rfl

/-- What that turn leaves (R160, R168, R170). -/
theorem pushSpan_firstSpan {p : Params} (hp : p.legal) (s : State) {l r : Nat}
    (hlr : lineSpan (fillCtx p s.cur) s s.cur.seedX.toNat s.cur.seedY.toNat = (l, r)) :
    pushSpan p s.ffOvf (firstSpan p s).1 (firstSpan p s).2 =
      { relabelSpan (fillCtx p s.cur) s s.cur.seedY.toNat l r with
        ffOvf := false
        fifo := [⟨s.cur.seedY, BitVec.ofNat 16 l, BitVec.ofNat 16 r⟩]
        phase := .filling ⟨[⟨s.cur.seedY, BitVec.ofNat 16 r, BitVec.ofNat 16 l, BitVec.ofNat 16 l⟩], 1, r - l + 1, none,
          s.ffOvf⟩ } := by
  have hlr' : lineSpan (fillCtx p s.cur) { s with ffOvf := false, fifo := [] } s.cur.seedX.toNat s.cur.seedY.toNat =
      (l, r) := hlr
  rw [pushSpan_empty hp _ _ rfl]
  simp only [firstSpan, visitLine, Fill.start, hlr', BitVec.ofNat_toNat, BitVec.setWidth_eq, Nat.zero_add]
  rfl

/-- Settles O28: the pushed span is the maximal one, and relabelling it is all that memory sees. -/
theorem fillSpansPushesSeedSpan : Obligations.FillSpansPushesSeedSpan := by
  intro s hready x y w
  have hturn := exec_fillSpans_ready hready
  obtain ⟨_, hx, _, _, hlabel⟩ := hready
  set c := fillCtx Config.params s.cur
  obtain ⟨hl, hr, hrw⟩ := lineSpan_inside (c := c) (s := s) (y := y) hx
  obtain ⟨hin, hleft, hright⟩ := lineSpan_maximal (c := c) (s := s) (y := y) hx hlabel
  generalize hlr : lineSpan c s x y = lr at hl hr hrw hin hleft hright
  obtain ⟨l, r⟩ := lr
  rw [pushSpan_firstSpan Config.params_legal s hlr] at hturn
  refine ⟨_, l, r, hturn, hl, hr, hrw, fun i hlo hhi => ⟨hin i hlo hhi, ?relabelled⟩, hleft, hright, fun a ha => ?frame,
    fun hissued => ?status, rfl⟩
  case relabelled =>
    have hcell : y * w + l ≤ y * w + i ∧ y * w + i < y * w + l + (r + 1 - l) := by omega
    exact (label_relabelSpan c s y l r (y * w + i)).trans (if_pos hcell)
  case frame =>
    exact (State.readByte_writeBytes s (labelBase + (y * w + l)) (r + 1 - l) _ a).trans
      (if_neg (by simp only [labelBase] at *; omega))
  case status =>
    rw [(statusWord_flags _).2.2.1, (statusWord_flags s).2.2.1, State.ffOvfShown_issued hissued]
    rfl

end Sys2Proof.Machine
end

