-- ==== Sys2Proof/Proofs/Encoding.lean ====
section
/-! The decoder against the encoder and the opcode table (R90 to R97, R100): O1, O2, O3, O4. -/

namespace Sys2Proof

/-! ## The fields of a word under a row's mask -/

/-- Bits 3:0 are the OP field (R90). -/
theorem and_opMask (w : Word) : w &&& 0x0000000F = (opField w).setWidth 32 := by
  have hmod : w.toNat &&& (15 : Word).toNat = w.toNat % 16 := Nat.and_two_pow_sub_one_eq_mod w.toNat 4
  apply BitVec.eq_of_toNat_eq
  rw [opField, BitVec.toNat_and, BitVec.toNat_setWidth, BitVec.extractLsb'_toNat, Nat.shiftRight_zero, hmod]
  omega

/-- Bits 4:0 are INV and the OP field (R90). -/
theorem and_invMask (w : Word) :
    w &&& 0x0000001F = (if invField w then 0x00000010 else 0) ||| (opField w).setWidth 32 := by
  rw [← and_opMask]
  show w &&& (BitVec.twoPow 32 4 ||| 0x0000000F) = _
  rw [BitVec.and_or_distrib_left, BitVec.and_twoPow]
  rfl

/-- Bits 5 and 3:0 are SPANS and the OP field (R90). -/
theorem and_spansMask (w : Word) :
    w &&& 0x0000002F = (if spansField w then 0x00000020 else 0) ||| (opField w).setWidth 32 := by
  rw [← and_opMask]
  show w &&& (BitVec.twoPow 32 5 ||| 0x0000000F) = _
  rw [BitVec.and_or_distrib_left, BitVec.and_twoPow]
  rfl

/-- Every row reads the whole OP field (R91). -/
theorem opField_and_readMask (w : Word) (i : Instr) : opField (w &&& readMask i) = opField w := by
  have hmask : (readMask i).extractLsb' 0 4 = BitVec.allOnes 4 := by cases i <;> rfl
  rw [opField, BitVec.extractLsb'_and, hmask, BitVec.and_allOnes, opField]

/-- Bit 3 is the high bit of the OP field, which tells a reserved opcode 0x8..0xF (R91). -/
theorem and_opHighBit_eq_iff (w : Word) : w &&& 0x00000008 = 0x00000008 ↔ 8 ≤ (opField w).toNat := by
  have hbit : w &&& 0x00000008 = (opField w).setWidth 32 &&& 0x00000008 := by
    rw [← and_opMask, BitVec.and_assoc]
    rfl
  have hop : ∀ op : BitVec 4, op.setWidth 32 &&& 0x00000008 = (0x00000008 : Word) ↔ 8 ≤ op.toNat := by decide
  rw [hbit, hop]

/-! ## Decoding is the inverse of encoding on the bits read -/

/-- The decoder answers well-formed commands only (R91, R96). -/
theorem wellFormed_decode (w : Word) : (decode w).wellFormed = true := by
  fun_cases decode w
  case case11 h0 h1 h2 h3 h4 h5 h6 h7 =>
    refine decide_eq_true (Nat.le_of_not_lt fun hlt => ?_)
    interval_cases (opField w).toNat <;> contradiction
  all_goals rfl

/-- A word agrees with the CMD word of its command on the bits the command's row reads (R91, R96). -/
theorem and_readMask_decode (w : Word) : w &&& readMask (decode w) = encode (decode w) := by
  have field {k : Nat} (h : (opField w).toNat = k) : opField w = BitVec.ofNat 4 k := by
    rw [← h, BitVec.ofNat_toNat, BitVec.setWidth_eq]
  have opOnly {k : Nat} (h : (opField w).toNat = k) : w &&& 0x0000000F = (BitVec.ofNat 4 k).setWidth 32 := by
    rw [and_opMask, field h]
  have withInv (h : (opField w).toNat = 2) : w &&& 0x0000001F = if invField w then 0x00000012 else 0x00000002 := by
    rw [and_invMask, field h]
    cases invField w <;> rfl
  have withSpans (h : (opField w).toNat = 4) : w &&& 0x0000002F = if spansField w then 0x00000024 else 0x00000004 := by
    rw [and_spansMask, field h]
    cases spansField w <;> rfl
  fun_cases decode w
  case case3 hop hinv => exact (withInv hop).trans (if_pos hinv)
  case case4 hop hinv => exact (withInv hop).trans (if_neg hinv)
  case case6 hop hspans => exact (withSpans hop).trans (if_pos hspans)
  case case7 hop hspans => exact (withSpans hop).trans (if_neg hspans)
  case case11 => exact and_opMask w
  all_goals exact opOnly ‹_›

/-- The CMD word of a well-formed command reads back as its OP value and sets no ignored bit (R90, R100). -/
theorem canonicalWord (i : Instr) : Laws.CanonicalWord.Statement i := by
  cases i with
  | nop => exact Laws.CanonicalWord.nop
  | beginFrame => exact Laws.CanonicalWord.beginFrame
  | threshold => exact Laws.CanonicalWord.threshold
  | thresholdInv => exact Laws.CanonicalWord.thresholdInv
  | regionCode => exact Laws.CanonicalWord.regionCode
  | fill => exact Laws.CanonicalWord.fill
  | fillSpans => exact Laws.CanonicalWord.fillSpans
  | fmtCorrect => exact Laws.CanonicalWord.fmtCorrect
  | rsCorrect => exact Laws.CanonicalWord.rsCorrect
  | reserved7 => exact Laws.CanonicalWord.reserved7
  | reserved8F op => exact Laws.CanonicalWord.reserved8F op

/-- An OP value of 8 or more is a reserved opcode (R91, R126). -/
theorem decode_of_eight_le {w : Word} (h : 8 ≤ (opField w).toNat) : decode w = .reserved8F (opField w) := by
  unfold decode
  split
  case h_9 => rfl
  all_goals omega

/-- A command's row is chosen by the bits its mask reads (R91 to R93). -/
theorem decode_of_and_readMask {w : Word} {i : Instr} (hi : i.wellFormed = true) (h : w &&& readMask i = encode i) :
    decode w = i := by
  have hop : opField w = i.opcode := by
    obtain ⟨hcode, _⟩ := canonicalWord i hi
    rw [← opField_and_readMask w i, h, hcode]
  have flag {k : Nat} (hk : (readMask i).getLsbD k = true) : w.getLsbD k = (encode i).getLsbD k := by
    rw [← h, BitVec.getLsbD_and, hk, Bool.and_true]
  cases i
  case threshold | thresholdInv =>
    have hinv : invField w = _ := flag (k := 4) rfl
    unfold decode
    rw [hop, hinv]
    rfl
  case fill | fillSpans =>
    have hspans : spansField w = _ := flag (k := 5) rfl
    unfold decode
    rw [hop, hspans]
    rfl
  case reserved8F op =>
    have hle : 8 ≤ op.toNat := of_decide_eq_true hi
    have hop' : opField w = op := hop
    rw [decode_of_eight_le (hop' ▸ hle), hop']
  all_goals
    unfold decode
    rw [hop]
    rfl

/-- The words of a well-formed command are those that agree with its CMD word on the bits its row reads (R91). -/
theorem decode_eq_iff {w : Word} {i : Instr} (hi : i.wellFormed = true) :
    decode w = i ↔ w &&& readMask i = encode i :=
  ⟨fun h => h ▸ and_readMask_decode w, decode_of_and_readMask hi⟩

/-- The words of a reserved opcode 0x8..0xF (R91, R126). -/
theorem decode_eq_reserved8F_iff {w : Word} {op : BitVec 4} :
    decode w = .reserved8F op ↔ w &&& 0x00000008 = 0x00000008 ∧ op = opField w := by
  rw [and_opHighBit_eq_iff]
  constructor
  · intro h
    have hwf : (Instr.reserved8F op).wellFormed = true := h ▸ wellFormed_decode w
    have hword := congrArg opField ((decode_eq_iff hwf).mp h)
    rw [opField_and_readMask, (canonicalWord _ hwf).1] at hword
    have hop : opField w = op := hword
    rw [hop]
    exact ⟨of_decide_eq_true hwf, rfl⟩
  · rintro ⟨hle, rfl⟩
    exact decode_of_eight_le hle

/-- A word cut into bytes, lowest first, and put together again (R61). -/
theorem wordOfBytes_byteOfWord (w : Word) :
    wordOfBytes (byteOfWord w 0) (byteOfWord w 1) (byteOfWord w 2) (byteOfWord w 3) = w := by
  unfold wordOfBytes byteOfWord
  rw [BitVec.extractLsb'_append_extractLsb'_eq_extractLsb' (by decide),
    BitVec.extractLsb'_append_extractLsb'_eq_extractLsb' (by decide),
    BitVec.extractLsb'_append_extractLsb'_eq_extractLsb' (by decide)]
  exact BitVec.extractLsb'_eq_self

theorem decodeBytes_bytesOfWord (w : Word) : decodeBytes (bytesOfWord w) = .ok (decode w) :=
  congrArg (fun v => Except.ok (decode v)) (wordOfBytes_byteOfWord w)

/-- Bits the row of a command ignores change nothing in the bits it reads (R92, R93). -/
theorem junk_and_readMask {i : Instr} (hi : i.wellFormed = true) (junk : Word) :
    (encode i ||| (junk &&& ~~~ readMask i)) &&& readMask i = encode i := by
  obtain ⟨_, hcanonical⟩ := canonicalWord i hi
  have hjunk : (junk &&& ~~~ readMask i) &&& readMask i = 0#32 := by
    simp [BitVec.and_assoc]
  rw [BitVec.and_or_distrib_right, hcanonical, hjunk, BitVec.or_zero]

/-! ## The obligations -/

/-- Settles O2: the junk is masked out, and what is left is the CMD word. -/
theorem decodeInvertsEncode : Obligations.DecodeInvertsEncode := by
  intro i junk hi
  have hword : decode (encode i ||| (junk &&& ~~~ readMask i)) = i :=
    decode_of_and_readMask hi (junk_and_readMask hi junk)
  exact ⟨hword, by rw [decodeBytes_bytesOfWord, hword]⟩

/-- Settles O3. -/
theorem everyWordIsOneCommand : Obligations.EveryWordIsOneCommand :=
  fun w => ⟨wellFormed_decode w, and_readMask_decode w⟩

/-- Settles O4: a row's match and mask are the CMD word and the read bits of its command. -/
theorem opcodeTableRowsDecode : Obligations.OpcodeTableRowsDecode :=
  fun _ => ⟨decode_eq_iff rfl, decode_eq_iff rfl, decode_eq_iff rfl, decode_eq_iff rfl, decode_eq_iff rfl,
    decode_eq_iff rfl, decode_eq_iff rfl, decode_eq_iff rfl, decode_eq_iff rfl, decode_eq_iff rfl,
    fun _ => decode_eq_reserved8F_iff⟩

/-- Settles O1: each word is the CMD word of its command, and so decodes to it. -/
theorem commandWordsDecode : Obligations.CommandWordsDecode := by
  intro w i hmem
  suffices hrow : i.wellFormed = true ∧ encode i = w by
    obtain ⟨hi, rfl⟩ := hrow
    exact ⟨decode_of_and_readMask hi (canonicalWord i hi).2, rfl⟩
  simp only [List.mem_cons, Prod.mk.injEq, List.not_mem_nil, or_false] at hmem
  rcases hmem with ⟨rfl, rfl⟩ | ⟨rfl, rfl⟩ | ⟨rfl, rfl⟩ | ⟨rfl, rfl⟩ | ⟨rfl, rfl⟩ | ⟨rfl, rfl⟩ | ⟨rfl, rfl⟩ | ⟨rfl, rfl⟩ |
    ⟨rfl, rfl⟩
  all_goals exact ⟨rfl, rfl⟩

end Sys2Proof
end

