-- ==== Sys2Proof/Proofs/FillCounts.lean ====
section
/-! What a FILL relabels and how its counts come out: RES0 counts the spans and RES1 the cells (R160 to R162, R164, R168,
R172): O24. -/

namespace Sys2Proof.Machine

/-! ## Counting -/

/-- Adding an interval of `k` new members to a set adds `k` to its count. -/
theorem countP_range_or_interval {P Q : Nat → Bool} {b k n : Nat} (hend : b + k ≤ n)
    (hQ : ∀ o, Q o = (P o || decide (b ≤ o ∧ o < b + k))) (hnew : ∀ o, b ≤ o → o < b + k → P o = false) :
    (List.range n).countP Q = (List.range n).countP P + k := by
  have upto (m : Nat) : (List.range m).countP Q = (List.range m).countP P + (min m (b + k) - b) := by
    induction m with
    | zero => simp
    | succ m ih =>
      rw [List.range_succ, List.countP_append, List.countP_append, ih, List.countP_singleton, List.countP_singleton, hQ m]
      by_cases hm : b ≤ m ∧ m < b + k
      · simp only [hnew m hm.1 hm.2, hm, and_self, decide_true, Bool.or_true, if_true, Bool.false_eq_true, if_false]
        omega
      · simp only [hm, decide_false, Bool.or_false]
        omega
  rw [upto n]
  omega

/-- The cell holds another label in `t` than in `s`. -/
def changed (s t : State) (o : Nat) : Bool := t.label o != s.label o

/-- The cell begins a span of changed cells: it is the first of its row, or the cell before it is not changed (R160). -/
def beginsSpan (s t : State) (w o : Nat) : Bool := changed s t o && (o % w == 0 || !changed s t (o - 1))

theorem relabelledSpans_eq (s t : State) (w n : Nat) :
    Sys2Proof.Claims.relabelledSpans s t w n = (List.range n).countP (beginsSpan s t w) :=
  congrArg (fun p => (List.range n).countP p) (funext fun o => by simp [beginsSpan, changed, bne])

/-! ## One line -/

/-- The two cells lie side by side in one row of an image `w` wide (R37). -/
def Beside (w o o' : Nat) : Prop := (o' = o + 1 ∧ o' % w ≠ 0) ∨ (o = o' + 1 ∧ o % w ≠ 0)

/-- The `k` cells from `b` on lie in one row of an image `w` wide with `n` cells, all hold `v`, and the cells beside them in that
row do not (R160). -/
structure MaximalRun (w n : Nat) (lab : Nat → Byte) (v : Byte) (b k : Nat) : Prop where
  nonempty : 0 < k
  inside : b + k ≤ n
  row : ∀ o, b < o → o < b + k → o % w ≠ 0
  holds : ∀ o, b ≤ o → o < b + k → lab o = v
  beside : ∀ o o', b ≤ o → o < b + k → Beside w o o' → ¬ (b ≤ o' ∧ o' < b + k) → lab o' ≠ v

/-- The span FILL_LINE finds is a maximal run (R160). -/
theorem lineSpan_maximalRun {c : FillCtx} {s : State} {x y : Nat} (hx : x < c.w) (hy : y < c.h)
    (hfrom : c.labelAt s x y = c.source) :
    MaximalRun c.w (c.w * c.h) s.label c.source (y * c.w + (lineSpan c s x y).1)
      ((lineSpan c s x y).2 + 1 - (lineSpan c s x y).1) := by
  obtain ⟨hl, hr, hrw⟩ := lineSpan_inside (s := s) (y := y) hx
  obtain ⟨hin, hleft, hright⟩ := lineSpan_maximal hx hfrom
  generalize (lineSpan c s x y).1 = l at *
  generalize (lineSpan c s x y).2 = r at *
  have hend : y * c.w + l + (r + 1 - l) = y * c.w + (r + 1) := by omega
  have column {i : Nat} (hi : i < c.w) : (y * c.w + i) % c.w = i := by
    rw [Nat.mul_add_mod', Nat.mod_eq_of_lt hi]
  have inRow {o : Nat} (hlo : y * c.w + l ≤ o) (hhi : o < y * c.w + l + (r + 1 - l)) :
      ∃ i, l ≤ i ∧ i ≤ r ∧ o = y * c.w + i := ⟨o - y * c.w, by omega, by omega, by omega⟩
  have hrow : (y + 1) * c.w ≤ c.w * c.h := by
    rw [Nat.mul_comm c.w]
    exact Nat.mul_le_mul_right _ hy
  rw [Nat.succ_mul] at hrow
  refine ⟨by omega, by omega, fun o hlo hhi => ?row, fun o hlo hhi => ?holds, fun o o' hlo hhi hadj hout => ?beside⟩
  case row =>
    obtain ⟨i, _, _, rfl⟩ := inRow hlo.le hhi
    rw [column (by omega)]
    omega
  case holds =>
    obtain ⟨i, hli, hir, rfl⟩ := inRow hlo hhi
    exact hin i hli hir
  case beside =>
    obtain ⟨i, hli, hir, rfl⟩ := inRow hlo hhi
    rcases hadj with ⟨rfl, hcol⟩ | ⟨hnext, hcol⟩
    · obtain rfl : i = r := by omega
      have hlt : i + 1 < c.w := by
        refine Nat.lt_of_le_of_ne hrw fun hlast => hcol ?_
        rw [Nat.add_assoc, hlast, Nat.mul_add_mod', Nat.mod_self]
      exact hright hlt
    · rw [column (by omega)] at hcol
      obtain rfl : o' = y * c.w + (l - 1) := by omega
      exact hleft (by omega)

/-- The child a fill goes on to holds FROM (R161). -/
theorem advance_child_source {c : FillCtx} {s : State} {stack stack' : List Frame} {x y : Nat}
    (h : advance c s stack = .child stack' x y) : c.labelAt s x y = c.source := by
  obtain ⟨_, _, _, _, hchild, _, _⟩ := advance_child h
  obtain ⟨hfrom, _⟩ := nextChild_some hchild
  exact beq_iff_eq.mp hfrom

/-! ## The invariant of a fill -/

/-- What a fill of `c` that began on `s` has done so far: cells went from FROM to TO only, a changed cell's FROM neighbours in its
row with it, and VISIT's counts are those of the changed spans and cells (R160, R161, R164). -/
structure Relabels (c : FillCtx) (s : State) (f : Fill) : Prop where
  label : ∀ o, f.s.label o = s.label o ∨ (s.label o = c.source ∧ f.s.label o = c.target)
  line : ∀ o o', Beside c.w o o' → s.label o' = c.source → changed s f.s o = true → changed s f.s o' = true
  spans : f.spans = (List.range (c.w * c.h)).countP (beginsSpan s f.s c.w)
  pixels : f.pixels = (List.range (c.w * c.h)).countP (changed s f.s)

namespace Relabels

variable {c : FillCtx} {s : State} {f : Fill}

theorem start (c : FillCtx) (s : State) : Relabels c s (Fill.start s) where
  label _ := .inl rfl
  line _ _ _ _ h := absurd h (by simp [changed, Fill.start])
  spans := (List.countP_eq_zero.mpr (by simp [beginsSpan, changed, Fill.start])).symm
  pixels := (List.countP_eq_zero.mpr (by simp [changed, Fill.start])).symm

/-- A cell that holds FROM has not been changed. -/
theorem unchanged_of_source (h : Relabels c s f) (hne : c.source ≠ c.target) {o : Nat} (ho : f.s.label o = c.source) :
    s.label o = c.source ∧ changed s f.s o = false := by
  rcases h.label o with hkept | ⟨_, htarget⟩
  · exact ⟨hkept ▸ ho, by simp [changed, hkept]⟩
  · exact absurd (ho.symm.trans htarget) hne

/-- No changed cell lies beside one that holds FROM: it would have been changed with it. -/
theorem unchanged_beside (h : Relabels c s f) (hne : c.source ≠ c.target) {o o' : Nat} (hadj : Beside c.w o o')
    (ho' : f.s.label o' = c.source) : changed s f.s o = false := by
  obtain ⟨hsource, hunchanged⟩ := h.unchanged_of_source hne ho'
  cases hchanged : changed s f.s o with
  | false => rfl
  | true => rw [← hunchanged, h.line o o' hadj hsource hchanged]

/-! ### A maximal run is relabelled -/

section
variable {t : State} {b k : Nat} (h : Relabels c s f) (hne : c.source ≠ c.target)
  (hrun : MaximalRun c.w (c.w * c.h) f.s.label c.source b k)
  (ht : ∀ o, t.label o = if b ≤ o ∧ o < b + k then c.target else f.s.label o)
include h hne hrun ht

/-- The changed cells are those of before and the run. -/
theorem changed_run (o : Nat) : changed s t o = (changed s f.s o || decide (b ≤ o ∧ o < b + k)) := by
  by_cases ho : b ≤ o ∧ o < b + k
  · obtain ⟨hsource, _⟩ := h.unchanged_of_source hne (hrun.holds o ho.1 ho.2)
    simp [changed, ht, ho, hsource, hne.symm]
  · simp [changed, ht, ho]

/-- The changed spans are those of before and one that begins with the run. -/
theorem beginsSpan_run (o : Nat) :
    beginsSpan s t c.w o = (beginsSpan s f.s c.w o || decide (b ≤ o ∧ o < b + 1)) := by
  have hk := hrun.nonempty
  have hrunCell {o : Nat} (hlo : b ≤ o) (hhi : o < b + k) : changed s f.s o = false :=
    (h.unchanged_of_source hne (hrun.holds o hlo hhi)).2
  unfold beginsSpan
  rw [changed_run h hne hrun ht o, changed_run h hne hrun ht (o - 1)]
  rcases Nat.lt_trichotomy o b with hlt | rfl | hgt
  · simp [show ¬ b ≤ o by omega, show ¬ b ≤ o - 1 by omega]
  · by_cases hcol : o % c.w = 0
    · simp [hcol, hk]
    · have hpos : o ≠ 0 := by rintro rfl; simp at hcol
      have hbefore : changed s f.s (o - 1) = false :=
        h.unchanged_beside hne (.inl ⟨by omega, hcol⟩) (hrun.holds o le_rfl (by omega))
      simp [hk, hbefore, show ¬ o ≤ o - 1 by omega]
  · rcases Nat.lt_trichotomy o (b + k) with hlt | rfl | hgt'
    · simp [hrunCell hgt.le hlt, hrun.row o hgt hlt, show b ≤ o - 1 ∧ o - 1 < b + k by omega, show ¬ o < b + 1 by omega]
    · have hlast : ¬ b + k < b + 1 := by omega
      by_cases hcol : (b + k) % c.w = 0
      · simp [hcol, hlast]
      · have hafter : changed s f.s (b + k) = false :=
          h.unchanged_beside hne (.inr ⟨by omega, hcol⟩) (hrun.holds (b + k - 1) (by omega) (by omega))
        simp [hafter, hlast]
    · simp [show ¬ o < b + k by omega, show ¬ o - 1 < b + k by omega, show ¬ o < b + 1 by omega]

/-- Hence the invariant after the run, when VISIT has counted it. -/
theorem run {f' : Fill} (hs : f'.s = t) (hspans : f'.spans = f.spans + 1) (hpixels : f'.pixels = f.pixels + k) :
    Relabels c s f' := by
  have hcell := changed_run h hne hrun ht
  have hk := hrun.nonempty
  have hend := hrun.inside
  have hnew (o : Nat) (hlo : b ≤ o) (hhi : o < b + k) : s.label o = c.source ∧ changed s f.s o = false :=
    h.unchanged_of_source hne (hrun.holds o hlo hhi)
  subst hs
  refine ⟨fun o => ?label, fun o o' hadj hsource hchanged => ?line, ?spans, ?pixels⟩
  case label =>
    rw [ht]
    split
    · rename_i ho
      exact .inr ⟨(hnew o ho.1 ho.2).1, rfl⟩
    · exact h.label o
  case line =>
    rw [hcell, Bool.or_eq_true, decide_eq_true_eq] at hchanged ⊢
    by_cases ho' : b ≤ o' ∧ o' < b + k
    · exact .inr ho'
    refine .inl ?_
    rcases hchanged with hold | ho
    · exact h.line o o' hadj hsource hold
    · have hother : f.s.label o' ≠ s.label o' := hsource ▸ hrun.beside o o' ho.1 ho.2 hadj ho'
      exact bne_iff_ne.mpr hother
  case spans =>
    rw [hspans, h.spans]
    refine (countP_range_or_interval (by omega) (beginsSpan_run h hne hrun ht) fun o hlo hhi => ?_).symm
    rw [beginsSpan, (hnew o hlo (by omega)).2, Bool.false_and]
  case pixels =>
    rw [hpixels, h.pixels]
    exact (countP_range_or_interval hend hcell fun o hlo hhi => (hnew o hlo hhi).2).symm

end

/-- FILL_LINE from a FROM cell keeps the invariant (R160, R164). -/
theorem visitLine (h : Relabels c s f) (hne : c.source ≠ c.target) {x y : Nat} (hx : x < c.w) (hy : y < c.h)
    (hfrom : c.labelAt f.s x y = c.source) : Relabels c s (visitLine c f x y).1 := by
  obtain ⟨hl, hr, _⟩ := lineSpan_inside (s := f.s) (y := y) hx
  exact h.run hne (lineSpan_maximalRun hx hy hfrom) (label_relabelSpan c f.s y _ _) rfl rfl
    (by rw [visitLine_pixels]; omega)

/-- FLOOD's loop keeps the invariant, however it ends (R161, R162). -/
theorem floodLoop (hc : c.Fits) (hne : c.source ≠ c.target) (turns : Nat) (hf : StackInside c f.stack)
    (h : Relabels c s f) : Relabels c s (floodLoop c turns f).1 := by
  induction turns generalizing f with
  | zero => exact h
  | succ turns ih =>
    rw [Machine.floodLoop]
    split
    · exact ⟨h.label, h.line, h.spans, h.pixels⟩
    · exact ⟨h.label, h.line, h.spans, h.pixels⟩
    · rename_i stack x y hadv
      obtain ⟨hx, hy, hstack, _⟩ := advance_child_inside hc hf hadv
      have hpopped : Relabels c s { f with stack := stack } := ⟨h.label, h.line, h.spans, h.pixels⟩
      exact ih (visitLine_stackInside hc hstack hx hy) (hpopped.visitLine hne hx hy (advance_child_source hadv))

/-- A whole fill from a FROM cell (R161). -/
theorem flood (hc : c.Fits) (hne : c.source ≠ c.target) {x y : Nat} (hx : x < c.w) (hy : y < c.h)
    (hfrom : c.labelAt s x y = c.source) : Relabels c s (flood c x y s).1 :=
  have hstart : StackInside c (Fill.start s).stack := by simp [Fill.start, StackInside]
  floodLoop hc hne _ (visitLine_stackInside hc hstart hx hy) ((start c s).visitLine hne hx hy hfrom)

end Relabels

/-! ## The seed -/

/-- A cell that carries TO keeps it (R160). -/
theorem label_visitLine_target {c : FillCtx} {f : Fill} {o : Nat} (h : f.s.label o = c.target) (x y : Nat) :
    (visitLine c f x y).1.s.label o = c.target := by
  rw [visitLine_s, label_relabelSpan, h, ite_self]

theorem label_floodLoop_target {c : FillCtx} {f : Fill} {o : Nat} (h : f.s.label o = c.target) (turns : Nat) :
    (floodLoop c turns f).1.s.label o = c.target := by
  induction turns generalizing f with
  | zero => exact h
  | succ turns ih =>
    rw [floodLoop]
    split
    · exact h
    · exact h
    · rename_i stack x y _
      exact ih (label_visitLine_target (f := { f with stack := stack }) h x y)

/-- After a fill the seed carries TO, since its own line is visited first (R161, R172). -/
theorem label_flood_seed {c : FillCtx} {s : State} {x : Nat} (hx : x < c.w) (y : Nat) :
    (flood c x y s).1.s.label (y * c.w + x) = c.target := by
  obtain ⟨hl, hr, _⟩ := lineSpan_inside (s := s) (y := y) hx
  refine label_floodLoop_target ?_ _
  rw [visitLine_s, label_relabelSpan, if_pos]
  show y * c.w + (lineSpan c s x y).1 ≤ y * c.w + x ∧ _ < y * c.w + (lineSpan c s x y).1 +
    ((lineSpan c s x y).2 + 1 - (lineSpan c s x y).1)
  omega

/-! ## FILL -/

/-- A ready FILL floods from the seed and completes with its counts (R168). -/
theorem exec_fill_ready {s : State} (h : Sys2Proof.Claims.fillReady s) :
    exec .fill s = .next (fillComplete Instr.fill.opcode (fillFlood Config.params s).1.s (fillFlood Config.params s).2
      (fillFlood Config.params s).1.spans (fillFlood Config.params s).1.pixels) :=
  congrArg Host.Outcome.next (fillCommand_ok (fillCheck_of_ready h))

/-- Settles O24: `Relabels` holds at the end of the flood. -/
theorem fillRelabels : Obligations.FillRelabels := by
  intro s hready cells
  have hdone := exec_fill_ready hready
  obtain ⟨_, hx, hy, hne, hlabel⟩ := hready
  have hfits := fillCtx_fits Config.params s.cur
  have hflood : Relabels (fillCtx Config.params s.cur) { s with ffOvf := false } (fillFlood Config.params s).1 :=
    .flood hfits hne hx hy hlabel
  have hwithin : WritesWithin (InImage labelBase cells) { s with ffOvf := false } (fillFlood Config.params s).1.s :=
    flood_within hfits hx hy
  have hseed : (fillFlood Config.params s).1.s.label (Sys2Proof.Claims.seedCell s) = s.cur.toLabel :=
    label_flood_seed (c := fillCtx Config.params s.cur) hx _
  refine ⟨_, hdone, ?spans, congrArg (BitVec.ofNat 32) hflood.pixels, rfl, hseed, fun o _ => hflood.label o,
    fun a ha => hwithin.readByte ha, ?frame⟩
  case spans =>
    rw [relabelledSpans_eq]
    exact congrArg (BitVec.ofNat 32) hflood.spans
  case frame =>
    have heq := hwithin.eq
    generalize fillFlood Config.params s = r at heq
    rw [heq]
    rfl

end Sys2Proof.Machine
end

