-- ==== Sys2Proof/Proofs/Completion.lean ====
section
/-! How a command ends (R121, R122) and what the control commands do (R124 to R126): O5, O8, O10, O11, O12, O13. -/

namespace Sys2Proof.Machine

/-- Settles O5: the engine's turn runs the issued command, from the agenda or when it is empty. -/
theorem stepRunsIssuedCommand : Obligations.StepRunsIssuedCommand := by
  intro s i
  refine ⟨fun hissued hword => ⟨fun rest hagenda => ?turn, fun hagenda => ?none⟩, fun nbits w hword => ?fetched⟩
  case turn =>
    have hissued' : ({ s with agenda := rest } : State).phase = .issued := hissued
    rw [step_of_agenda_engine hagenda, engineStep_issued hissued', ← hword]
  case none => rw [step_of_agenda_nil hagenda, engineStep_issued hissued, hword]
  case fetched => rw [step_withFetchWord, hword]

/-! ## How a command ends -/

/-- The codes of R122: a completion with one of them changes the status only. -/
abbrev StatusCode.IsError (code : StatusCode) : Prop := code = .badParam ∨ code = .badCommand ∨ code = .notReady

/-- `t` is what command `i` leaves in its turn on `s`: it completes under its own OP value, with an error and nothing done,
or with another code; a FILL.SPANS may stay BUSY instead (R121, R122, R170). -/
inductive Ending (i : Instr) (s : State) : State → Prop where
  | error (code : StatusCode) : Ending i s (s.completeError i.opcode code)
  | done (u : State) {code : StatusCode} (hcode : ¬ code.IsError) (r0 r1 : Word) :
      Ending i s (u.complete i.opcode code r0 r1)
  | pushed (hi : i = .fillSpans) {t : State} (hbusy : t.busy = true) : Ending i s t

section
variable {i : Instr} {s : State}

theorem Ending.of_error {t : State} {code : StatusCode} (h : t = s.completeError i.opcode code) : Ending i s t :=
  h ▸ .error code

theorem Ending.of_done {t u : State} {code : StatusCode} {r0 r1 : Word} (h : t = u.complete i.opcode code r0 r1)
    (hcode : ¬ code.IsError := by decide) : Ending i s t := h ▸ .done u hcode r0 r1

theorem ending_threshold (p : Params) (inv : Bool) : Ending i s (thresholdCommand p i.opcode inv s) := by
  by_cases h : s.cur.w = 0 ∨ s.cur.h = 0
  · exact .of_error (thresholdCommand_notReady p _ inv s h)
  · obtain ⟨hw, hh⟩ := not_or.mp h
    exact .of_done (thresholdCommand_ready p _ inv s hw hh)

theorem ending_regionCode (p : Params) : Ending i s (regionCodeCommand p i.opcode s) := by
  rcases regionCodeCommand_cases p i.opcode s with h | ⟨r0, r1, h⟩ | ⟨hvalid, hseed, hblack, hroom⟩
  · exact .of_error h
  · exact .of_done h
  · exact .of_done (regionCodeCommand_new hvalid hseed hblack hroom)

theorem ending_fill (p : Params) : Ending i s (fillCommand p i.opcode s) := by
  cases h : fillCheck s with
  | some code => exact .of_error (fillCommand_error h)
  | none => exact .of_done (fillCommand_ok h)

theorem ending_fillSpans (hi : i = .fillSpans) (p : Params) : Ending i s (fillSpansStart p i.opcode s) := by
  cases h : fillCheck s with
  | some code => exact .of_error (fillSpansStart_error h)
  | none =>
    refine .pushed hi ?_
    unfold fillSpansStart
    rw [h]
    exact pushSpan_busy _ _ _ _

theorem ending_fmtCorrect : Ending i s (fmtCommand i.opcode s) := by
  cases hz : allZero (fmtSyndromes s.cur.fmtWord) fmtSynd with
  | true => exact .of_done (fmtCommand_clean hz)
  | false =>
    rw [fmtCommand_errors hz]
    split
    · exact .of_done rfl
    · exact .of_done rfl

theorem ending_rsCorrect (p : Params) : Ending i s (rsCommand p i.opcode s) := by
  cases hp : rsBadParam s.cur.blockSize s.cur.dataWords with
  | true => exact .of_error (rsCommand_badParam hp)
  | false =>
    cases hz : allZero (rsSyndromes (gf256 p.log0) s s.cur.blockSize (s.cur.blockSize - s.cur.dataWords))
        (s.cur.blockSize - s.cur.dataWords) with
    | true => exact .of_done (rsCommand_clean hp hz)
    | false =>
      refine .of_done (rsCommand_errors hp rfl rfl hz rfl rfl) ?_
      split
      · decide
      · decide

end

/-- How each command ends. -/
theorem exec_ending {i : Instr} {s t : State} (h : exec i s = .next t) : Ending i s t := by
  cases i <;> injection h with h <;> subst h
  case nop => exact .of_done rfl
  case beginFrame => exact .of_done rfl
  case threshold => exact ending_threshold _ _
  case thresholdInv => exact ending_threshold _ _
  case regionCode => exact ending_regionCode _
  case fill => exact ending_fill _
  case fillSpans => exact ending_fillSpans rfl _
  case fmtCorrect => exact ending_fmtCorrect
  case rsCorrect => exact ending_rsCorrect _
  case reserved7 => exact .error _
  case reserved8F op => exact .error _

/-- Settles O8: a command that is not FILL.SPANS completes (`exec_ending`), and no turn writes the error flags
(`EngineFrame`). -/
theorem commandsCompleteInOneTurn : Obligations.CommandsCompleteInOneTurn := by
  intro i s hi
  obtain ⟨t, ht⟩ := exec_next i s
  have hframe := (EngineFrame.runs (exec_runs ht)).fields
  simp only [hostFields, Prod.mk.injEq] at hframe
  obtain ⟨_, _, _, _, _, hover, hacc, _⟩ := hframe
  refine ⟨t, ht, ?_⟩
  cases exec_ending ht with
  | error code => exact ⟨rfl, rfl, rfl, hover, hacc⟩
  | done u hcode r0 r1 => exact ⟨rfl, rfl, rfl, hover, hacc⟩
  | pushed hspans => exact absurd hspans hi

/-- Settles O10: only an `Ending.error` has such a code. -/
theorem errorCompletionIsPrecise : Obligations.ErrorCompletionIsPrecise := by
  intro i s t ht hidle hcode
  cases exec_ending ht with
  | error code => rfl
  | done u hne r0 r1 => exact absurd hcode hne
  | pushed _ hbusy => exact absurd (busy_of_idle hidle) (by simp [hbusy])

/-! ## Control commands -/

/-- Where a row reads the OP field alone, that field chooses it (R91, R92). -/
theorem decode_of_opField {w : Word} {i : Instr} (hi : i.wellFormed = true) (hmask : readMask i = 0x0000000F)
    (hop : opField w = i.opcode) : decode w = i := by
  obtain ⟨hcode, hcanonical⟩ := canonicalWord i hi
  refine decode_of_and_readMask hi ?_
  rw [hmask] at hcanonical ⊢
  rw [and_opMask, hop, ← hcode, ← and_opMask, hcanonical]

/-- Settles O11: a word with OP = 0 is NOP whatever its other bits, and NOP is its completion. -/
theorem nopCompletes : Obligations.NopCompletes :=
  ⟨fun _ => rfl, fun _ hop => decode_of_opField rfl rfl hop, _, rfl, by decide, rfl⟩

/-- Settles O12: a new frame leaves no entry allocated, and starting another changes nothing. -/
theorem beginStartsFrame : Obligations.BeginStartsFrame := by
  refine ⟨rfl, fun s => ⟨_, rfl, rfl, rfl, rfl, fun id k => ?_, rfl⟩⟩
  refine regionWord_unallocated ?_ k
  have hnone : ¬ (2 ≤ id.toNat ∧ id.toNat < 2) := by omega
  exact decide_eq_false hnone

/-- A word with OP in 0x7..0xF is a reserved command with that OP value (R91, R126). -/
theorem decode_of_seven_le {w : Word} (h : 7 ≤ (opField w).toNat) :
    (decode w = .reserved7 ∧ opField w = 7) ∨ decode w = .reserved8F (opField w) := by
  rcases Nat.eq_or_lt_of_le h with h7 | h8
  · have hop : opField w = 7 := BitVec.eq_of_toNat_eq h7.symm
    exact .inl ⟨decode_of_opField rfl rfl hop, hop⟩
  · exact .inr (decode_of_eight_le h8)

/-- Settles O13: such a word decodes to a reserved command, which is its completion with BAD_COMMAND. -/
theorem reservedOpcodesComplete : Obligations.ReservedOpcodesComplete := by
  refine ⟨fun s w hop => ⟨rfl, ?_⟩, fun s => ⟨rfl, fun op _ => rfl⟩⟩
  rcases decode_of_seven_le (w := w) hop with ⟨hword, h7⟩ | hword
  · have hfield : w.extractLsb' 0 4 = 7 := h7
    rw [hword, hfield]
    rfl
  · rw [hword]
    rfl

end Sys2Proof.Machine
end

