-- ==== Sys2Proof/Proofs/FloodRun.lean ====
section
/-! A flood fill as a finite run of its loop, and what follows by induction on the run: it ends by itself, when its stack
overflows, and what a deeper stack changes (R128, R161, R162): O27. -/

namespace Sys2Proof.Machine

/-! ## What a frame has left -/

/-- Column `i` of a frame's span has a FROM cell above it or below it that the frame's cursors have not passed (R161). -/
def FrameHas (c : FillCtx) (s : State) (f : Frame) (i : Nat) : Prop :=
  i ≤ f.right.toNat ∧
    ((0 < f.y.toNat ∧ f.up.toNat ≤ i ∧ c.labelAt s i (f.y.toNat - 1) = c.source) ∨
     (f.y.toNat + 1 < c.h ∧ f.down.toNat ≤ i ∧ c.labelAt s i (f.y.toNat + 1) = c.source))

/-- What the scan of a row finds, when there is that row: its first FROM cell from `start` to `right`, or that it has none
(R161). -/
theorem guardedScan_spec (row : Prop) [Decidable row] (isFrom : Nat → Bool) (start right : Nat) :
    let r := if row then scanRow isFrom (right + 1 - start) start else (start, false)
    (r.2 = true →
      row ∧ start ≤ r.1 ∧ r.1 ≤ right ∧ isFrom r.1 = true ∧ ∀ i, start ≤ i → i < r.1 → isFrom i = false) ∧
    (r.2 = false → row → ∀ i, start ≤ i → i ≤ right → isFrom i = false) := by
  obtain ⟨hlo, _, hpassed, hfound, hnone⟩ := scanRow_spec isFrom (right + 1 - start) start
  dsimp only
  split
  · rename_i hrow
    refine ⟨fun h => ?_, fun h _ i hi hright => hpassed i hi ?_⟩
    · obtain ⟨hhi, hfrom⟩ := hfound h
      exact ⟨hrow, hlo, by omega, hfrom, hpassed⟩
    · rw [hnone h]
      omega
  · rename_i hrow
    exact ⟨fun h => absurd h Bool.false_ne_true, fun _ h => absurd h hrow⟩

section
variable {c : FillCtx} {s : State} {f : Frame}

/-- The search for a child is R161's scan: it stops where `scanStops` says, and finds nothing only on a frame with nothing
left. -/
theorem nextChild_scan :
    (∀ x y, (nextChild c s f).2 = some (x, y) → Sys2Proof.Claims.scanStops c s f x y) ∧
    ((nextChild c s f).2 = none → ∀ i, ¬ FrameHas c s f i) := by
  unfold nextChild Sys2Proof.Claims.scanStops FrameHas
  extract_lets y right above below
  obtain ⟨haboveSome, haboveNone⟩ := guardedScan_spec (0 < y) (c.isFrom s (y - 1)) f.up.toNat right
  obtain ⟨hbelowSome, hbelowNone⟩ := guardedScan_spec (y + 1 < c.h) (c.isFrom s (y + 1)) f.down.toNat right
  simp only [FillCtx.isFrom, beq_iff_eq, beq_eq_false_iff_ne] at *
  cases ha : above.2 with
  | true =>
    obtain ⟨hy, hlo, hhi, hfrom, hclear⟩ := haboveSome ha
    simp only [if_true, Option.some.injEq, Prod.mk.injEq, reduceCtorEq, false_implies, and_true]
    rintro _ _ ⟨rfl, rfl⟩
    exact ⟨hfrom, hhi, .inl ⟨by omega, hlo, hclear⟩⟩
  | false =>
    have hclearAbove := haboveNone ha
    cases hb : below.2 with
    | true =>
      obtain ⟨hy, hlo, hhi, hfrom, hclear⟩ := hbelowSome hb
      simp only [Bool.false_eq_true, if_false, if_true, Option.some.injEq, Prod.mk.injEq, reduceCtorEq, false_implies,
        and_true]
      rintro _ _ ⟨rfl, rfl⟩
      exact ⟨hfrom, hhi, .inr ⟨rfl, hy, hlo, hclear, fun hpos i hi hright => hclearAbove hpos i hi (by omega)⟩⟩
    | false =>
      have hclearBelow := hbelowNone hb
      simp only [Bool.false_eq_true, if_false, reduceCtorEq, false_implies, implies_true, true_and, true_implies]
      rintro i ⟨hi, ⟨hy, hlo, hfrom⟩ | ⟨hy, hlo, hfrom⟩⟩
      · exact hclearAbove hy i hlo hi hfrom
      · exact hclearBelow hy i hlo hi hfrom

theorem frameHas_of_scanStops {x y : Nat} (h : Sys2Proof.Claims.scanStops c s f x y) : FrameHas c s f x := by
  obtain ⟨hfrom, hright, ⟨hy, hlo, _⟩ | ⟨rfl, hh, hlo, _⟩⟩ := h
  · obtain rfl : y = f.y.toNat - 1 := by omega
    exact ⟨hright, .inl ⟨by omega, hlo, hfrom⟩⟩
  · exact ⟨hright, .inr ⟨hh, hlo, hfrom⟩⟩

/-- A frame has a child exactly when it has a cell left (R161). -/
theorem nextChild_isSome_iff : (nextChild c s f).2.isSome = true ↔ ∃ i, FrameHas c s f i := by
  obtain ⟨hsome, hnone⟩ := nextChild_scan (c := c) (s := s) (f := f)
  cases h : (nextChild c s f).2 with
  | none => simpa using hnone h
  | some child =>
    obtain ⟨x, y⟩ := child
    exact iff_of_true rfl ⟨x, frameHas_of_scanStops (hsome x y h)⟩

end

/-! ## A run of the loop -/

/-- FLOOD's loop visits `k` lines from `f` on and stops with `r`: it is over, or the stack is full (R161, R162). -/
inductive FloodRun (c : FillCtx) : Nat → Fill → Fill × Bool → Prop where
  | finished {f : Fill} (h : advance c f.s f.stack = .finished) : FloodRun c 0 f ({ f with stack := [] }, false)
  | overflow {f : Fill} {stack : List Frame} (h : advance c f.s f.stack = .overflow stack) :
      FloodRun c 0 f ({ f with stack := stack }, true)
  | child {f : Fill} {stack : List Frame} {x y k : Nat} {r : Fill × Bool} (h : advance c f.s f.stack = .child stack x y)
      (hrun : FloodRun c k (visitLine c { f with stack := stack } x y).1 r) : FloodRun c (k + 1) f r

section
variable {c : FillCtx} {s : State} {f : Fill} {k : Nat} {r : Fill × Bool}

/-- A run of `k` lines is what the loop does when it is given more than `k` turns (log entry 15). -/
theorem FloodRun.floodLoop_eq (h : FloodRun c k f r) {turns : Nat} (hk : k < turns) : floodLoop c turns f = r := by
  induction h generalizing turns with
  | finished h =>
    obtain ⟨turns, rfl⟩ := Nat.exists_eq_add_of_lt hk
    rw [floodLoop, h]
  | overflow h =>
    obtain ⟨turns, rfl⟩ := Nat.exists_eq_add_of_lt hk
    rw [floodLoop, h]
  | child h _ ih =>
    obtain ⟨turns, rfl⟩ := Nat.exists_eq_add_of_lt hk
    rw [floodLoop, h]
    exact ih (by omega)

/-! ### Every fill has a run -/

theorem pixels_lt_visitLine (c : FillCtx) (f : Fill) (x y : Nat) : f.pixels < (visitLine c f x y).1.pixels := by
  rw [visitLine_pixels]
  omega

theorem Relabels.withStack (h : Relabels c s f) (stack : List Frame) : Relabels c s { f with stack := stack } :=
  ⟨h.label, h.line, h.spans, h.pixels⟩

/-- VISIT counts no cell twice. -/
theorem Relabels.pixels_le (h : Relabels c s f) : f.pixels ≤ c.w * c.h := by
  rw [h.pixels]
  exact List.countP_le_length.trans_eq List.length_range

/-- A cell that holds FROM has not been counted. -/
theorem Relabels.pixels_lt (h : Relabels c s f) (hne : c.source ≠ c.target) {x y : Nat} (hx : x < c.w) (hy : y < c.h)
    (hfrom : c.labelAt f.s x y = c.source) : f.pixels < c.w * c.h :=
  (pixels_lt_visitLine c f x y).trans_le (h.visitLine hne hx hy hfrom).pixels_le

/-- A fill of `c` in progress that began on `s`: `Relabels`, with its stack on the image. -/
structure Filling (c : FillCtx) (s : State) (f : Fill) : Prop where
  relabels : Relabels c s f
  inside : StackInside c f.stack

/-- The first line of a fill (R161). -/
theorem Filling.start (hc : c.Fits) (hne : c.source ≠ c.target) {x y : Nat} (hx : x < c.w) (hy : y < c.h)
    (hfrom : c.labelAt s x y = c.source) : Filling c s (visitLine c (Fill.start s) x y).1 :=
  have hstart : StackInside c (Fill.start s).stack := by simp [Fill.start, StackInside]
  ⟨(Relabels.start c s).visitLine hne hx hy hfrom, visitLine_stackInside hc hstart hx hy⟩

/-- Going on to a child (R161). -/
theorem Filling.child (hc : c.Fits) (hne : c.source ≠ c.target) (h : Filling c s f) {stack : List Frame} {x y : Nat}
    (hadv : advance c f.s f.stack = .child stack x y) : Filling c s (visitLine c { f with stack := stack } x y).1 := by
  obtain ⟨hx, hy, hstack, _⟩ := advance_child_inside hc h.inside hadv
  exact ⟨(h.relabels.withStack stack).visitLine hne hx hy (advance_child_source hadv), visitLine_stackInside hc hstack hx hy⟩

/-- Each line counts at least one cell, so there are no more lines to come than cells left (R128). -/
theorem exists_floodRun (hc : c.Fits) (hne : c.source ≠ c.target) (h : Filling c s f) :
    ∃ k r, f.pixels + k ≤ c.w * c.h ∧ FloodRun c k f r := by
  induction hn : c.w * c.h - f.pixels using Nat.strong_induction_on generalizing f with
  | _ n ih =>
    have hle := h.relabels.pixels_le
    cases hadv : advance c f.s f.stack with
    | finished => exact ⟨0, _, hle, .finished hadv⟩
    | overflow stack => exact ⟨0, _, hle, .overflow hadv⟩
    | child stack x y =>
      have hnext := h.child hc hne hadv
      have hle' := hnext.relabels.pixels_le
      have hgrows : f.pixels < _ := pixels_lt_visitLine c { f with stack := stack } x y
      obtain ⟨k, r, hk, hrun⟩ := ih _ (by omega) hnext rfl
      exact ⟨k + 1, r, by omega, .child hadv hrun⟩

/-- FLOOD is a run of its loop after the first line, of fewer lines than the image has cells (R128, R161). -/
theorem exists_floodRun_flood (hc : c.Fits) (hne : c.source ≠ c.target) {x y : Nat} (hx : x < c.w) (hy : y < c.h)
    (hfrom : c.labelAt s x y = c.source) :
    ∃ k, k < c.w * c.h ∧ FloodRun c k (visitLine c (Fill.start s) x y).1 (flood c x y s) := by
  obtain ⟨k, r, hk, hrun⟩ := exists_floodRun hc hne (Filling.start hc hne hx hy hfrom)
  rw [visitLine_pixels] at hk
  obtain rfl : flood c x y s = r := hrun.floodLoop_eq (by omega)
  exact ⟨k, by omega, hrun⟩

/-! ### The stack -/

theorem advance_child_length {stack stack' : List Frame} {x y : Nat} (h : advance c s stack = .child stack' x y) :
    stack'.length ≤ stack.length := by
  obtain ⟨f, f', below, hsuf, _, rfl, _⟩ := advance_child h
  exact hsuf.length_le

/-- An overflow stops with a full stack whose top frame has a FROM neighbour left in the row above or below (R162). -/
theorem FloodRun.overflow_stack (h : FloodRun c k f r) (hlen : f.stack.length ≤ c.depth) (hovf : r.2 = true) :
    r.1.stack.length = c.depth ∧
    ∃ g below i, r.1.stack = g :: below ∧ i ≤ g.right.toNat ∧
      ((0 < g.y.toNat ∧ c.labelAt r.1.s i (g.y.toNat - 1) = c.source) ∨
       (g.y.toNat + 1 < c.h ∧ c.labelAt r.1.s i (g.y.toNat + 1) = c.source)) := by
  induction h with
  | finished => exact absurd hovf Bool.false_ne_true
  | overflow h =>
    obtain ⟨g, g', below, x, y, hsuf, hchild, rfl, hfull⟩ := advance_overflow h
    obtain ⟨_, hgy, hgright, _⟩ := nextChild_some hchild
    obtain ⟨hright, hborder⟩ := frameHas_of_scanStops (nextChild_scan.1 x y (congrArg Prod.snd hchild))
    refine ⟨Nat.le_antisymm (hsuf.length_le.trans hlen) hfull, g', below, x, rfl, hgright ▸ hright, ?_⟩
    rw [hgy]
    exact hborder.imp (fun h => ⟨h.1, h.2.2⟩) fun h => ⟨h.1, h.2.2⟩
  | child h _ ih =>
    obtain ⟨_, _, _, _, _, _, hroom⟩ := advance_child h
    exact ih hroom hovf

/-- A stack of W·H frames never overflows: every frame stands for a line of at least one cell, and the cell that asks for
another frame is not among them (R162). -/
theorem FloodRun.no_overflow (h : FloodRun c k f r) (hc : c.Fits) (hne : c.source ≠ c.target) (hf : Filling c s f)
    (hlen : f.stack.length ≤ f.pixels) (hdepth : c.w * c.h ≤ c.depth) : r.2 = false := by
  induction h with
  | finished => rfl
  | overflow h =>
    obtain ⟨g, g', below, x, y, hsuf, hchild, rfl, hfull⟩ := advance_overflow h
    obtain ⟨hx, hy⟩ := nextChild_some_inside (hf.inside g (hsuf.subset (by simp))) hchild
    obtain ⟨hfrom, _⟩ := nextChild_some hchild
    have hlt := hf.relabels.pixels_lt hne hx hy (beq_iff_eq.mp hfrom)
    have hle : (g' :: below).length ≤ _ := hsuf.length_le
    omega
  | child h _ ih =>
    have hle := advance_child_length h
    exact ih (hf.child hc hne h) ((Nat.succ_le_succ (hle.trans hlen)).trans (pixels_lt_visitLine c ⟨_, _, _, _⟩ _ _))

/-- A stack of one frame overflows exactly when that frame has a cell left (R162). -/
theorem FloodRun.overflow_iff_of_single (h : FloodRun c k f r) (hdepth : c.depth = 1) {g : Frame} (hstack : f.stack = [g]) :
    r.2 = true ↔ ∃ i, FrameHas c f.s g i := by
  rw [← nextChild_isSome_iff]
  cases h with
  | finished h =>
    have hnone := advance_finished h g (by simp [hstack])
    simp [hnone]
  | overflow h =>
    obtain ⟨g', _, below, x, y, hsuf, hchild, _, _⟩ := advance_overflow h
    rw [hstack] at hsuf
    obtain ⟨rfl, _⟩ : g' = g ∧ below = [] := by simpa [List.suffix_cons_iff] using hsuf
    simp [hchild]
  | child h _ =>
    obtain ⟨_, _, _, _, _, rfl, hroom⟩ := advance_child h
    rw [hdepth] at hroom
    exact absurd hroom (by simp)

/-- Where the stack had room, a deeper one changes nothing (R162). -/
theorem advance_deeper {stack : List Frame} (h : ∀ stack', advance c s stack ≠ .overflow stack') {d : Nat}
    (hd : c.depth ≤ d) : advance { c with depth := d } s stack = advance c s stack := by
  induction stack with
  | nil => rfl
  | cons f below ih =>
    have hsame : nextChild { c with depth := d } s f = nextChild c s f := rfl
    rw [advance] at h
    rw [advance, advance, hsame]
    generalize nextChild c s f = child at h
    obtain ⟨f', _ | ⟨x, y⟩⟩ := child
    · exact ih h
    · dsimp only at h ⊢
      have hroom : ¬ c.depth ≤ (f' :: below).length := fun hfull => h _ (if_pos hfull)
      rw [if_neg hroom, if_neg fun hfull => hroom (hd.trans hfull)]

theorem FloodRun.deeper (h : FloodRun c k f r) (hovf : r.2 = false) {d : Nat} (hd : c.depth ≤ d) :
    FloodRun { c with depth := d } k f r := by
  induction h with
  | finished h => exact .finished ((advance_deeper (by simp [h]) hd).trans h)
  | overflow => exact absurd hovf (by simp)
  | child h _ ih => exact .child ((advance_deeper (by simp [h]) hd).trans h) (ih hovf)

end

/-! ## The first line -/

/-- Relabelling a span of one row leaves the other rows alone (R160). -/
theorem labelAt_relabelSpan_of_ne {c : FillCtx} {s : State} {y y' l r i : Nat} (hrow : y' ≠ y) (hr : r < c.w) (hi : i < c.w) :
    c.labelAt (relabelSpan c s y l r) i y' = c.labelAt s i y' := by
  refine (label_relabelSpan c s y l r _).trans (if_neg ?_)
  rcases Nat.lt_or_gt_of_ne hrow with hlt | hgt
  · have hrows : (y' + 1) * c.w ≤ y * c.w := Nat.mul_le_mul_right _ hlt
    rw [Nat.succ_mul] at hrows
    omega
  · have hrows : (y + 1) * c.w ≤ y' * c.w := Nat.mul_le_mul_right _ hgt
    rw [Nat.succ_mul] at hrows
    omega

/-- What the first frame has left is what lies above and below the seed's span (R160, R161). -/
theorem frameHas_firstLine {c : FillCtx} {s : State} {x y : Nat} (hc : c.Fits) (hx : x < c.w) (hy : y < c.h) {l r : Nat}
    (hlr : lineSpan c s x y = (l, r)) (i : Nat) :
    FrameHas c (relabelSpan c s y l r) ⟨BitVec.ofNat 16 y, BitVec.ofNat 16 r, BitVec.ofNat 16 l, BitVec.ofNat 16 l⟩ i ↔
      l ≤ i ∧ i ≤ r ∧
        ((0 < y ∧ c.labelAt s i (y - 1) = c.source) ∨ (y + 1 < c.h ∧ c.labelAt s i (y + 1) = c.source)) := by
  obtain ⟨hl, hr, hrw⟩ := lineSpan_inside (s := s) (y := y) hx
  obtain ⟨hw, hh⟩ := hc
  rw [hlr] at hl hr hrw
  unfold FrameHas
  rw [toNat_ofNat_half (by omega), toNat_ofNat_half (by omega), toNat_ofNat_half (by omega)]
  by_cases hi : i ≤ r
  · have hbelow : c.labelAt (relabelSpan c s y l r) i (y + 1) = c.labelAt s i (y + 1) :=
      labelAt_relabelSpan_of_ne (by omega) hrw (by omega)
    have habove (hpos : 0 < y) : c.labelAt (relabelSpan c s y l r) i (y - 1) = c.labelAt s i (y - 1) :=
      labelAt_relabelSpan_of_ne (by omega) hrw (by omega)
    rw [hbelow]
    constructor
    · rintro ⟨_, ⟨hpos, hlo, h⟩ | ⟨hlt, hlo, h⟩⟩
      · exact ⟨hlo, hi, .inl ⟨hpos, habove hpos ▸ h⟩⟩
      · exact ⟨hlo, hi, .inr ⟨hlt, h⟩⟩
    · rintro ⟨hlo, _, ⟨hpos, h⟩ | ⟨hlt, h⟩⟩
      · exact ⟨hi, .inl ⟨hpos, hlo, (habove hpos).trans h⟩⟩
      · exact ⟨hi, .inr ⟨hlt, hlo, h⟩⟩
  · exact iff_of_false (fun h => hi h.1) fun h => hi h.2.1

/-! ## The obligation -/

/-- With a stack of W·H frames a fill that begins on a FROM cell does not overflow (R162). -/
theorem flood_no_overflow {c : FillCtx} {s : State} {x y : Nat} (hc : c.Fits) (hne : c.source ≠ c.target) (hx : x < c.w)
    (hy : y < c.h) (hfrom : c.labelAt s x y = c.source) (hdepth : c.w * c.h ≤ c.depth) : (flood c x y s).2 = false := by
  obtain ⟨k, _, hrun⟩ := exists_floodRun_flood hc hne hx hy hfrom
  exact hrun.no_overflow hc hne (.start hc hne hx hy hfrom) (pixels_lt_visitLine c (Fill.start s) x y) hdepth

/-- An id that REGION_CODE allocates is not the label of a black cell (R29, R165). -/
theorem newLabel_ne_one {p : Params} (hp : p.legal) {n : BitVec 9} (hlo : 2 ≤ n.toNat) (hhi : n.toNat < 2 + p.maxRegions) :
    (1 : Byte) ≠ n.setWidth 8 := by
  obtain ⟨_, _, _, ⟨_, hregions⟩, _⟩ := hp
  intro h
  have htoNat := congrArg BitVec.toNat h
  rw [BitVec.toNat_setWidth, Nat.mod_eq_of_lt (by omega)] at htoNat
  change 1 = n.toNat at htoNat
  omega

/-- Settles O27: each clause is a fact about the run that FLOOD is (`exists_floodRun_flood`). -/
theorem floodEndsByItself : Obligations.FloodEndsByItself := by
  refine ⟨fun c s x y hne hx hy hw hh hfrom => ?flood, fun s hdepth => ⟨fun hready => ?fill, fun hnew => ?regionCode⟩⟩
  case flood =>
    have hc : c.Fits := ⟨hw, hh⟩
    obtain ⟨k, hk, hrun⟩ := exists_floodRun_flood hc hne hx hy hfrom
    refine ⟨fun extra => hrun.floodLoop_eq (by omega), fun hdepth hovf => hrun.overflow_stack hdepth hovf,
      flood_no_overflow hc hne hx hy hfrom, fun hdepth => ?single, fun hovf d hd => ?deeper⟩
    case single =>
      rw [hrun.overflow_iff_of_single hdepth rfl]
      exact exists_congr fun i => frameHas_firstLine hc hx hy rfl i
    case deeper => exact (hrun.deeper hovf hd).floodLoop_eq (by show k < c.w * c.h + 1; omega)
  case fill =>
    have hdone := exec_fill_ready hready
    obtain ⟨_, hx, hy, hne, hfrom⟩ := hready
    exact ⟨_, hdone, flood_no_overflow (fillCtx_fits Config.params s.cur) hne hx hy hfrom hdepth⟩
  case regionCode =>
    obtain ⟨hvalid, hx, hy, hblack, hlo, hhi⟩ := hnew
    have hseed : s.cur.seedInImage = true := decide_eq_true ⟨hx, hy⟩
    exact ⟨_, congrArg Host.Outcome.next (regionCodeCommand_new hvalid hseed hblack hhi),
      flood_no_overflow (c := regionCtx Config.params s.cur (s.regionNext.setWidth 8)) (regionCtx_fits _ _ _)
        (newLabel_ne_one Config.params_legal hlo hhi) hx hy hblack hdepth⟩

end Sys2Proof.Machine
end

