-- ==== Sys2Proof/Proofs/FillSpansTurns.lean ====
section
/-! The later turns of a FILL.SPANS (R161, R168, R170): O29, and drained they leave what FILL leaves: O31. -/

namespace Sys2Proof.Machine

/-! ## One later turn -/

/-- `advance` pops the frames without a child and then has the child of the next frame, if there is one, on which it overflows
or goes on (R161, R162). -/
theorem advance_split (c : FillCtx) (s : State) (stack : List Frame) :
    (advance c s stack = .finished ∧ ∀ f ∈ stack, (nextChild c s f).2 = none) ∨
    ∃ popped f f' below x y, stack = popped ++ f :: below ∧ (∀ g ∈ popped, (nextChild c s g).2 = none) ∧
      nextChild c s f = (f', some (x, y)) ∧
      advance c s stack = if c.depth ≤ below.length + 1 then .overflow (f' :: below) else .child (f' :: below) x y := by
  induction stack with
  | nil => exact .inl ⟨rfl, by simp⟩
  | cons f below ih =>
    rw [advance]
    cases hchild : nextChild c s f with
    | mk f' child =>
    cases child with
    | some cell =>
      obtain ⟨x, y⟩ := cell
      exact .inr ⟨[], f, f', below, x, y, rfl, by simp, hchild, rfl⟩
    | none =>
      have hnone : (nextChild c s f).2 = none := congrArg Prod.snd hchild
      rcases ih with ⟨hadv, hall⟩ | ⟨popped, g, g', below', x, y, rfl, hpopped, hg, hadv⟩
      · exact .inl ⟨hadv, by simpa [hnone] using hall⟩
      · exact .inr ⟨f :: popped, g, g', below', x, y, rfl, by simpa [hnone] using hpopped, hg, hadv⟩

section
variable {p : Params} {op : BitVec 4} {run : FillRun} {s : State}

theorem fillSpansContinue_finished (hheld : run.held = none)
    (h : advance (fillCtx p s.cur) s run.stack = .finished) :
    fillSpansContinue p op run s = fillComplete op s false run.spans run.pixels := by
  simp only [fillSpansContinue, hheld, h]

theorem fillSpansContinue_overflow (hheld : run.held = none) {stack : List Frame}
    (h : advance (fillCtx p s.cur) s run.stack = .overflow stack) :
    fillSpansContinue p op run s = fillComplete op s true run.spans run.pixels := by
  simp only [fillSpansContinue, hheld, h]

theorem fillSpansContinue_child (hheld : run.held = none) {stack : List Frame} {x y : Nat}
    (h : advance (fillCtx p s.cur) s run.stack = .child stack x y) :
    fillSpansContinue p op run s =
      pushSpan p run.ffOvfBefore (visitLine (fillCtx p s.cur) ⟨s, stack, run.spans, run.pixels⟩ x y).1
        (visitLine (fillCtx p s.cur) ⟨s, stack, run.spans, run.pixels⟩ x y).2 := by
  simp only [fillSpansContinue, hheld, h]

end

/-- FILL_LINE in the image, told by the span it finds, whose fields hold its row and its columns (R45, R160, R161). -/
theorem visitLine_eq {c : FillCtx} (hc : c.Fits) (f : Fill) {x y : Nat} (hx : x < c.w) (hy : y < c.h) :
    ∃ sp : Span, sp.y.toNat = y ∧ lineSpan c f.s x y = (sp.left.toNat, sp.right.toNat) ∧
      visitLine c f x y =
        ({ s := relabelSpan c f.s y sp.left.toNat sp.right.toNat
           stack := ⟨sp.y, sp.right, sp.left, sp.left⟩ :: f.stack
           spans := f.spans + 1
           pixels := f.pixels + (sp.right.toNat - sp.left.toNat + 1) }, sp) := by
  obtain ⟨hl, hr, hrw⟩ := lineSpan_inside (s := f.s) (y := y) hx
  obtain ⟨hw, hh⟩ := hc
  have hleft := toNat_ofNat_half (n := (lineSpan c f.s x y).1) (by omega)
  have hright := toNat_ofNat_half (n := (lineSpan c f.s x y).2) (by omega)
  refine ⟨⟨BitVec.ofNat 16 y, BitVec.ofNat 16 (lineSpan c f.s x y).1, BitVec.ofNat 16 (lineSpan c f.s x y).2⟩,
    toNat_ofNat_half (by omega), by rw [hleft, hright], ?_⟩
  dsimp only
  rw [hleft, hright]
  rfl

/-- PUSH_SPAN by the room in the FIFO (R170). -/
theorem pushSpan_of_room {p : Params} {before : Bool} {f : Fill} {sp : Span} (h : f.s.fifo.length < p.spanFifoDepth) :
    pushSpan p before f sp =
      { f.s with fifo := f.s.fifo ++ [sp], phase := .filling ⟨f.stack, f.spans, f.pixels, none, before⟩ } :=
  if_pos h

theorem pushSpan_of_full {p : Params} {before : Bool} {f : Fill} {sp : Span} (h : p.spanFifoDepth ≤ f.s.fifo.length) :
    pushSpan p before f sp = { f.s with phase := .filling ⟨f.stack, f.spans, f.pixels, some sp, before⟩ } :=
  if_neg (Nat.not_lt.mpr h)

/-- PUSH_SPAN writes no byte (R170). -/
theorem readByte_pushSpan (p : Params) (before : Bool) (f : Fill) (sp : Span) (a : Nat) :
    (pushSpan p before f sp).readByte a = f.s.readByte a := by
  rcases pushSpan_cases p before f sp with ⟨_, h⟩ | ⟨_, h⟩ <;> rw [h] <;> rfl

/-- Relabelling a span writes the bytes of the span only (R160). -/
theorem readByte_relabelSpan_of_outside (c : FillCtx) (s : State) {y l r a : Nat}
    (h : ¬ (labelBase + (y * c.w + l) ≤ a ∧ a ≤ labelBase + (y * c.w + r))) :
    (relabelSpan c s y l r).readByte a = s.readByte a :=
  (State.readByte_writeBytes s _ _ _ a).trans (if_neg (by omega))

theorem labelAt_relabelSpan_of_inside (c : FillCtx) (s : State) {y l r i : Nat} (hlo : l ≤ i) (hhi : i ≤ r) :
    c.labelAt (relabelSpan c s y l r) i y = c.target :=
  (label_relabelSpan c s y l r _).trans (if_pos ⟨by omega, by omega⟩)

/-- Settles O29: by `advance_split` and, where the fill goes on, what visiting a line and pushing its span leave. -/
theorem fillSpansGoesOn : Obligations.FillSpansGoesOn := by
  refine ⟨?turn, fun s run hfilling => engineStep_filling hfilling⟩
  intro p s run _ hinv hfilling hheld c w t stops completes
  obtain ⟨_, _, _, _, _, hinside⟩ := hinv.filling run hfilling
  have noStop {f : Frame} (h : (nextChild c s f).2 = none) : ¬ stops f := by
    rintro ⟨x, y, hstop⟩
    exact nextChild_scan.2 h x (frameHas_of_scanStops hstop)
  obtain ⟨hadv, hnone⟩ | ⟨popped, f, f', below, x, y, hstack, hpopped, hchild, hadv⟩ := advance_split c s run.stack
  · -- no frame has a child
    rw [hadv]
    exact ⟨fillSpansContinue_finished hheld hadv, fun f hf => noStop (hnone f hf)⟩
  have hstop := nextChild_scan.1 x y (congrArg Prod.snd hchild)
  have hpopped' : ∀ g ∈ popped, ¬ stops g := fun g hg => noStop (hpopped g hg)
  by_cases hfull : c.depth ≤ below.length + 1
  · -- the stack has no room for the child
    rw [if_pos hfull] at hadv
    rw [hadv]
    exact ⟨fillSpansContinue_overflow hheld hadv, popped, f, below, hstack, hpopped', ⟨x, y, hstop⟩, hfull⟩
  · -- the child's line is visited and its span pushed
    rw [if_neg hfull] at hadv
    have hfits := fillCtx_fits p s.cur
    obtain ⟨hx, hy, _, _⟩ := advance_child_inside hfits hinside hadv
    obtain ⟨hfrom, hfy, hfright, _⟩ := nextChild_some hchild
    obtain ⟨sp, hspy, hlr, hvisit⟩ := visitLine_eq hfits ⟨s, f' :: below, run.spans, run.pixels⟩ hx hy
    obtain ⟨hl, hr, hrw⟩ := lineSpan_inside (c := c) (s := s) (y := y) hx
    obtain ⟨hin, hleft, hright⟩ := lineSpan_maximal (c := c) (s := s) (y := y) hx (beq_iff_eq.mp hfrom)
    have ht : t = _ := fillSpansContinue_child hheld hadv
    rw [hvisit] at ht
    have hlr' : lineSpan c s x y = _ := hlr
    rw [hlr'] at hl hr hrw hin hleft hright
    rw [hadv]
    refine ⟨⟨popped, f, f', below, hstack, rfl, hpopped', hstop, hfy, hfright, Nat.lt_of_not_le hfull⟩, sp, hspy, hl, hr,
      hrw, fun i hlo hhi => ⟨hin i hlo hhi, ?relabelled⟩, hleft, hright, fun a ha => ?frame, fun hroom => ?pushed,
      fun hfifo => ?held⟩
    case relabelled =>
      rw [ht, State.label, readByte_pushSpan]
      exact labelAt_relabelSpan_of_inside c s hlo hhi
    case frame =>
      rw [ht, readByte_pushSpan]
      exact readByte_relabelSpan_of_outside c s ha
    case pushed =>
      rw [ht.trans (pushSpan_of_room hroom)]
      rfl
    case held =>
      rw [ht.trans (pushSpan_of_full hfifo.ge)]
      rfl

/-! ## Drained turns -/

/-- A FILL.SPANS between two turns, with no span held: the fill `f`, the FF_OVF from before, and what the host sees and has to
come. -/
def Fill.between (f : Fill) (before : Bool) (fifo : List Span) (agenda : List Event) (data : Word) : State :=
  { f.s with
    phase := .filling ⟨f.stack, f.spans, f.pixels, none, before⟩
    fifo := fifo
    agenda := agenda
    readData := data }

/-- What O31 compares: the results of a completed command, the region table and the memory. -/
def resultFields (s : State) :=
  (s.phase, s.intDone, s.code, s.lastOp, s.ffOvf, s.res0, s.res1, s.regions, s.regionNext, s.mem, s.imageDraws, s.bufferDraws)

/-- The block after a SPAN_X read (R34). -/
def State.popped (s : State) : State := { s.popSpan.2 with readData := s.popSpan.1 }

theorem resultFields_popped (s : State) : resultFields s.popped = resultFields s := by
  unfold State.popped State.popSpan
  split <;> rfl

theorem popped_withAgenda (s : State) (agenda : List Event) :
    State.popped { s with agenda := agenda } = { s.popped with agenda := agenda } := by
  unfold State.popped State.popSpan
  dsimp only
  split <;> rfl

theorem core_run_succ {M : Host.Core} {s t : M.State} (h : M.step s = .next t) (k : Nat) : M.run (k + 1) s = M.run k t := by
  rw [Host.Core.run, h]

theorem run_succ {s t : State} (h : step s = .next t) (k : Nat) :
    Host.Core.run Sys2Proof.core (k + 1) s = Host.Core.run Sys2Proof.core k t :=
  core_run_succ (M := Sys2Proof.core) h k

/-- Two steps of a drained block are a pop and a turn of the engine (R173). -/
theorem run_drain_succ {s t : State} {n : Nat} (hagenda : s.agenda = Sys2Proof.Claims.drain (n + 1))
    (ht : engineStep { s.popped with agenda := Sys2Proof.Claims.drain n } = .next t) :
    Host.Core.run Sys2Proof.core (2 * (n + 1)) s = Host.Core.run Sys2Proof.core (2 * n) t := by
  have hhost : step s = .next { s.popped with agenda := .engine :: Sys2Proof.Claims.drain n } := by
    rw [step_of_agenda_host hagenda, ← popped_withAgenda]
    exact hostAccess_rd_reg .spanX _
  have hengine : step { s.popped with agenda := .engine :: Sys2Proof.Claims.drain n } = .next t :=
    (step_of_agenda_engine rfl).trans ht
  exact (run_succ hhost _).trans (run_succ hengine _)

/-- A drained block stays as it is once the command has completed. -/
theorem run_drain_idle {s : State} {n : Nat} (hidle : s.phase = .idle) (hagenda : s.agenda = Sys2Proof.Claims.drain n) :
    ∃ u, Host.Core.run Sys2Proof.core (2 * n) s = .next u ∧ resultFields u = resultFields s := by
  induction n generalizing s with
  | zero => exact ⟨s, rfl, rfl⟩
  | succ n ih =>
    have hfields := resultFields_popped s
    have hidle' : s.popped.phase = .idle := (congrArg Prod.fst hfields).trans hidle
    obtain ⟨u, hu, hsame⟩ := ih (s := { s.popped with agenda := Sys2Proof.Claims.drain n }) hidle' rfl
    exact ⟨u, (run_drain_succ hagenda (engineStep_idle hidle')).trans hu, hsame.trans hfields⟩

/-- What a fill goes on to is decided by the labels (R161). -/
theorem nextChild_congr (c : FillCtx) {s t : State} (h : t.label = s.label) (f : Frame) : nextChild c t f = nextChild c s f := by
  unfold nextChild FillCtx.isFrom FillCtx.labelAt
  rw [h]

theorem advance_congr (c : FillCtx) {s t : State} (h : t.label = s.label) (stack : List Frame) :
    advance c t stack = advance c s stack := by
  induction stack with
  | nil => rfl
  | cons f below ih => rw [advance, advance, nextChild_congr c h, ih]

/-- So what the host sees of a FILL.SPANS does not matter. -/
theorem advance_between {c : FillCtx} {f : Fill} (hc : c = fillCtx Config.params f.s.cur) {a : Advance} {stack : List Frame}
    (h : advance c f.s stack = a) (before : Bool) (fifo : List Span) (agenda : List Event) (data : Word) :
    advance (fillCtx Config.params (f.between before fifo agenda data).cur) (f.between before fifo agenda data) stack = a := by
  subst hc
  have hsame := advance_congr (fillCtx Config.params f.s.cur) (s := f.s) (t := f.between before fifo agenda data) rfl stack
  exact hsame.trans h

/-- Two steps of a drained FILL.SPANS whose last span waits in the FIFO. -/
theorem run_between_succ {f : Fill} {before : Bool} {sp : Span} {n : Nat} {data : Word} {t : State}
    (ht : fillSpansContinue Config.params Instr.fillSpans.opcode ⟨f.stack, f.spans, f.pixels, none, before⟩
      (f.between before [] (Sys2Proof.Claims.drain n) (sp.right ++ sp.left)) = t) :
    Host.Core.run Sys2Proof.core (2 * (n + 1)) (f.between before [sp] (Sys2Proof.Claims.drain (n + 1)) data) =
      Host.Core.run Sys2Proof.core (2 * n) t :=
  run_drain_succ rfl ((engineStep_filling rfl).trans (congrArg Host.Outcome.next ht))

/-- PUSH_SPAN after a pop leaves the fill between two turns again (R170). -/
theorem pushSpan_visitLine_between (c : FillCtx) (f : Fill) (stack : List Frame) (x y : Nat) (before : Bool)
    (agenda : List Event) (data : Word) :
    pushSpan Config.params before (visitLine c ⟨f.between before [] agenda data, stack, f.spans, f.pixels⟩ x y).1
        (visitLine c ⟨f.between before [] agenda data, stack, f.spans, f.pixels⟩ x y).2 =
      (visitLine c { f with stack := stack } x y).1.between before
        [(visitLine c { f with stack := stack } x y).2] agenda data :=
  pushSpan_empty Config.params_legal _ _ rfl

/-- A drained FILL.SPANS does, turn by turn, what the loop of the flood does, and completes as FILL (R168, R170). -/
theorem run_drain_filling {c : FillCtx} {k : Nat} {f : Fill} {r : Fill × Bool} (hrun : FloodRun c k f r)
    (hc : c = fillCtx Config.params f.s.cur) {n : Nat} (hn : k < n) (before : Bool) (sp : Span) (data : Word) :
    ∃ u, Host.Core.run Sys2Proof.core (2 * n) (f.between before [sp] (Sys2Proof.Claims.drain n) data) = .next u ∧
      resultFields u = resultFields (fillComplete Instr.fillSpans.opcode r.1.s r.2 r.1.spans r.1.pixels) := by
  induction hrun generalizing n sp data with
  | finished h =>
    obtain ⟨n, rfl⟩ := Nat.exists_eq_add_one_of_ne_zero (Nat.ne_zero_of_lt hn)
    rw [run_between_succ (fillSpansContinue_finished rfl (advance_between hc h _ _ _ _))]
    exact run_drain_idle rfl rfl
  | overflow h =>
    obtain ⟨n, rfl⟩ := Nat.exists_eq_add_one_of_ne_zero (Nat.ne_zero_of_lt hn)
    rw [run_between_succ (fillSpansContinue_overflow rfl (advance_between hc h _ _ _ _))]
    exact run_drain_idle rfl rfl
  | @child f stack x y k r h _ ih =>
    obtain ⟨n, rfl⟩ := Nat.exists_eq_add_one_of_ne_zero (Nat.ne_zero_of_lt hn)
    have hturn := fillSpansContinue_child (op := Instr.fillSpans.opcode)
      (run := ⟨f.stack, f.spans, f.pixels, none, before⟩) rfl (advance_between hc h before [] (Sys2Proof.Claims.drain n) (sp.right ++ sp.left))
    subst hc
    rw [run_between_succ (hturn.trans (pushSpan_visitLine_between _ f stack x y before _ _))]
    exact ih rfl (by omega) _ _

/-- The first turn of a ready FILL.SPANS visits the first line of FILL's flood (R168, R170). -/
theorem step_fillSpans_ready {s : State} {agenda : List Event} (hready : Sys2Proof.Claims.fillReady s)
    (hissued : s.phase = .issued) (hword : decode s.cur.word = .fillSpans) (hagenda : s.agenda = .engine :: agenda) :
    let first := visitLine (fillCtx Config.params s.cur) (Fill.start { s with ffOvf := false })
      s.cur.seedX.toNat s.cur.seedY.toNat
    step s = .next (first.1.between s.ffOvf [first.2] agenda s.readData) := by
  have hissued' : ({ s with agenda := agenda } : State).phase = .issued := hissued
  have hready' : Sys2Proof.Claims.fillReady { s with agenda := agenda } := hready
  rw [step_of_agenda_engine hagenda, engineStep_issued hissued', hword, exec_fillSpans_ready hready',
    pushSpan_empty Config.params_legal _ _ rfl]
  rfl

/-- Settles O31: the first turn visits the first line of FILL's flood, and the drained turns after it are the run of the
flood's loop. -/
theorem drainedFillSpansEqualsFill : Obligations.DrainedFillSpansEqualsFill := by
  intro s n hready hissued hword hn hagenda
  have hfill := exec_fill_ready hready
  have hfirst := step_fillSpans_ready hready hissued hword hagenda
  obtain ⟨_, hx, hy, hne, hfrom⟩ := hready
  obtain ⟨k, hk, hrun⟩ := exists_floodRun_flood (c := fillCtx Config.params s.cur) (s := { s with ffOvf := false })
    (fillCtx_fits _ _) hne hx hy hfrom
  have hkn : k < n := (hk.trans_le (Nat.le_add_right _ 2)).trans_le hn
  obtain ⟨u, hu, hfields⟩ := run_drain_filling hrun rfl hkn s.ffOvf _ s.readData
  simp only [resultFields, Prod.mk.injEq] at hfields
  obtain ⟨hphase, hdone, hcode, hop, hovf, hres0, hres1, hregions, hnext, hmem, himage, hbuffer⟩ := hfields
  exact ⟨_, u, hfill, (run_succ hfirst _).trans hu, hphase, hdone, hcode, hop, hovf, hres0, hres1, hregions, hnext,
    State.readByte_congr hmem himage hbuffer⟩

end Sys2Proof.Machine
end

