-- ==== Sys2Proof/Proofs/ThresholdWindow.lean ====
section
/-! The central window as the pixels of the image that meet R142's bounds, and its histogram (R143): O18. -/

namespace Sys2Proof.Machine

/-! ## The window's pixels -/

/-- A coordinate of an axis of length `n` outside both margins (R142). -/
abbrev OffMargin (n i : Nat) : Prop := n / 5 ≤ i ∧ i < n - n / 5

/-- The pixel with index `o` lies in the central window (R36, R142). -/
abbrev InWindow (w h o : Nat) : Prop := OffMargin w (o % w) ∧ OffMargin h (o / w)

theorem filter_range_between (a k b : Nat) :
    (List.range (a + k + b)).filter (fun i => decide (a ≤ i ∧ i < a + k)) = (List.range k).map (a + ·) := by
  have below : (List.range a).filter (fun i => decide (a ≤ i ∧ i < a + k)) = [] := by
    simp only [List.filter_eq_nil_iff, List.mem_range, decide_eq_true_eq]
    omega
  have within : ((List.range k).map (a + ·)).filter (fun i => decide (a ≤ i ∧ i < a + k)) =
      (List.range k).map (a + ·) := by
    simp [List.filter_eq_self]
  have above : ((List.range b).map (a + k + ·)).filter (fun i => decide (a ≤ i ∧ i < a + k)) = [] := by
    simp [List.filter_eq_nil_iff]
  rw [List.range_add, List.range_add, List.filter_append, List.filter_append, below, within, above, List.nil_append,
    List.append_nil]

theorem margin_add_windowLength (n : Nat) : n = margin n + windowLength n + margin n := by
  simp only [windowLength, margin, marginDiv]
  omega

theorem filter_offMargin (n : Nat) :
    (List.range n).filter (fun i => decide (OffMargin n i)) = (List.range (windowLength n)).map (margin n + ·) := by
  have hend : n - n / 5 = margin n + windowLength n := by
    have := margin_add_windowLength n
    simp only [margin, marginDiv] at *
    omega
  have hsplit := filter_range_between (margin n) (windowLength n) (margin n)
  rw [← margin_add_windowLength, ← hend] at hsplit
  exact hsplit

/-- The pixels of an image row by row. -/
theorem range_mul_eq_flatMap (h w : Nat) :
    List.range (h * w) = (List.range h).flatMap fun y => (List.range w).map (y * w + ·) := by
  induction h with
  | zero => simp
  | succ h ih => simp [Nat.succ_mul, List.range_add, List.range_succ, List.flatMap_append, ih]

theorem inWindow_row {w x : Nat} (hx : x < w) (h y : Nat) :
    InWindow w h (y * w + x) ↔ OffMargin w x ∧ OffMargin h y := by
  have hcolumn : (y * w + x) % w = x := Nat.mul_add_mod_of_lt hx
  have hline : (y * w + x) / w = y := by
    rw [Nat.mul_comm, Nat.mul_add_div (by omega), Nat.div_eq_of_lt hx, Nat.add_zero]
  rw [InWindow, hcolumn, hline]

/-- The part of row `y` that lies in the window. -/
theorem filter_inWindow_row (w h y : Nat) :
    ((List.range w).map (y * w + ·)).filter (fun o => decide (InWindow w h o)) =
      if OffMargin h y then (List.range (windowLength w)).map fun dx => y * w + (margin w + dx) else [] := by
  have hrow {x : Nat} (hx : x ∈ List.range w) := inWindow_row (List.mem_range.mp hx) h y
  rw [List.filter_map]
  split
  case isTrue hy =>
    have hcolumns : (List.range w).filter ((fun o => decide (InWindow w h o)) ∘ (y * w + ·)) =
        (List.range w).filter fun x => decide (OffMargin w x) :=
      List.filter_congr fun x hx => decide_eq_decide.mpr ((hrow hx).trans (and_iff_left hy))
    rw [hcolumns, filter_offMargin, List.map_map]
    rfl
  case isFalse hy =>
    have hnone : (List.range w).filter ((fun o => decide (InWindow w h o)) ∘ (y * w + ·)) = [] :=
      List.filter_eq_nil_iff.mpr fun x hx hin => hy ((hrow hx).mp (of_decide_eq_true hin)).2
    rw [hnone, List.map_nil]

/-- Going through the elements that pass a test is going through all, with nothing for the others. -/
theorem flatMap_filter {α β : Type} (p : α → Bool) (f : α → List β) (l : List α) :
    (l.filter p).flatMap f = l.flatMap fun a => if p a then f a else [] := by
  induction l with
  | nil => rfl
  | cons a l ih => cases h : p a <;> simp [h, ih]

/-- The window's GRAY values are those of the pixels inside R142's bounds, in index order. -/
theorem windowPixels_eq (s : State) (w h : Nat) :
    windowPixels s w h = ((List.range (w * h)).filter fun o => decide (InWindow w h o)).map s.gray := by
  symm
  calc ((List.range (w * h)).filter fun o => decide (InWindow w h o)).map s.gray
      = ((List.range h).flatMap fun y =>
          if OffMargin h y then (List.range (windowLength w)).map fun dx => y * w + (margin w + dx) else []).map s.gray := by
        rw [Nat.mul_comm, range_mul_eq_flatMap, List.filter_flatMap]
        simp only [filter_inWindow_row]
    _ = (((List.range (windowLength h)).map (margin h + ·)).flatMap fun y =>
          (List.range (windowLength w)).map fun dx => y * w + (margin w + dx)).map s.gray := by
        rw [← filter_offMargin h, flatMap_filter]
        simp only [decide_eq_true_eq]
    _ = windowPixels s w h := by
        simp only [windowPixels, List.flatMap_map, List.map_flatMap, List.map_map, Function.comp_def]

theorem length_windowPixels (s : State) (w h : Nat) : (windowPixels s w h).length = windowSize w h := by
  simp [windowPixels, windowSize, Nat.mul_comm]

theorem windowLength_bounds {n : Nat} (hn : 0 < n) : 1 ≤ windowLength n ∧ windowLength n ≤ n := by
  simp only [windowLength, margin, marginDiv]
  omega

/-! ## The histogram -/

theorem histogram_windowPixels (s : State) (w h v : Nat) :
    histogram (windowPixels s w h) v =
      (List.range (w * h)).countP fun o => decide (InWindow w h o) && (s.gray o).toNat == v := by
  rw [histogram, windowPixels_eq, List.countP_map, List.countP_filter]
  exact congrArg (fun p => (List.range (w * h)).countP p) (funext fun o => Bool.and_comm _ _)

theorem countP_lt_succ (pixels : List Byte) (k : Nat) :
    (pixels.countP fun p => decide (p.toNat < k + 1)) =
      (pixels.countP fun p => decide (p.toNat < k)) + histogram pixels k := by
  unfold histogram
  induction pixels with
  | nil => rfl
  | cons p pixels ih =>
    simp only [List.countP_cons, ih, decide_eq_true_eq, beq_iff_eq]
    split_ifs <;> omega

/-- The first `k` bins count the pixels below level `k`. -/
theorem sum_histogram (pixels : List Byte) (k : Nat) :
    ((List.range k).map (histogram pixels)).sum = pixels.countP fun p => decide (p.toNat < k) := by
  induction k with
  | zero => simp
  | succ k ih =>
    rw [List.range_succ, List.map_append, List.sum_append, ih, countP_lt_succ, List.map_singleton, List.sum_singleton]

/-- The bins count every pixel once (R143). -/
theorem sum_histogram_all (pixels : List Byte) :
    ((List.range 256).map (histogram pixels)).sum = pixels.length := by
  rw [sum_histogram, List.countP_eq_length]
  exact fun p _ => decide_eq_true p.isLt

/-- Settles O18: the window is the filtered list of pixel indices, and every pixel falls in one bin. -/
theorem histogramCountsWindow : Obligations.HistogramCountsWindow := by
  intro s w h hw hh
  obtain ⟨hw1, hw2⟩ := windowLength_bounds hw
  obtain ⟨hh1, hh2⟩ := windowLength_bounds hh
  refine ⟨fun v _ => ?_, ?_, Nat.mul_pos hw1 hh1, Nat.mul_le_mul hw2 hh2⟩
  · simpa only [and_assoc] using histogram_windowPixels s w h v
  · rw [sum_histogram_all, length_windowPixels]
    rfl

end Sys2Proof.Machine
end

