-- ==== Sys2Proof/Proofs/Otsu.lean ====
section
/-! The Otsu scan (R144 to R146): it keeps the highest level of maximal between-class variance among those it evaluated,
so at its end the highest of all. -/

namespace Sys2Proof.Machine

open Sys2Proof.Claims (weight mass evaluated varNum varDen lastMaximum)

section
variable {hist : Nat → Nat} {n total : Nat}

/-! ## The order of the levels -/

/-- The between-class variance of a level times N² (R144). -/
def levelVariance (hist : Nat → Nat) (n total t : Nat) : ℚ := varNum hist n total t / varDen hist n t

theorem varDen_pos {t : Nat} (h : evaluated hist n t) : 0 < varDen hist n t := by
  obtain ⟨_, hback, hfore⟩ := h
  exact Int.mul_pos (by omega) (by omega)

/-- Cross-multiplication compares variances exactly (R146). -/
theorem levelVariance_le_iff {t T : Nat} (ht : evaluated hist n t) (hT : evaluated hist n T) :
    levelVariance hist n total t ≤ levelVariance hist n total T ↔
      varNum hist n total t * varDen hist n T ≤ varNum hist n total T * varDen hist n t := by
  have h1 := varDen_pos ht
  have h2 := varDen_pos hT
  rw [levelVariance, levelVariance, div_le_div_iff₀ (by exact_mod_cast h1) (by exact_mod_cast h2)]
  exact_mod_cast Iff.rfl

/-- Level `T` is evaluated and below `k`, and of the evaluated levels below `k` none has a greater variance and no higher one
the same. -/
def LastMaximumBelow (hist : Nat → Nat) (n total k T : Nat) : Prop :=
  evaluated hist n T ∧ ∀ t, t < k → evaluated hist n t →
    levelVariance hist n total t ≤ levelVariance hist n total T ∧
    (levelVariance hist n total t = levelVariance hist n total T → t ≤ T)

theorem LastMaximumBelow.lastMaximum {T : Nat} (h : LastMaximumBelow hist n total 256 T) :
    lastMaximum hist n total T := by
  obtain ⟨hT, hmax⟩ := h
  refine ⟨hT, fun t ht => ?_⟩
  obtain ⟨hle, htie⟩ := hmax t ht.1 ht
  refine ⟨(levelVariance_le_iff ht hT).mp hle, fun heq => htie (le_antisymm hle ?_)⟩
  exact (levelVariance_le_iff hT ht).mpr heq.ge

/-! ## What the scan keeps -/

/-- What the scan holds once it has passed the levels below `k`: nothing while none of them was evaluated, and otherwise the
highest of maximal variance with its numerator and denominator. -/
inductive Kept (hist : Nat → Nat) (n total k : Nat) : OtsuScan → Prop where
  | nothing {wB sumB : Nat} (hnone : ∀ t, t < k → ¬ evaluated hist n t) : Kept hist n total k ⟨wB, sumB, 0, none⟩
  | level {wB sumB T num den : Nat} (hnum : (num : Int) = varNum hist n total T) (hden : (den : Int) = varDen hist n T)
      (hmax : LastMaximumBelow hist n total k T) : Kept hist n total k ⟨wB, sumB, T, some (num, den)⟩

/-- Levels that are not evaluated do not change what is kept. -/
theorem Kept.extend {k k' : Nat} {acc : OtsuScan} (h : Kept hist n total k acc)
    (hskip : ∀ t, k ≤ t → t < k' → ¬ evaluated hist n t) : Kept hist n total k' acc := by
  have hbelow {t : Nat} (ht : t < k') (he : evaluated hist n t) : t < k :=
    Nat.lt_of_not_le fun hk => hskip t hk ht he
  cases h with
  | nothing hnone => exact .nothing fun t ht he => hnone t (hbelow ht he) he
  | level hnum hden hmax => exact .level hnum hden ⟨hmax.1, fun t ht he => hmax.2 t (hbelow ht he) he⟩

/-- The sums run on without a change of what is kept. -/
theorem Kept.of_sums {k : Nat} {acc : OtsuScan} (h : Kept hist n total k acc) (wB sumB : Nat) :
    Kept hist n total k { acc with wB := wB, sumB := sumB } := by
  cases h with
  | nothing hnone => exact .nothing hnone
  | level hnum hden hmax => exact .level hnum hden hmax

/-- BETTER with OTSU_TIE = LAST: at least the kept variance (R146). -/
theorem better_last_iff {t T num den bestNum bestDen : Nat} (ht : evaluated hist n t) (hT : evaluated hist n T)
    (hnum : (num : Int) = varNum hist n total t) (hden : (den : Int) = varDen hist n t)
    (hbestNum : (bestNum : Int) = varNum hist n total T) (hbestDen : (bestDen : Int) = varDen hist n T) :
    better .last num den bestNum bestDen = true ↔ levelVariance hist n total T ≤ levelVariance hist n total t := by
  rw [levelVariance_le_iff hT ht, ← hnum, ← hden, ← hbestNum, ← hbestDen]
  simp only [better, decide_eq_true_eq]
  exact_mod_cast Iff.rfl

/-- Evaluating level `k` keeps the highest of maximal variance. -/
theorem Kept.evaluate {k num den : Nat} {acc : OtsuScan} (h : Kept hist n total k acc) (hk : evaluated hist n k)
    (hnum : (num : Int) = varNum hist n total k) (hden : (den : Int) = varDen hist n k) :
    Kept hist n total (k + 1) (OtsuScan.evaluate .last acc k num den) := by
  cases h with
  | nothing hnone =>
    refine .level hnum hden ⟨hk, fun t ht he => ?_⟩
    rcases Nat.lt_succ_iff_lt_or_eq.mp ht with hlt | rfl
    · exact absurd he (hnone t hlt)
    · exact ⟨le_rfl, fun _ => le_rfl⟩
  | level hbestNum hbestDen hmax =>
    obtain ⟨hT, hmax⟩ := hmax
    have hbetter := better_last_iff hk hT hnum hden hbestNum hbestDen
    dsimp only [OtsuScan.evaluate]
    split
    case isTrue hle =>
      have hle := hbetter.mp hle
      refine .level hnum hden ⟨hk, fun t ht he => ⟨?_, fun _ => Nat.le_of_lt_succ ht⟩⟩
      rcases Nat.lt_succ_iff_lt_or_eq.mp ht with hlt | rfl
      · exact (hmax t hlt he).1.trans hle
      · exact le_rfl
    case isFalse hlt =>
      have hless := lt_of_not_ge (hlt ∘ hbetter.mpr)
      refine .level hbestNum hbestDen ⟨hT, fun t ht he => ?_⟩
      rcases Nat.lt_succ_iff_lt_or_eq.mp ht with hlt | rfl
      · exact hmax t hlt he
      · exact ⟨hless.le, fun heq => absurd heq hless.ne⟩

/-! ## The running sums -/

theorem weight_eq (hist : Nat → Nat) (k : Nat) : weight hist k = ((List.range k).map hist).sum + hist k := by
  simp [weight, List.range_succ]

theorem mass_eq (hist : Nat → Nat) (k : Nat) :
    mass hist k = ((List.range k).map fun v => v * hist v).sum + k * hist k := by
  simp [mass, List.range_succ]

theorem weight_mono (hist : Nat → Nat) {k t : Nat} (h : k ≤ t) : weight hist k ≤ weight hist t := by
  induction t, h using Nat.le_induction with
  | base => exact le_rfl
  | succ t _ ih =>
    rw [weight_eq hist (t + 1)]
    exact ih.trans (Nat.le_add_right _ _)

/-- A level with nothing at or below it adds nothing to the sum of values. -/
theorem mass_eq_zero {k : Nat} (h : weight hist k = 0) : mass hist k = 0 := by
  rw [weight, List.sum_eq_zero_iff] at h
  rw [mass, List.sum_eq_zero_iff]
  simp only [List.mem_map, forall_exists_index, and_imp, forall_apply_eq_imp_iff₂] at h ⊢
  exact fun v hv => by rw [h v hv, Nat.mul_zero]

/-- The numerator the scan computes is R144's, while there is foreground left. -/
theorem varianceNum_eq {t : Nat} (h : weight hist t ≤ n) :
    (varianceNum total (weight hist t) (n - weight hist t) (mass hist t) : Int) = varNum hist n total t := by
  rw [varianceNum, Nat.cast_pow, Int.natCast_natAbs, sq_abs, Nat.cast_sub h]
  rfl

theorem varDen_eq {t : Nat} (h : weight hist t ≤ n) :
    ((weight hist t * (n - weight hist t) : Nat) : Int) = varDen hist n t := by
  rw [Nat.cast_mul, Nat.cast_sub h]
  rfl

/-! ## The scan -/

/-- The scan from level `k` on, with the sums of the levels below it. -/
theorem kept_otsuScan (m : Nat) {k : Nat} {acc : OtsuScan} (hend : k + m = 256) (hkept : Kept hist n total k acc)
    (hwB : acc.wB = ((List.range k).map hist).sum) (hsumB : acc.sumB = ((List.range k).map fun v => v * hist v).sum) :
    Kept hist n total 256 (otsuScan .last hist n total (List.range' k m) acc) := by
  induction m generalizing k acc with
  | zero => exact hend ▸ hkept
  | succ m ih =>
    have hweight : acc.wB + hist k = weight hist k := by rw [weight_eq, hwB]
    have hmass : acc.sumB + k * hist k = mass hist k := by rw [mass_eq, hsumB]
    rw [List.range'_succ]
    by_cases hback : weight hist k = 0
    case pos =>
      rw [otsuScan_skip _ _ _ _ _ _ _ (hweight.trans hback)]
      refine ih (by omega) (hkept.extend fun t hkt ht he => ?_) ?_ ?_
      · obtain rfl : t = k := by omega
        exact absurd he.2.1 (by omega)
      · show acc.wB = weight hist k
        omega
      · show acc.sumB = mass hist k
        have := mass_eq_zero hback
        omega
    by_cases hfore : n - weight hist k = 0
    case pos =>
      rw [otsuScan_stop _ _ _ _ _ _ _ (by rwa [hweight]) (by rwa [hweight])]
      refine hkept.extend fun t hkt _ he => ?_
      have := weight_mono hist hkt
      exact absurd he.2.2 (by omega)
    case neg =>
      rw [otsuScan_evaluate _ _ _ _ _ _ _ (by rwa [hweight]) (by rwa [hweight]), hweight, hmass]
      refine ih (by omega) ((hkept.of_sums _ _).evaluate ⟨by omega, by omega, by omega⟩ (varianceNum_eq (by omega))
        (varDen_eq (by omega))) ?_ ?_
      · exact OtsuScan.evaluate_wB _ _ _ _ _
      · exact OtsuScan.evaluate_sumB _ _ _ _ _

/-- At its end the scan holds the level R146 chooses, or 0 when it evaluated none (R145). -/
theorem Kept.lastMaximum_or_zero {acc : OtsuScan} (h : Kept hist n total 256 acc) :
    lastMaximum hist n total acc.t ∨ (¬ ∃ t, evaluated hist n t) ∧ acc.t = 0 := by
  cases h with
  | nothing hnone => exact .inr ⟨fun ⟨t, ht⟩ => hnone t ht.1 ht, rfl⟩
  | level _ _ hmax => exact .inl hmax.lastMaximum

theorem otsu_lastMaximum_or_zero (hist : Nat → Nat) (n total : Nat) :
    lastMaximum hist n total (otsu .last hist n total) ∨
      (¬ ∃ t, evaluated hist n t) ∧ otsu .last hist n total = 0 := by
  have hstart : Kept hist n total 0 ⟨0, 0, 0, none⟩ := .nothing fun t ht => absurd ht (Nat.not_lt_zero t)
  have hend := (kept_otsuScan 256 rfl hstart rfl rfl).lastMaximum_or_zero
  rwa [← List.range_eq_range'] at hend

theorem otsu_lastMaximum (h : ∃ t, evaluated hist n t) : lastMaximum hist n total (otsu .last hist n total) :=
  (otsu_lastMaximum_or_zero hist n total).resolve_right fun hnone => hnone.1 h

theorem otsu_eq_zero (h : ¬ ∃ t, evaluated hist n t) : otsu .last hist n total = 0 :=
  ((otsu_lastMaximum_or_zero hist n total).resolve_left fun hmax => h ⟨_, hmax.1⟩).2

theorem otsu_lt (hist : Nat → Nat) (n total : Nat) : otsu .last hist n total < 256 := by
  rcases otsu_lastMaximum_or_zero hist n total with hmax | ⟨_, hzero⟩
  · exact hmax.1.1
  · omega

end

end Sys2Proof.Machine
end

