-- ==== Sys2Proof/Proofs/ThresholdCommand.lean ====
section
/-! What THRESHOLD and THRESHOLD.INV leave (R140 to R148): O15, O16, O17, O19, O20. -/

namespace Sys2Proof.Machine

/-- The block after THRESHOLD, or THRESHOLD.INV, on an image (R148). -/
def thresholded (s : State) (inv : Bool) : State :=
  let t := chooseThreshold .last s s.cur.w s.cur.h
  (State.newFrame { labelImage s s.cur.w s.cur.h t inv with threshT := t, threshInv := inv } true).complete 0x2 .ok
    (t.setWidth 32) (BitVec.ofNat 32 (windowSize s.cur.w s.cur.h))

/-! ## Running the command -/

/-- Both forms are one command, told apart by INV (R140). -/
theorem exec_thresholdForm (s : State) (inv : Bool) :
    exec (if inv then .thresholdInv else .threshold) s = .next (thresholdCommand Config.params 0x2 inv s) := by
  cases inv with
  | false => rfl
  | true => rfl

/-- Settles O15: both forms end in the NOT_READY completion. -/
theorem thresholdNeedsImage : Obligations.ThresholdNeedsImage := by
  intro s hsize
  have hsize : s.cur.w = 0 ∨ s.cur.h = 0 := hsize.imp (congrArg BitVec.toNat) (congrArg BitVec.toNat)
  have hexec (inv : Bool) := (exec_thresholdForm s inv).trans
    (congrArg Host.Outcome.next (thresholdCommand_notReady Config.params 0x2 inv s hsize))
  exact ⟨hexec false, hexec true⟩

section
variable {s : State} (hw : s.cur.width ≠ 0) (hh : s.cur.height ≠ 0)
include hw hh

theorem exec_thresholdForm_ready (inv : Bool) :
    exec (if inv then .thresholdInv else .threshold) s = .next (thresholded s inv) := by
  have hw0 : s.cur.w ≠ 0 := fun h => hw (BitVec.eq_of_toNat_eq h)
  have hh0 : s.cur.h ≠ 0 := fun h => hh (BitVec.eq_of_toNat_eq h)
  rw [exec_thresholdForm, thresholdCommand_ready _ _ _ _ hw0 hh0]
  rfl

theorem exec_threshold_ready : exec .threshold s = .next (thresholded s false) := exec_thresholdForm_ready hw hh false

theorem exec_thresholdInv_ready : exec .thresholdInv s = .next (thresholded s true) := exec_thresholdForm_ready hw hh true

end

/-! ## What it leaves -/

@[simp] theorem thresholded_threshT (s : State) (inv : Bool) :
    (thresholded s inv).threshT = chooseThreshold .last s s.cur.w s.cur.h := rfl

@[simp] theorem thresholded_res0 (s : State) (inv : Bool) :
    (thresholded s inv).res0 = (chooseThreshold .last s s.cur.w s.cur.h).setWidth 32 := rfl

theorem readByte_thresholded (s : State) (inv : Bool) (a : Nat) :
    (thresholded s inv).readByte a =
      if labelBase ≤ a ∧ a < labelBase + s.cur.w * s.cur.h then
        classify (s.gray (a - labelBase)) (chooseThreshold .last s s.cur.w s.cur.h) inv
      else s.readByte a :=
  readByte_labelImage s s.cur.w s.cur.h _ inv a

theorem label_thresholded {s : State} {o : Nat} (ho : o < s.cur.w * s.cur.h) (inv : Bool) :
    (thresholded s inv).label o = classify (s.gray o) (chooseThreshold .last s s.cur.w s.cur.h) inv := by
  rw [State.label, readByte_thresholded, if_pos (by omega), Nat.add_sub_cancel_left]

/-- INV swaps black and white (R147). -/
theorem classify_complement (v t : Byte) :
    (classify v t false = 0 ∨ classify v t false = 1) ∧ classify v t true = 1 - classify v t false := by
  by_cases h : v ≤ t
  · have hnot : ¬ t < v := BitVec.not_lt.mpr h
    simp [classify, h, hnot]
  · have hlt : t < v := BitVec.not_le.mp h
    simp [classify, h, hlt]

/-- Settles O16: the labels are `label_thresholded`, and nothing but LABEL cells of the image is written. -/
theorem thresholdLabelsImage : Obligations.ThresholdLabelsImage := by
  intro s inv hw hh
  refine ⟨thresholded s inv, exec_thresholdForm_ready hw hh inv, fun o ho => ?_, fun a ha => ?_, rfl⟩
  · rw [label_thresholded ho]
    rfl
  · rw [readByte_thresholded]
    exact if_neg ha

/-- Settles O17: the two forms choose one threshold, and their labels of a pixel are complements. -/
theorem invertedLabelsComplement : Obligations.InvertedLabelsComplement := by
  intro s hw hh
  refine ⟨_, _, exec_threshold_ready hw hh, exec_thresholdInv_ready hw hh, rfl, fun o ho => ?_⟩
  rw [label_thresholded ho, label_thresholded ho]
  exact classify_complement _ _

/-! ## The threshold it chooses -/

theorem toNat_chooseThreshold (s : State) (w h : Nat) :
    (chooseThreshold .last s w h).toNat =
      otsu .last (histogram (windowPixels s w h)) (windowSize w h) (histTotal (histogram (windowPixels s w h))) := by
  rw [chooseThreshold, BitVec.toNat_ofNat]
  exact Nat.mod_eq_of_lt (otsu_lt _ _ _)

/-- With no level evaluated the threshold is 0 (R145). -/
theorem chooseThreshold_eq_zero {s : State} {w h : Nat}
    (hnone : ¬ ∃ t, Sys2Proof.Claims.evaluated (histogram (windowPixels s w h)) (windowSize w h) t) :
    chooseThreshold .last s w h = 0 := by
  rw [chooseThreshold, otsu_eq_zero hnone]
  rfl

/-- Settles O19: the scan keeps the last maximum (`otsu_lastMaximum`), and T is its level. -/
theorem otsuKeepsLastMaximum : Obligations.OtsuKeepsLastMaximum := by
  refine ⟨fun hist n _ hsome => otsu_lastMaximum hsome, fun s hw hh => ⟨_, _, exec_threshold_ready hw hh,
    exec_thresholdInv_ready hw hh, rfl, fun hsome => ?_, chooseThreshold_eq_zero⟩⟩
  rw [thresholded_threshT, toNat_chooseThreshold]
  exact otsu_lastMaximum hsome

/-- The pixels at or below level t (R144). -/
theorem weight_histogram (pixels : List Byte) (t : Nat) :
    Sys2Proof.Claims.weight (histogram pixels) t = pixels.countP fun p => decide (p.toNat < t + 1) :=
  sum_histogram pixels (t + 1)

/-- Pixels of one value lie all above a level or all at or below it, so no level is evaluated (R145). -/
theorem not_evaluated_of_uniform {pixels : List Byte} {v : Byte} (hv : ∀ p ∈ pixels, p = v) (t : Nat) :
    ¬ Sys2Proof.Claims.evaluated (histogram pixels) pixels.length t := by
  rintro ⟨-, hback, hfore⟩
  rw [weight_histogram] at hback hfore
  by_cases hvt : v.toNat < t + 1
  · have hall : (pixels.countP fun p => decide (p.toNat < t + 1)) = pixels.length :=
      List.countP_eq_length.mpr fun p hp => by rw [hv p hp]; exact decide_eq_true hvt
    omega
  · have hnone : (pixels.countP fun p => decide (p.toNat < t + 1)) = 0 :=
      List.countP_eq_zero.mpr fun p hp => by rw [hv p hp]; exact fun h => hvt (of_decide_eq_true h)
    omega

/-- Settles O20: in a window of one value no level is evaluated. -/
theorem uniformWindowGivesZero : Obligations.UniformWindowGivesZero := by
  intro s v hw hh hgray
  have huniform : ∀ p ∈ windowPixels s s.cur.w s.cur.h, p = v := by
    intro p hp
    rw [windowPixels_eq] at hp
    simp only [List.mem_map, List.mem_filter, decide_eq_true_eq] at hp
    obtain ⟨o, ⟨_, ⟨hleft, hright⟩, hup, hdown⟩, rfl⟩ := hp
    have hpixel : s.gray (o / s.cur.w * s.cur.w + o % s.cur.w) = v := hgray _ _ hleft hright hup hdown
    rwa [Nat.div_add_mod'] at hpixel
  have hzero : chooseThreshold .last s s.cur.w s.cur.h = 0 := by
    refine chooseThreshold_eq_zero fun ⟨t, ht⟩ => ?_
    rw [← length_windowPixels s] at ht
    exact not_evaluated_of_uniform huniform t ht
  refine ⟨_, _, exec_threshold_ready hw hh, exec_thresholdInv_ready hw hh, ?_⟩
  simp [hzero]

end Sys2Proof.Machine
end

