-- ==== Sys2Proof/Proofs/RegionCommands.lean ====
section
/-! What REGION_CODE, FILL and FILL.SPANS answer where they do not fill (R165, R166, R169): O21, O23. REGION_CODE's NEW case
(R167): O22. The turns of a FILL.SPANS that holds a span (R170, R173): O30. -/

namespace Sys2Proof.Machine

/-- The seed lies beyond a side of the image (R166, R169). -/
theorem Cmd.seedInImage_eq_false_iff {c : Cmd} :
    c.seedInImage = false ↔ c.w ≤ c.seedX.toNat ∨ c.h ≤ c.seedY.toNat := by
  rw [Cmd.seedInImage, decide_eq_false_iff_not]
  omega

theorem Cmd.seedInImage_of_not_outside {c : Cmd} (h : ¬ (c.w ≤ c.seedX.toNat ∨ c.h ≤ c.seedY.toNat)) :
    c.seedInImage = true := by
  rwa [← Cmd.seedInImage_eq_false_iff, Bool.not_eq_false] at h

/-! ## REGION_CODE without an allocation -/

/-- With valid labels and the seed beyond the image REGION_CODE answers OUT_OF_RANGE (R166). -/
theorem regionCodeCommand_outside {p : Params} {op : BitVec 4} {s : State} (h : s.labelsValid = true)
    (hi : s.cur.seedInImage = false) :
    regionCodeCommand p op s = State.complete { s with ffOvf := false } op .ok noRegion reasonOutOfRange := by
  unfold regionCodeCommand
  exact (if_neg (by simp [h])).trans (if_pos (by simp [hi]))

/-- Settles O21: each answer is the branch its hypotheses choose. -/
theorem regionCodeWithoutAllocation : Obligations.RegionCodeWithoutAllocation := by
  intro s
  refine ⟨fun hvalid => congrArg Host.Outcome.next (regionCodeCommand_notReady hvalid), fun hvalid => ?_⟩
  intro clear v outside
  have labelled (hin : ¬ outside) := regionCodeCommand_labelled (p := Config.params) (op := Instr.regionCode.opcode) hvalid
    (Cmd.seedInImage_of_not_outside hin) (v := v) rfl
  refine ⟨fun hout => congrArg Host.Outcome.next ?outOfRange, fun hin hregion => congrArg Host.Outcome.next ?existing,
    fun hin hwhite => congrArg Host.Outcome.next ?white, fun hin hblack hfull => congrArg Host.Outcome.next ?tableFull⟩
  case outOfRange => exact regionCodeCommand_outside hvalid (Cmd.seedInImage_eq_false_iff.mpr hout)
  case existing => exact (labelled hin).trans (if_pos hregion)
  case white =>
    have hlow : ¬ 2 ≤ v.toNat := by simp [hwhite]
    exact (labelled hin).trans ((if_neg hlow).trans (if_pos hwhite))
  case tableFull =>
    have hlow : ¬ 2 ≤ v.toNat := by simp [hblack]
    have hnonzero : v ≠ 0 := by simp [hblack]
    exact (labelled hin).trans ((if_neg hlow).trans ((if_neg hnonzero).trans (if_pos hfull)))

/-! ## FILL's checks -/

section
variable {s : State}

/-- CHECK_FILL's first check (R169). -/
theorem fillCheck_notReady (h : s.labelsValid = false) : fillCheck s = some .notReady := by
  simp [fillCheck, h]

/-- With valid labels CHECK_FILL reports BAD_PARAM exactly when one of its other checks fails (R169). -/
theorem fillCheck_badParam (h : s.labelsValid = true)
    (hbad : s.cur.seedInImage = false ∨ s.cur.fromLabel = s.cur.toLabel ∨
      s.label (Sys2Proof.Claims.seedCell s) ≠ s.cur.fromLabel) : fillCheck s = some .badParam := by
  have hcodes : fillCheck s = none ∨ fillCheck s = some .badParam := by
    simp only [fillCheck, h, Bool.not_true, Bool.false_eq_true, if_false]
    split_ifs <;> simp
  refine hcodes.resolve_left fun hnone => ?_
  obtain ⟨_, hin, hne, hlabel⟩ := fillCheck_none hnone
  rcases hbad with hout | hsame | hother
  · simp [hout] at hin
  · exact hne hsame
  · exact hother hlabel

/-- FILL and FILL.SPANS alike end with the failing check's code (R169, R122). -/
theorem exec_fill_error {i : Instr} (hi : i = .fill ∨ i = .fillSpans) {code : StatusCode} (h : fillCheck s = some code) :
    exec i s = .next (Sys2Proof.Claims.completed s 0x4 code 0 0) := by
  rcases hi with rfl | rfl
  · exact congrArg Host.Outcome.next (fillCommand_error h)
  · exact congrArg Host.Outcome.next (fillSpansStart_error h)

end

/-- Settles O23: each clause names the check that fails. -/
theorem fillChecksInOrder : Obligations.FillChecksInOrder := by
  intro s i hi outside
  have badParam (hvalid : s.labelsValid = true) hbad := exec_fill_error hi (fillCheck_badParam hvalid hbad)
  exact ⟨fun hvalid => exec_fill_error hi (fillCheck_notReady hvalid),
    fun hvalid hout => badParam hvalid (.inl (Cmd.seedInImage_eq_false_iff.mpr hout)),
    fun hvalid _ hsame => badParam hvalid (.inr (.inl hsame)),
    fun hvalid _ _ hlabel => badParam hvalid (.inr (.inr hlabel))⟩

/-! ## REGION_CODE's NEW case -/

/-- The fill context of the NEW case: FROM = 1, TO = REGION_NEXT (R165). -/
def newRegionCtx (p : Params) (s : State) : FillCtx := regionCtx p s.cur (s.regionNext.setWidth 8)

/-- The result of the NEW case's flood, before FF_OVF and the entry are set (R165, R167). -/
def regionFlood (p : Params) (s : State) : Fill × Bool :=
  flood (newRegionCtx p s) s.cur.seedX.toNat s.cur.seedY.toNat { s with ffOvf := false, regionNext := s.regionNext + 1 }

/-- In the NEW case REGION_CODE floods from the seed, writes the entry and completes (R165, R167). -/
theorem regionCodeCommand_ready {p : Params} {s : State} (h : Sys2Proof.Claims.newReadyFor p s) (op : BitVec 4) :
    regionCodeCommand p op s =
      (State.setRegion { (regionFlood p s).1.s with ffOvf := (regionFlood p s).2 } (s.regionNext.setWidth 8)
        ⟨s.cur.seedX, s.cur.seedY, BitVec.ofNat 32 (regionFlood p s).1.pixels, 0xFFFF⟩).complete
        op .ok (s.regionNext.setWidth 32) reasonNew := by
  obtain ⟨hvalid, hx, hy, hblack, _, hroom⟩ := h
  exact regionCodeCommand_new hvalid (decide_eq_true ⟨hx, hy⟩) hblack hroom

/-- Settles O22: `Relabels` holds at the end of the flood, and the entry is written last. -/
theorem regionCodeAllocates : Obligations.RegionCodeAllocates := by
  intro s hnew id cells
  have hdone : exec .regionCode s = .next _ :=
    congrArg Host.Outcome.next (regionCodeCommand_ready hnew Instr.regionCode.opcode)
  obtain ⟨_, hx, hy, hblack, hlo, hhi⟩ := hnew
  have hfits := regionCtx_fits Config.params s.cur id
  have hflood : Relabels (newRegionCtx Config.params s) { s with ffOvf := false, regionNext := s.regionNext + 1 }
      (regionFlood Config.params s).1 := .flood hfits (newLabel_ne_one Config.params_legal hlo hhi) hx hy hblack
  have hwithin : WritesWithin (InImage labelBase cells) { s with ffOvf := false, regionNext := s.regionNext + 1 }
      (regionFlood Config.params s).1.s := flood_within hfits hx hy
  have hseed : (regionFlood Config.params s).1.s.label (Sys2Proof.Claims.seedCell s) = id :=
    label_flood_seed (c := newRegionCtx Config.params s) hx _
  have hregions : (regionFlood Config.params s).1.s.regions = s.regions := by rw [hwithin.eq]
  refine ⟨_, hdone, ?entry, fun n hn => ?others, rfl, hseed, fun o _ => hflood.label o, fun a ha => hwithin.readByte ha,
    ?frame⟩
  case entry =>
    have hpixels : (regionFlood Config.params s).1.pixels = relabelled s _ cells := hflood.pixels
    refine (State.region_setRegion _ id id _).trans ((if_pos rfl).trans ?_)
    rw [hpixels]
    rfl
  case others =>
    refine (State.region_setRegion _ id n _).trans ((if_neg hn.symm).trans ?_)
    simp only [State.region, hregions]
  case frame =>
    have heq := hwithin.eq
    generalize regionFlood Config.params s = r at heq
    rw [heq]
    rfl

/-! ## A held span -/

section
variable {s : State} {run : FillRun} {held : Span} (hphase : s.phase = .filling run) (hheld : run.held = some held)
include hphase hheld

/-- The turn of an engine that holds a span pushes it when the FIFO has room (R170). -/
theorem engineStep_held_room (hroom : s.fifo.length < Config.params.spanFifoDepth) :
    engineStep s =
      .next { s with fifo := s.fifo ++ [held], phase := .filling { run with held := none } } := by
  rw [engineStep_filling hphase, fillSpansContinue, hheld]
  exact congrArg Host.Outcome.next ((if_pos hroom).trans (pushSpan_of_room hroom))

/-- While the FIFO is full it waits (R170, R287, log entry 14). -/
theorem engineStep_held_full (hfull : Config.params.spanFifoDepth ≤ s.fifo.length) : engineStep s = .next s := by
  rw [engineStep_filling hphase, fillSpansContinue, hheld]
  exact congrArg Host.Outcome.next (if_neg (Nat.not_lt.mpr hfull))

end

/-- Settles O30: a pop makes room, and does not touch what the engine holds. -/
theorem heldSpanWaitsForPop : Obligations.HeldSpanWaitsForPop := by
  intro s run held hphase hheld
  refine ⟨engineStep_held_room hphase hheld, fun hd tl hfifo hlength => ⟨engineStep_held_full hphase hheld hlength.ge, ?_⟩⟩
  obtain ⟨hpop, _⟩ := spanRegistersPop s
  obtain ⟨_, hspanX⟩ := hpop hd tl hfifo
  have hroom : tl.length < Config.params.spanFifoDepth := by
    rw [← hlength, hfifo]
    exact Nat.lt_succ_self _
  have hpushed := engineStep_held_room (s := { s with readData := hd.right ++ hd.left, fifo := tl }) hphase hheld hroom
  exact ⟨_, hspanX, rfl, rfl, hpushed⟩

end Sys2Proof.Machine
end

