-- ==== Sys2Proof/Proofs/FillComponent.lean ====
section
/-! A flood fill and the 4-connected component of its seed (R161 to R163): it relabels nothing else, O25, and the whole of it
unless it overflows, O26. -/

namespace Sys2Proof.Machine

/-! ## Rows of a component -/

/-- A component that holds a cell of a span of FROM cells holds the whole span (R163). -/
theorem InComponent.span {w h x0 y0 y l r x i : Nat} {lab : Nat → Byte} {v : Byte} (hrow : y < h) (hr : r < w)
    (hspan : ∀ j, l ≤ j → j ≤ r → lab (y * w + j) = v) (hx : l ≤ x ∧ x ≤ r) (hi : l ≤ i ∧ i ≤ r)
    (hin : InComponent w h lab v x0 y0 x y) : InComponent w h lab v x0 y0 i y := by
  induction hd : (i - x) + (x - i) generalizing x with
  | zero =>
    obtain rfl : x = i := by omega
    exact hin
  | succ d ih =>
    rcases Nat.lt_or_ge x i with hlt | hge
    · have hnext := hin.step (x' := x + 1) (.inr ⟨rfl, .inl rfl⟩) (by omega) hrow (hspan _ (by omega) (by omega))
      exact ih (by omega) hnext (by omega)
    · obtain ⟨m, rfl⟩ : ∃ m, x = m + 1 := Nat.exists_eq_add_one_of_ne_zero (by omega)
      have hnext := hin.step (x' := m) (.inr ⟨rfl, .inr rfl⟩) (by omega) hrow (hspan _ (by omega) (by omega))
      exact ih (by omega) hnext (by omega)

/-- The cells of a row that a relabelled span holds (R160). -/
theorem labelAt_relabelSpan {c : FillCtx} (s : State) {y y' l r i : Nat} (hr : r < c.w) (hi : i < c.w) :
    c.labelAt (relabelSpan c s y l r) i y' = if y' = y ∧ l ≤ i ∧ i ≤ r then c.target else c.labelAt s i y' := by
  by_cases hrow : y' = y
  · subst hrow
    refine (label_relabelSpan c s y' l r _).trans (if_congr ?_ rfl rfl)
    omega
  · rw [if_neg fun h => hrow h.1]
    exact labelAt_relabelSpan_of_ne hrow hr hi

/-! ## The cursors of a frame -/

/-- The cell lies above or below the span of the frame, at or past the cursor of its row (R161). -/
def Ahead (c : FillCtx) (g : Frame) (x y : Nat) : Prop :=
  x ≤ g.right.toNat ∧
    ((y + 1 = g.y.toNat ∧ g.up.toNat ≤ x) ∨ (y = g.y.toNat + 1 ∧ y < c.h ∧ g.down.toNat ≤ x))

/-- A FROM cell ahead of a frame's cursors is what the frame has left (R161). -/
theorem Ahead.frameHas {c : FillCtx} {s : State} {g : Frame} {x y : Nat} (h : Ahead c g x y)
    (hfrom : c.labelAt s x y = c.source) : FrameHas c s g x := by
  obtain ⟨hx, ⟨hy, hup⟩ | ⟨rfl, hh, hdown⟩⟩ := h
  · obtain rfl : y = g.y.toNat - 1 := by omega
    exact ⟨hx, .inl ⟨by omega, hup, hfrom⟩⟩
  · exact ⟨hx, .inr ⟨hh, hdown, hfrom⟩⟩

/-- The scan of a row passes only cells that do not hold FROM, and of a missing row none (R161). -/
theorem guardedScan_passed (row : Prop) [Decidable row] (isFrom : Nat → Bool) {start right : Nat} (h : start ≤ right + 1) :
    let r := if row then scanRow isFrom (right + 1 - start) start else (start, false)
    start ≤ r.1 ∧ r.1 ≤ right + 1 ∧ ∀ i, start ≤ i → i < r.1 → isFrom i = false := by
  obtain ⟨hlo, _, hpassed, _, _⟩ := scanRow_spec isFrom (right + 1 - start) start
  dsimp only
  split
  · exact ⟨hlo, scanRow_le h, hpassed⟩
  · exact ⟨le_rfl, h, fun i hi hlt => absurd hlt (Nat.not_lt.mpr hi)⟩

/-- The search for a child moves the cursors on, past cells that do not hold FROM, and nothing else of the frame (R161). -/
theorem nextChild_cursors {c : FillCtx} {s : State} {g : Frame} (hc : c.Fits) (hg : FrameInside c g) :
    (nextChild c s g).1.y = g.y ∧ (nextChild c s g).1.right = g.right ∧
      (g.up.toNat ≤ (nextChild c s g).1.up.toNat ∧
        ∀ i, g.up.toNat ≤ i → i < (nextChild c s g).1.up.toNat → c.labelAt s i (g.y.toNat - 1) ≠ c.source) ∧
      (g.down.toNat ≤ (nextChild c s g).1.down.toNat ∧
        ∀ i, g.down.toNat ≤ i → i < (nextChild c s g).1.down.toNat → c.labelAt s i (g.y.toNat + 1) ≠ c.source) := by
  obtain ⟨_, hright, hup, hdown⟩ := hg
  obtain ⟨hw, _⟩ := hc
  unfold nextChild
  extract_lets y right above below
  obtain ⟨hupLe, hupEnd, hupPassed⟩ : g.up.toNat ≤ above.1 ∧ above.1 ≤ right + 1 ∧
      ∀ i, g.up.toNat ≤ i → i < above.1 → c.isFrom s (y - 1) i = false := guardedScan_passed _ _ hup
  obtain ⟨hdownLe, hdownEnd, hdownPassed⟩ : g.down.toNat ≤ below.1 ∧ below.1 ≤ right + 1 ∧
      ∀ i, g.down.toNat ≤ i → i < below.1 → c.isFrom s (y + 1) i = false := guardedScan_passed _ _ hdown
  simp only [FillCtx.isFrom, beq_eq_false_iff_ne] at hupPassed hdownPassed
  have hupSaved : (BitVec.ofNat 16 above.1).toNat = above.1 := toNat_ofNat_half (by omega)
  have hdownSaved : (BitVec.ofNat 16 below.1).toNat = below.1 := toNat_ofNat_half (by omega)
  split
  · refine ⟨rfl, rfl, ?_, le_rfl, fun i hi hlt => absurd hlt (Nat.not_lt.mpr hi)⟩
    dsimp only
    rw [hupSaved]
    exact ⟨hupLe, hupPassed⟩
  · refine ⟨rfl, rfl, ?_⟩
    dsimp only
    rw [hupSaved, hdownSaved]
    exact ⟨⟨hupLe, hupPassed⟩, hdownLe, hdownPassed⟩

/-- So a FROM cell ahead of a frame stays ahead of it (R161). -/
theorem Ahead.nextChild {c : FillCtx} {s : State} {g : Frame} {x y : Nat} (hc : c.Fits) (hg : FrameInside c g)
    (h : Ahead c g x y) (hfrom : c.labelAt s x y = c.source) : Ahead c (nextChild c s g).1 x y := by
  obtain ⟨hy, hright, ⟨_, hupPassed⟩, _, hdownPassed⟩ := nextChild_cursors (s := s) hc hg
  obtain ⟨hx, ⟨hrow, hup⟩ | ⟨rfl, hh, hdown⟩⟩ := h
  · obtain rfl : y = g.y.toNat - 1 := by omega
    refine ⟨hright ▸ hx, .inl ⟨hy ▸ hrow, ?_⟩⟩
    exact Nat.le_of_not_lt fun hlt => hupPassed x hup hlt hfrom
  · refine ⟨hright ▸ hx, .inr ⟨by rw [hy], hh, ?_⟩⟩
    exact Nat.le_of_not_lt fun hlt => hdownPassed x hdown hlt hfrom

/-! ## The invariant -/

/-- A cell that a fill of `c` from the seed may relabel (R163). -/
abbrev FillCtx.Component (c : FillCtx) (s : State) (x0 y0 : Nat) : Nat → Nat → Prop :=
  InComponent c.w c.h s.label c.source x0 y0

/-- A fill of `c` that began on `s` at the seed (x0, y0) has relabelled cells of the seed's component only, the frames of its
stack stand for such cells, and a FROM cell above or below a relabelled one is still ahead of some frame (R161, R163). -/
structure Spreads (c : FillCtx) (s : State) (x0 y0 : Nat) (f : Fill) : Prop where
  filling : Filling c s f
  stays : ∀ x y, x < c.w → y < c.h → c.labelAt f.s x y ≠ c.labelAt s x y → c.Component s x0 y0 x y
  frames : ∀ g ∈ f.stack, ∀ x, g.up.toNat ≤ x ∨ g.down.toNat ≤ x → x ≤ g.right.toNat → c.Component s x0 y0 x g.y.toNat
  ahead : ∀ x y y', x < c.w → y < c.h → y' < c.h → y' = y + 1 ∨ y = y' + 1 → c.labelAt f.s x y ≠ c.labelAt s x y →
    c.labelAt f.s x y' = c.source → ∃ g ∈ f.stack, Ahead c g x y'

namespace Spreads

variable {c : FillCtx} {s : State} {x0 y0 : Nat} {f : Fill}

/-- Nothing is relabelled before the first line. -/
theorem start (c : FillCtx) (s : State) (x0 y0 : Nat) : Spreads c s x0 y0 (Fill.start s) where
  filling := ⟨Relabels.start c s, by simp [Fill.start, StackInside]⟩
  stays _ _ _ _ h := absurd rfl h
  frames := by simp [Fill.start]
  ahead _ _ _ _ _ _ _ h := absurd rfl h

/-- FILL_LINE from a FROM cell of the component (R160, R161). -/
theorem visitLine (h : Spreads c s x0 y0 f) (hc : c.Fits) (hne : c.source ≠ c.target) {x y : Nat} (hx : x < c.w)
    (hy : y < c.h) (hfrom : c.labelAt f.s x y = c.source) (hin : c.Component s x0 y0 x y) :
    Spreads c s x0 y0 (visitLine c f x y).1 := by
  have hfilling : Filling c s (Machine.visitLine c f x y).1 :=
    ⟨h.filling.relabels.visitLine hne hx hy hfrom, visitLine_stackInside hc h.filling.inside hx hy⟩
  obtain ⟨sp, hspy, hlr, hvisit⟩ := visitLine_eq hc f hx hy
  obtain ⟨hl, hr, hrw⟩ := lineSpan_inside (s := f.s) (y := y) hx
  obtain ⟨hspan, _, _⟩ := lineSpan_maximal hx hfrom
  rw [hlr] at hl hr hrw hspan
  dsimp only at hl hr hrw hspan
  rw [hvisit] at hfilling ⊢
  have inSpan {i : Nat} (hlo : sp.left.toNat ≤ i) (hhi : i ≤ sp.right.toNat) : c.Component s x0 y0 i y :=
    hin.span hy hrw (fun j hj hj' => (h.filling.relabels.unchanged_of_source hne (hspan j hj hj')).1) ⟨hl, hr⟩ ⟨hlo, hhi⟩
  refine ⟨hfilling, fun i j hi hj hchanged => ?stays, fun g hg i hcursor hright => ?frames,
    fun i j j' hi hj hj' hadj hchanged hsource => ?ahead⟩
  case stays =>
    rw [labelAt_relabelSpan f.s hrw hi] at hchanged
    split at hchanged
    · rename_i hcell
      exact hcell.1 ▸ inSpan hcell.2.1 hcell.2.2
    · exact h.stays i j hi hj hchanged
  case frames =>
    rcases List.mem_cons.mp hg with rfl | hg
    · exact hspy ▸ inSpan (or_self_iff.mp hcursor) hright
    · exact h.frames g hg i hcursor hright
  case ahead =>
    dsimp only at hchanged hsource ⊢
    rw [labelAt_relabelSpan f.s hrw hi] at hchanged hsource
    have hkept : c.labelAt f.s i j' = c.source := by
      split at hsource
      · exact absurd hsource.symm hne
      · exact hsource
    split at hchanged
    · rename_i hcell
      obtain ⟨rfl, hlo, hhi⟩ := hcell
      refine ⟨_, List.mem_cons_self, hhi, ?_⟩
      dsimp only
      rw [hspy]
      exact hadj.symm.imp (fun h => ⟨h.symm, hlo⟩) fun h => ⟨h, hj', hlo⟩
    · obtain ⟨g, hg, hahead⟩ := h.ahead i j j' hi hj hj' hadj hchanged hkept
      exact ⟨g, List.mem_cons_of_mem _ hg, hahead⟩

/-- Frames without a child have nothing ahead of them, so they can go (R161). -/
theorem pop (h : Spreads c s x0 y0 f) {popped rest : List Frame} (hstack : f.stack = popped ++ rest)
    (hpopped : ∀ g ∈ popped, (nextChild c f.s g).2 = none) : Spreads c s x0 y0 { f with stack := rest } where
  filling := ⟨h.filling.relabels.withStack rest, fun g hg => h.filling.inside g (by simp [hstack, hg])⟩
  stays := h.stays
  frames g hg := h.frames g (by simp [hstack, hg])
  ahead x y y' hx hy hy' hadj hchanged hfrom := by
    obtain ⟨g, hg, hahead⟩ := h.ahead x y y' hx hy hy' hadj hchanged hfrom
    rw [hstack, List.mem_append] at hg
    rcases hg with hg | hg
    · exact absurd (hahead.frameHas hfrom) (nextChild_scan.2 (hpopped g hg) x)
    · exact ⟨g, hg, hahead⟩

/-- The cursors of the top frame may be saved (R161). -/
theorem saveCursors (h : Spreads c s x0 y0 f) (hc : c.Fits) {g : Frame} {below : List Frame} (hstack : f.stack = g :: below) :
    Spreads c s x0 y0 { f with stack := (nextChild c f.s g).1 :: below } := by
  have hg : FrameInside c g := h.filling.inside g (by simp [hstack])
  obtain ⟨hy, hright, ⟨hup, _⟩, hdown, _⟩ := nextChild_cursors (s := f.s) hc hg
  refine ⟨⟨h.filling.relabels.withStack _, fun g' hg' => ?inside⟩, h.stays, fun g' hg' x hcursor hx => ?frames,
    fun x y y' hx hyh hy' hadj hchanged hfrom => ?ahead⟩
  case inside =>
    rcases List.mem_cons.mp hg' with rfl | hg'
    · exact nextChild_inside hc hg
    · exact h.filling.inside g' (by simp [hstack, hg'])
  case frames =>
    rcases List.mem_cons.mp hg' with rfl | hg'
    · rw [hy]
      exact h.frames g (by simp [hstack]) x (hcursor.imp hup.trans hdown.trans) (hright ▸ hx)
    · exact h.frames g' (by simp [hstack, hg']) x hcursor hx
  case ahead =>
    obtain ⟨g', hg', hahead⟩ := h.ahead x y y' hx hyh hy' hadj hchanged hfrom
    rw [hstack] at hg'
    rcases List.mem_cons.mp hg' with rfl | hg'
    · exact ⟨_, List.mem_cons_self, hahead.nextChild hc hg hfrom⟩
    · exact ⟨g', List.mem_cons_of_mem _ hg', hahead⟩

/-- The child of a frame holds FROM and belongs to the component (R161, R163). -/
theorem child_mem (h : Spreads c s x0 y0 f) (hne : c.source ≠ c.target) {g g' : Frame} (hg : g ∈ f.stack) {x y : Nat}
    (hchild : nextChild c f.s g = (g', some (x, y))) : c.labelAt f.s x y = c.source ∧ c.Component s x0 y0 x y := by
  obtain ⟨hx, hy⟩ := nextChild_some_inside (h.filling.inside g hg) hchild
  obtain ⟨hfrom, _, _, hborder⟩ := nextChild_some hchild
  have hlabel := beq_iff_eq.mp hfrom
  have hsource := (h.filling.relabels.unchanged_of_source hne hlabel).1
  refine ⟨hlabel, ?_⟩
  rcases hborder with ⟨hpos, rfl, hlo, hhi⟩ | ⟨_, rfl, hlo, hhi⟩
  · exact (h.frames g hg x (.inl hlo) (by omega)).step (.inl ⟨rfl, .inr (by omega)⟩) hx hy hsource
  · exact (h.frames g hg x (.inr hlo) (by omega)).step (.inl ⟨rfl, .inl rfl⟩) hx hy hsource

/-- What a turn of the loop finds: nothing is left, or a FROM cell of the component, for which the stack may have no room
(R161, R162). -/
theorem turn (h : Spreads c s x0 y0 f) (hc : c.Fits) (hne : c.source ≠ c.target) :
    (advance c f.s f.stack = .finished ∧ Spreads c s x0 y0 { f with stack := [] }) ∨
    ∃ stack x y, Spreads c s x0 y0 { f with stack := stack } ∧ c.labelAt f.s x y = c.source ∧ c.Component s x0 y0 x y ∧
      (advance c f.s f.stack = .overflow stack ∨ advance c f.s f.stack = .child stack x y) := by
  obtain ⟨hadv, hnone⟩ | ⟨popped, g, g', below, x, y, hstack, hpopped, hchild, hadv⟩ := advance_split c f.s f.stack
  · exact .inl ⟨hadv, h.pop (by simp) hnone⟩
  · have hpop := (h.pop hstack hpopped).saveCursors hc (g := g) rfl
    obtain ⟨hfrom, hin⟩ := h.child_mem hne (by simp [hstack]) hchild
    rw [hchild] at hpop
    refine .inr ⟨g' :: below, x, y, hpop, hfrom, hin, ?_⟩
    rw [hadv]
    split
    · exact .inl rfl
    · exact .inr rfl

/-- A run keeps the invariant; when it overflows a cell of the component still holds FROM, and when it does not the stack is
empty (R161, R162). -/
theorem floodRun (h : Spreads c s x0 y0 f) (hc : c.Fits) (hne : c.source ≠ c.target) {k : Nat} {r : Fill × Bool}
    (hrun : FloodRun c k f r) :
    Spreads c s x0 y0 r.1 ∧ (r.2 = false → r.1.stack = []) ∧
      (r.2 = true → ∃ x y, c.Component s x0 y0 x y ∧ c.labelAt r.1.s x y = c.source) := by
  induction hrun with
  | finished hadv =>
    obtain ⟨_, hdone⟩ | ⟨_, _, _, _, _, _, hother | hother⟩ := h.turn hc hne
    · exact ⟨hdone, fun _ => rfl, fun hovf => absurd hovf Bool.false_ne_true⟩
    · simp [hadv] at hother
    · simp [hadv] at hother
  | overflow hadv =>
    obtain ⟨hother, _⟩ | ⟨stack, x, y, hnext, hfrom, hin, hother | hother⟩ := h.turn hc hne
    · simp [hadv] at hother
    · obtain rfl := Advance.overflow.inj (hadv.symm.trans hother)
      exact ⟨hnext, fun hovf => absurd hovf.symm Bool.false_ne_true, fun _ => ⟨x, y, hin, hfrom⟩⟩
    · simp [hadv] at hother
  | child hadv _ ih =>
    obtain ⟨hother, _⟩ | ⟨stack, x, y, hnext, hfrom, hin, hother | hother⟩ := h.turn hc hne
    · simp [hadv] at hother
    · simp [hadv] at hother
    · obtain ⟨rfl, rfl, rfl⟩ := Advance.child.inj (hadv.symm.trans hother)
      obtain ⟨hx, hy, _, _⟩ := advance_child_inside hc h.filling.inside hadv
      exact ih (hnext.visitLine hc hne hx hy hfrom hin)

/-- With no frame left a relabelled seed has its whole component relabelled: a FROM neighbour in the same row went with its
span, and one above or below would be ahead of a frame (R161, R163). -/
theorem covers (h : Spreads c s x0 y0 f) (hne : c.source ≠ c.target) (hstack : f.stack = []) (hx0 : x0 < c.w) (hy0 : y0 < c.h)
    (hseed : c.labelAt s x0 y0 = c.source) (hseed' : c.labelAt f.s x0 y0 = c.target) {x y : Nat}
    (hin : c.Component s x0 y0 x y) : c.labelAt f.s x y = c.target := by
  have hchanged : x < c.w ∧ y < c.h ∧ c.labelAt f.s x y ≠ c.labelAt s x y := by
    induction hin with
    | seed => exact ⟨hx0, hy0, by rw [hseed, hseed']; exact hne.symm⟩
    | @step x y x' y' _ hadj hx' hy' hsource ih =>
      obtain ⟨hx, hy, hchanged⟩ := ih
      refine ⟨hx', hy', ?_⟩
      rcases hadj with ⟨rfl, hrow⟩ | ⟨rfl, hcolumn⟩
      · intro hkept
        obtain ⟨g, hg, _⟩ := h.ahead x' y y' hx hy hy' hrow hchanged (hkept.trans hsource)
        simp [hstack] at hg
      · have hbeside : Beside c.w (y' * c.w + x) (y' * c.w + x') := by
          have column {i : Nat} (hi : i < c.w) : (y' * c.w + i) % c.w = i := by
            rw [Nat.mul_add_mod', Nat.mod_eq_of_lt hi]
          rw [Beside, column hx, column hx']
          omega
        exact bne_iff_ne.mp (h.filling.relabels.line _ _ hbeside hsource (bne_iff_ne.mpr hchanged))
  obtain ⟨_, _, hchanged⟩ := hchanged
  rcases h.filling.relabels.label (y * c.w + x) with hkept | ⟨_, htarget⟩
  · exact absurd hkept hchanged
  · exact htarget

end Spreads

/-! ## A whole flood -/

/-- The result `r` of a flood of `c` on `s` from the seed (x0, y0), as the component of the seed sees it (R162, R163). -/
structure ComponentFilled (c : FillCtx) (s : State) (x0 y0 : Nat) (r : Fill × Bool) : Prop where
  stays : ∀ x y, x < c.w → y < c.h → c.labelAt r.1.s x y ≠ c.labelAt s x y → c.Component s x0 y0 x y
  covers : r.2 = false → ∀ x y, c.Component s x0 y0 x y → c.labelAt r.1.s x y = c.target
  leaves : r.2 = true → ∃ x y, c.Component s x0 y0 x y ∧ c.labelAt r.1.s x y = c.source

theorem flood_component {c : FillCtx} {s : State} {x y : Nat} (hc : c.Fits) (hne : c.source ≠ c.target) (hx : x < c.w)
    (hy : y < c.h) (hfrom : c.labelAt s x y = c.source) : ComponentFilled c s x y (flood c x y s) := by
  obtain ⟨_, _, hrun⟩ := exists_floodRun_flood hc hne hx hy hfrom
  have hfirst := (Spreads.start c s x y).visitLine hc hne hx hy hfrom .seed
  obtain ⟨hspreads, hempty, hleaves⟩ := hfirst.floodRun hc hne hrun
  exact ⟨hspreads.stays, fun hovf _ _ => hspreads.covers hne (hempty hovf) hx hy hfrom (label_flood_seed hx y), hleaves⟩

/-- FILL's flood (R168). -/
theorem fillFlood_component {s : State} (h : Sys2Proof.Claims.fillReady s) (p : Params) :
    ComponentFilled (fillCtx p s.cur) s s.cur.seedX.toNat s.cur.seedY.toNat (fillFlood p s) := by
  obtain ⟨_, hx, hy, hne, hfrom⟩ := h
  obtain ⟨hstays, hcovers, hleaves⟩ :=
    flood_component (s := { s with ffOvf := false }) (fillCtx_fits p s.cur) hne hx hy hfrom
  exact ⟨hstays, hcovers, hleaves⟩

/-- The flood of REGION_CODE's NEW case (R165). -/
theorem regionFlood_component {p : Params} (hp : p.legal) {s : State} (h : Sys2Proof.Claims.newReadyFor p s) :
    ComponentFilled (newRegionCtx p s) s s.cur.seedX.toNat s.cur.seedY.toNat (regionFlood p s) := by
  obtain ⟨_, hx, hy, hblack, hlo, hhi⟩ := h
  obtain ⟨hstays, hcovers, hleaves⟩ :=
    flood_component (c := newRegionCtx p s) (s := { s with ffOvf := false, regionNext := s.regionNext + 1 })
      (regionCtx_fits p s.cur _) (newLabel_ne_one hp hlo hhi) hx hy hblack
  exact ⟨hstays, hcovers, hleaves⟩

/-- Settles O25: the completion and the region entry leave the labels as the flood did. -/
theorem fillStaysInComponent : Obligations.FillStaysInComponent := by
  intro s
  refine ⟨fun hready => ⟨_, exec_fill_ready hready, (fillFlood_component hready Config.params).stays⟩, fun hnew => ?_⟩
  exact ⟨_, congrArg Host.Outcome.next (regionCodeCommand_ready hnew _),
    (regionFlood_component Config.params_legal hnew).stays⟩

/-- Settles O26: likewise, and FF_OVF is what the flood reports. -/
theorem fillCoversComponent : Obligations.FillCoversComponent := by
  refine ⟨fun p s hp => ⟨fun hready => ?fill, fun hnew => ?regionCode⟩, fun s => ⟨rfl, rfl⟩⟩
  case fill =>
    rw [fillCommand_ok (fillCheck_of_ready hready)]
    exact ⟨(fillFlood_component hready p).covers, (fillFlood_component hready p).leaves⟩
  case regionCode =>
    rw [regionCodeCommand_ready hnew]
    exact ⟨(regionFlood_component hp hnew).covers, (regionFlood_component hp hnew).leaves⟩

end Sys2Proof.Machine
end

