-- ==== Sys2Proof/Proofs/FieldTables.lean ====
section
/-! The field tables (R191, R192, R195): O51. The table product as the product modulo the primitive polynomial (R193): O52,
because both are powers of the product with α. -/

namespace Sys2Proof.Machine

/-! ## The product with α -/

/-- The product with α = 2 (R191, R192): the double, reduced by `poly` where it has degree `bits`. -/
def timesAlpha (bits poly x : Nat) : Nat := if 2 ^ bits ≤ 2 * x then (2 * x) ^^^ poly else 2 * x

@[simp] theorem timesAlpha_zero (bits poly : Nat) : timesAlpha bits poly 0 = 0 :=
  if_neg (Nat.not_le_of_lt (Nat.two_pow_pos bits))

/-- `timesAlpha` as a sum: `poly` is added where the double has the bit of degree `bits`. -/
theorem timesAlpha_eq_xor (poly : Nat) {bits x : Nat} (hx : x < 2 ^ bits) :
    timesAlpha bits poly x = (2 * x) ^^^ (if (2 * x).testBit bits then poly else 0) := by
  have hdouble : 2 * x < 2 ^ (bits + 1) := by rw [Nat.pow_succ]; omega
  unfold timesAlpha
  split
  · next h => rw [Nat.testBit_of_two_pow_le_and_two_pow_add_one_gt h hdouble, if_pos rfl]
  · next h => rw [Nat.testBit_lt_two_pow (Nat.lt_of_not_le h), if_neg Bool.false_ne_true, Nat.xor_zero]

theorem timesAlpha_xor (poly : Nat) {bits x y : Nat} (hx : x < 2 ^ bits) (hy : y < 2 ^ bits) :
    timesAlpha bits poly (x ^^^ y) = timesAlpha bits poly x ^^^ timesAlpha bits poly y := by
  have hdouble : 2 * (x ^^^ y) = 2 * x ^^^ 2 * y := by
    simpa only [Nat.shiftLeft_eq, Nat.pow_one, Nat.mul_comm] using Nat.shiftLeft_xor_distrib (a := x) (b := y) (i := 1)
  have hreduce : ∀ p q : Bool, (if p ^^ q then poly else 0) = (if p then poly else 0) ^^^ (if q then poly else 0) := by
    intro p q
    cases p <;> cases q <;> simp
  rw [timesAlpha_eq_xor poly hx, timesAlpha_eq_xor poly hy, timesAlpha_eq_xor poly (Nat.xor_lt_two_pow hx hy), hdouble,
    Nat.testBit_xor, hreduce]
  ac_rfl

theorem timesAlpha_lt {bits poly x : Nat} (hlo : 2 ^ bits ≤ poly) (hhi : poly < 2 ^ (bits + 1)) (hx : x < 2 ^ bits) :
    timesAlpha bits poly x < 2 ^ bits := by
  have hdouble : 2 * x < 2 ^ (bits + 1) := by rw [Nat.pow_succ]; omega
  unfold timesAlpha
  split
  · next h =>
    have htop : ((2 * x) ^^^ poly).testBit bits = false := by
      rw [Nat.testBit_xor, Nat.testBit_of_two_pow_le_and_two_pow_add_one_gt h hdouble,
        Nat.testBit_of_two_pow_le_and_two_pow_add_one_gt hlo hhi]
      rfl
    by_contra hge
    rw [Nat.testBit_of_two_pow_le_and_two_pow_add_one_gt (Nat.le_of_not_lt hge) (Nat.xor_lt_two_pow hdouble hhi)] at htop
    cases htop
  · omega

/-! ## The product of polynomials -/

/-- One turn of Horner's scheme in `Claims.polyProduct`. -/
def hornerTurn (bits poly a b i acc : Nat) : Nat :=
  if b.testBit i then timesAlpha bits poly acc ^^^ a else timesAlpha bits poly acc

theorem polyProduct_eq_foldr (bits poly a b : Nat) :
    Sys2Proof.Claims.polyProduct bits poly a b = (List.range bits).foldr (hornerTurn bits poly a b) 0 := rfl

section Horner

variable {bits poly a : Nat} (hlo : 2 ^ bits ≤ poly) (hhi : poly < 2 ^ (bits + 1)) (ha : a < 2 ^ bits) (b : Nat)
include hlo hhi ha

theorem horner_lt (l : List Nat) : l.foldr (hornerTurn bits poly a b) 0 < 2 ^ bits := by
  induction l with
  | nil => exact Nat.two_pow_pos bits
  | cons i l ih =>
    rw [List.foldr_cons]
    unfold hornerTurn
    split
    · exact Nat.xor_lt_two_pow (timesAlpha_lt hlo hhi ih) ha
    · exact timesAlpha_lt hlo hhi ih

/-- The product with α passes through Horner's scheme, because it is additive. -/
theorem horner_timesAlpha (l : List Nat) :
    l.foldr (hornerTurn bits poly (timesAlpha bits poly a) b) 0 =
      timesAlpha bits poly (l.foldr (hornerTurn bits poly a b) 0) := by
  induction l with
  | nil => exact (timesAlpha_zero bits poly).symm
  | cons i l ih =>
    rw [List.foldr_cons, List.foldr_cons, ih]
    unfold hornerTurn
    split
    · exact (timesAlpha_xor poly (timesAlpha_lt hlo hhi (horner_lt hlo hhi ha b l)) ha).symm
    · rfl

theorem timesAlpha_iterate_lt (i : Nat) : (timesAlpha bits poly)^[i] a < 2 ^ bits := by
  induction i with
  | zero => exact ha
  | succ i ih => rw [Function.iterate_succ_apply']; exact timesAlpha_lt hlo hhi ih

theorem polyProduct_timesAlpha_iterate (i : Nat) :
    Sys2Proof.Claims.polyProduct bits poly ((timesAlpha bits poly)^[i] a) b =
      (timesAlpha bits poly)^[i] (Sys2Proof.Claims.polyProduct bits poly a b) := by
  induction i with
  | zero => rfl
  | succ i ih =>
    rw [Function.iterate_succ_apply', Function.iterate_succ_apply', ← ih]
    exact horner_timesAlpha hlo hhi (timesAlpha_iterate_lt hlo hhi ha i) b _

end Horner

/-! ## Tables that follow a generator -/

/-- The tables of `F` are those of GF(2)[z] modulo `poly`, of degree `bits`, with generator α (R191, R192, R195). -/
structure FieldTables.Generated (F : FieldTables) (bits poly : Nat) : Prop where
  poly_ge : 2 ^ bits ≤ poly
  poly_lt : poly < 2 ^ (bits + 1)
  order : F.p + 1 = 2 ^ bits
  exp_zero : F.exp 0 = 1
  exp_order : F.exp F.p = 1
  exp_succ : ∀ k, k < F.p → (F.exp (k + 1)).toNat = timesAlpha bits poly (F.exp k).toNat
  exp_log : ∀ v, v ≠ 0 → v.toNat ≤ F.p → F.exp (F.log v) = v
  log_exp : ∀ k, k < F.p → F.log (F.exp k) = k
  log_lt : ∀ v, v ≠ 0 → v.toNat ≤ F.p → F.log v < F.p
  one_product : ∀ b, b ≤ F.p → Sys2Proof.Claims.polyProduct bits poly 1 b = b

section Generated

variable {F : FieldTables} {bits poly : Nat} (h : F.Generated bits poly)
include h

/-- The generator rule around the whole cycle. -/
theorem FieldTables.Generated.exp_mod_succ (hp : 0 < F.p) (k : Nat) :
    (F.exp ((k + 1) % F.p)).toNat = timesAlpha bits poly (F.exp (k % F.p)).toNat := by
  have hk := Nat.mod_lt k hp
  rw [← h.exp_succ _ hk, ← Nat.mod_add_mod]
  rcases Nat.lt_or_ge (k % F.p + 1) F.p with hlt | hge
  · rw [Nat.mod_eq_of_lt hlt]
  · rw [show k % F.p + 1 = F.p by omega, Nat.mod_self, h.exp_zero, h.exp_order]

theorem FieldTables.Generated.exp_mod_add (hp : 0 < F.p) (i j : Nat) :
    (F.exp ((i + j) % F.p)).toNat = (timesAlpha bits poly)^[i] (F.exp (j % F.p)).toNat := by
  induction i with
  | zero => rw [Nat.zero_add]; rfl
  | succ i ih => rw [Function.iterate_succ_apply', ← ih, Nat.add_right_comm, h.exp_mod_succ hp]

variable {a b : Byte} (ha : a ≠ 0) (hb : b ≠ 0) (hap : a.toNat ≤ F.p) (hbp : b.toNat ≤ F.p)

include ha hap in
theorem FieldTables.Generated.toNat_eq_iterate : a.toNat = (timesAlpha bits poly)^[F.log a] 1 := by
  have hlog := h.log_lt a ha hap
  have hexp := h.exp_mod_add (Nat.zero_lt_of_lt hlog) (F.log a) 0
  rwa [Nat.add_zero, Nat.mod_eq_of_lt hlog, h.exp_log a ha hap, Nat.zero_mod, h.exp_zero] at hexp

include ha hb hap hbp

/-- R193: both products are the (LOG a)-fold product of b with α. -/
theorem FieldTables.Generated.toNat_mul :
    (F.mul a b).toNat = Sys2Proof.Claims.polyProduct bits poly a.toNat b.toNat := by
  have hlog := h.log_lt b hb hbp
  have hone : 1 < 2 ^ bits := by have := h.order; omega
  calc (F.mul a b).toNat
      = (timesAlpha bits poly)^[F.log a] b.toNat := by
        unfold FieldTables.mul
        rw [h.exp_mod_add (Nat.zero_lt_of_lt hlog), Nat.mod_eq_of_lt hlog, h.exp_log b hb hbp]
    _ = (timesAlpha bits poly)^[F.log a] (Sys2Proof.Claims.polyProduct bits poly 1 b.toNat) := by
        rw [h.one_product _ hbp]
    _ = Sys2Proof.Claims.polyProduct bits poly ((timesAlpha bits poly)^[F.log a] 1) b.toNat :=
        (polyProduct_timesAlpha_iterate h.poly_ge h.poly_lt hone _ _).symm
    _ = Sys2Proof.Claims.polyProduct bits poly a.toNat b.toNat := by rw [← h.toNat_eq_iterate ha hap]

theorem FieldTables.Generated.div_mul : F.div (F.mul a b) b = a := by
  have hla := h.log_lt a ha hap
  have hlb := h.log_lt b hb hbp
  have hlog : (F.p - F.log b + (F.log a + F.log b) % F.p) % F.p = F.log a := by
    rw [Nat.add_mod_mod, show F.p - F.log b + (F.log a + F.log b) = F.log a + F.p by omega, Nat.add_mod_right,
      Nat.mod_eq_of_lt hla]
  unfold FieldTables.div FieldTables.mul
  rw [h.log_exp _ (Nat.mod_lt _ (Nat.zero_lt_of_lt hla)), hlog, h.exp_log a ha hap]

end Generated

/-! ## GF(256) and GF(16) -/

/-- LOG0 is the entry of the zero element only (R191). -/
theorem log256_of_ne_zero (log0 : Nat) {v : Byte} (hv : v ≠ 0) : log256 log0 v = log256 0 v := by
  rw [log256, log256, if_neg hv, if_neg hv]

theorem exp256_succ : ∀ k, k < 255 → (exp256 (k + 1)).toNat = timesAlpha 8 0x11D (exp256 k).toNat := by decide +kernel

theorem exp256_ne_zero : ∀ k, k ≤ 255 → exp256 k ≠ 0 := by decide +kernel

theorem exp256_log256 (log0 : Nat) {v : Byte} (hv : v ≠ 0) : exp256 (log256 log0 v) = v := by
  have htable : ∀ v : Byte, v ≠ 0 → exp256 (log256 0 v) = v := by decide +kernel
  rw [log256_of_ne_zero log0 hv, htable v hv]

theorem log256_exp256 (log0 : Nat) {k : Nat} (hk : k < 255) : log256 log0 (exp256 k) = k := by
  have htable : ∀ k, k < 255 → log256 0 (exp256 k) = k := by decide +kernel
  rw [log256_of_ne_zero log0 (exp256_ne_zero k (Nat.le_of_lt hk)), htable k hk]

theorem log256_lt (log0 : Nat) {v : Byte} (hv : v ≠ 0) : log256 log0 v < 255 := by
  have htable : ∀ v : Byte, v ≠ 0 → log256 0 v < 255 := by decide +kernel
  rw [log256_of_ne_zero log0 hv]
  exact htable v hv

theorem gf256_generated (log0 : Nat) : (gf256 log0).Generated 8 0x11D where
  poly_ge := by decide
  poly_lt := by decide
  order := rfl
  exp_zero := rfl
  exp_order := rfl
  exp_succ := exp256_succ
  exp_log _ hv _ := exp256_log256 log0 hv
  log_exp _ hk := log256_exp256 log0 hk
  log_lt _ hv _ := log256_lt log0 hv
  one_product := (by decide +kernel : ∀ b, b ≤ 255 → Sys2Proof.Claims.polyProduct 8 0x11D 1 b = b)

theorem exp16_succ : ∀ k, k < 15 → (exp16 (k + 1)).toNat = timesAlpha 4 0x13 (exp16 k).toNat := by decide

theorem exp16_ne_zero : ∀ k, k ≤ 15 → exp16 k ≠ 0 := by decide

theorem exp16_log16 : ∀ v : Byte, v ≠ 0 → v.toNat ≤ 15 → exp16 (log16 v) = v := by decide +kernel

theorem log16_exp16 : ∀ k, k < 15 → log16 (exp16 k) = k := by decide

theorem gf16_generated : gf16.Generated 4 0x13 where
  poly_ge := by decide
  poly_lt := by decide
  order := rfl
  exp_zero := rfl
  exp_order := rfl
  exp_succ := exp16_succ
  exp_log := exp16_log16
  log_exp := log16_exp16
  log_lt := (by decide +kernel : ∀ v : Byte, v ≠ 0 → v.toNat ≤ 15 → log16 v < 15)
  one_product := (by decide : ∀ b, b ≤ 15 → Sys2Proof.Claims.polyProduct 4 0x13 1 b = b)

/-- The generator rules (R191, R192). -/
theorem tablesGenerated : Sys2Proof.Claims.tablesGenerated :=
  ⟨rfl, rfl, fun k hk => exp256_succ k (by omega), fun _ => rfl, rfl, rfl, fun k hk => exp16_succ k (by omega), rfl⟩

/-- Settles O51: the generator rules and the inverse property of both tables. -/
theorem tablesAreGeneratedAndInverse : Obligations.TablesAreGeneratedAndInverse :=
  ⟨tablesGenerated, fun log0 _ hv => exp256_log256 log0 hv, fun log0 _ hk => log256_exp256 log0 (by omega), exp16_log16,
    fun k hk => log16_exp16 k (by omega)⟩

/-- Settles O52: the tables of both fields follow their generator. -/
theorem tableProductIsFieldProduct : Obligations.TableProductIsFieldProduct := by
  intro F bits poly hF a b ha hb hap hbp
  have h : F.Generated bits poly := by
    rcases hF with ⟨rfl, rfl, rfl⟩ | ⟨rfl, rfl, rfl⟩
    · exact gf256_generated _
    · exact gf16_generated
  exact ⟨h.toNat_mul ha hb hap hbp, h.div_mul ha hb hap hbp⟩

end Sys2Proof.Machine
end

