-- ==== Sys2Proof/Proofs/BerlekampMassey.lean ====
section
/-! What every step of Berlekamp–Massey keeps (R199), and the bounds that follow (R200): O53. -/

namespace Sys2Proof.Machine

/-! ## POLY_ADD -/

/-- A nonzero shift leaves the lowest coefficient alone. -/
theorem polyCoef_polyAdd_zero (F : FieldTables) (dst src : Poly) (c : Byte) {shift : Nat} (hshift : 0 < shift) :
    polyCoef (polyAdd F dst src c shift) 0 = polyCoef dst 0 := by
  by_cases hc : c = 0
  · rw [polyAdd, if_pos hc]
  · rw [polyCoef_polyAdd F dst src c shift 0 hc (by decide), if_neg (by omega)]

/-- Where neither the destination nor the shifted source has a coefficient, the sum has none. -/
theorem polyCoef_polyAdd_eq_zero (F : FieldTables) {dst src : Poly} (c : Byte) {shift j : Nat} (hdst : polyCoef dst j = 0)
    (hsrc : shift ≤ j → polyCoef src (j - shift) = 0) : polyCoef (polyAdd F dst src c shift) j = 0 := by
  by_cases hc : c = 0
  · rw [polyAdd, if_pos hc, hdst]
  · rcases Nat.lt_or_ge j maxPoly with hj | hj
    · rw [polyCoef_polyAdd F dst src c shift j hc hj, if_neg fun h => h.2 (hsrc h.1), hdst]
    · rw [polyAdd, if_neg hc, polyCoef_polyTab, if_neg (by omega)]

/-! ## The steps -/

section Step

variable {F : FieldTables} {S : Poly} {st : BmState} {n : Nat}

/-- Without a discrepancy only m grows (R199). -/
theorem bmStep_of_eq_zero (h : bmDiscrepancy F S st n = 0) : bmStep F S st n = { st with m := st.m + 1 } := by
  unfold bmStep
  rw [if_pos h]

/-- A discrepancy that lengthens the register (R199). -/
theorem bmStep_of_lengthens (h : bmDiscrepancy F S st n ≠ 0) (hlen : 2 * st.len ≤ n) :
    bmStep F S st n =
      { c := polyAdd F st.c st.b (F.div (bmDiscrepancy F S st n) st.last) st.m, b := st.c, len := n + 1 - st.len, m := 1,
        last := bmDiscrepancy F S st n } := by
  unfold bmStep
  rw [if_neg h, if_pos hlen]

/-- A discrepancy that does not (R199). -/
theorem bmStep_of_corrects (h : bmDiscrepancy F S st n ≠ 0) (hlen : n < 2 * st.len) :
    bmStep F S st n =
      { st with
        c := polyAdd F st.c st.b (F.div (bmDiscrepancy F S st n) st.last) st.m
        m := st.m + 1 } := by
  unfold bmStep
  rw [if_neg h, if_neg (Nat.not_le_of_lt hlen)]

end Step

/-- BM's registers after `n` steps: the bounds of R200, and the one on B and m that they rest on: x^m·B has degree at most
n + 1 − L. -/
structure BmState.Bounded (st : BmState) (n : Nat) : Prop where
  coef_zero : polyCoef st.c 0 = 1
  len_le : st.len ≤ n
  degree_le : ∀ k, st.len < k → polyCoef st.c k = 0
  m_pos : 0 < st.m
  shifted_le : ∀ k, n + 1 < k + st.m + st.len → polyCoef st.b k = 0

theorem BmState.bounded_start : BmState.start.Bounded 0 where
  coef_zero := rfl
  len_le := Nat.le_refl 0
  degree_le k hk := by rw [BmState.start, polyCoef_polyOne, if_neg (Nat.ne_of_gt hk : k ≠ 0)]
  m_pos := Nat.one_pos
  shifted_le k hk := by
    have hk : 0 + 1 < k + 1 + 0 := hk
    rw [BmState.start, polyCoef_polyOne, if_neg (by omega)]

theorem BmState.Bounded.bmStep {st : BmState} {n : Nat} (h : st.Bounded n) (F : FieldTables) (S : Poly) :
    (bmStep F S st n).Bounded (n + 1) := by
  obtain ⟨hcoef, hlen, hdeg, hm, hshift⟩ := h
  by_cases hd : bmDiscrepancy F S st n = 0
  · rw [bmStep_of_eq_zero hd]
    exact ⟨hcoef, Nat.le_succ_of_le hlen, hdeg, Nat.succ_pos _, fun k hk => hshift k (by simp only at hk; omega)⟩
  have hcoef' := (polyCoef_polyAdd_zero F st.c st.b (F.div (bmDiscrepancy F S st n) st.last) hm).trans hcoef
  have hdeg' : ∀ k, st.len < k → n + 1 - st.len < k →
      polyCoef (polyAdd F st.c st.b (F.div (bmDiscrepancy F S st n) st.last) st.m) k = 0 := fun k hk hk' =>
    polyCoef_polyAdd_eq_zero F _ (hdeg k hk) fun _ => hshift _ (by omega)
  rcases Nat.lt_or_ge n (2 * st.len) with hlong | hshort
  · rw [bmStep_of_corrects hd hlong]
    exact ⟨hcoef', Nat.le_succ_of_le hlen, fun k hk => hdeg' k hk (by simp only at hk; omega), Nat.succ_pos _,
      fun k hk => hshift k (by simp only at hk; omega)⟩
  · rw [bmStep_of_lengthens hd hshort]
    exact ⟨hcoef', Nat.sub_le _ _, fun k hk => hdeg' k (by simp only at hk; omega) hk, Nat.one_pos,
      fun k hk => hdeg k (by simp only at hk; omega)⟩

theorem bm_bounded (F : FieldTables) (S : Poly) (n : Nat) : (bm F S n).Bounded n := by
  induction n with
  | zero => exact BmState.bounded_start
  | succ n ih => rw [bm_succ]; exact ih.bmStep F S

/-! ## No errors -/

/-- While every syndrome is 0 there is no discrepancy, and σ stays 1 (R200). -/
theorem bm_of_zero_syndromes (F : FieldTables) {S : Poly} {n : Nat} (h : ∀ k, k < n → polyCoef S k = 0) :
    (bm F S n).len = 0 ∧ (bm F S n).c = polyOne := by
  induction n with
  | zero => exact ⟨rfl, rfl⟩
  | succ n ih =>
    obtain ⟨hlen, hc⟩ := ih fun k hk => h k (Nat.lt_succ_of_lt hk)
    have hd : bmDiscrepancy F S (bm F S n) n = 0 := by
      rw [bmDiscrepancy, hlen, xorSum_zero, h n (Nat.lt_succ_self n)]
      rfl
    rw [bm_succ, bmStep_of_eq_zero hd]
    exact ⟨hlen, hc⟩

/-- Settles O53, by the bounds that every step keeps. -/
theorem berlekampMasseyBounds : Obligations.BerlekampMasseyBounds := by
  intro F S n _
  have h := bm_bounded F S n
  exact ⟨h.coef_zero, h.len_le, h.degree_le, bm_of_zero_syndromes F⟩

end Sys2Proof.Machine
end

