-- ==== Sys2Proof/Proofs/EccCommands.lean ====
section
/-! What FMT_CORRECT (R220 to R223) and RS_CORRECT (R225 to R230) leave in the block: O54 and O57. -/

namespace Sys2Proof.Machine

/-! ## The ECC arrays -/

/-- SYND, SIGMA and OMEGA of `t` hold the three polynomials (R39 to R41). -/
structure EccArrays (t : State) (S P Q : Poly) : Prop where
  synd : ∀ k, k < 64 → t.synd k = polyCoef S k
  sigma : ∀ k, k < 64 → t.sigma k = polyCoef P k
  omega : ∀ k, k < 64 → t.omega k = polyCoef Q k

/-- Where the buffers lie (R60). -/
theorem bufferLayout :
    syndBase = blockBase + 256 ∧ sigmaBase = syndBase + 64 ∧ omegaBase = sigmaBase + 64 ∧ bufferEnd = omegaBase + 64 :=
  ⟨rfl, rfl, rfl, rfl⟩

theorem eccArrays_writeEccArrays (s : State) (S P Q : Poly) : EccArrays (writeEccArrays s S P Q) S P Q := by
  have hlayout := bufferLayout
  refine ⟨fun k hk => ?synd, fun k hk => ?sigma, fun k hk => ?omega⟩
  case synd => rw [State.synd, readByte_writeEccArrays, if_pos (by omega), Nat.add_sub_cancel_left]
  case sigma =>
    rw [State.sigma, readByte_writeEccArrays, if_neg (by omega), if_pos (by omega), Nat.add_sub_cancel_left]
  case omega =>
    rw [State.omega, readByte_writeEccArrays, if_neg (by omega), if_neg (by omega), if_pos (by omega),
      Nat.add_sub_cancel_left]

theorem readByte_writeEccArrays_outside (s : State) (S P Q : Poly) {a : Nat} (ha : ¬ (syndBase ≤ a ∧ a < bufferEnd)) :
    (writeEccArrays s S P Q).readByte a = s.readByte a := by
  have hlayout := bufferLayout
  rw [readByte_writeEccArrays, if_neg (by omega), if_neg (by omega), if_neg (by omega)]

theorem block_writeEccArrays (s : State) (S P Q : Poly) {k : Nat} (hk : k < 256) :
    (writeEccArrays s S P Q).block k = s.block k := by
  have hlayout := bufferLayout
  exact readByte_writeEccArrays_outside s S P Q (by omega)

/-- A command that changes memory alone and completes: what is left, said of one state `t` (R121). -/
theorem exists_completed {i : Instr} {s u : State} {op : BitVec 4} {code : StatusCode} {r0 r1 : Word}
    (hexec : exec i s = .next (u.complete op code r0 r1)) (hmem : MemOnly s u) :
    ∃ t, exec i s = .next t ∧ (∀ a, t.readByte a = u.readByte a) ∧ t.code = code ∧ t.res0 = r0 ∧ t.res1 = r1 ∧
      t = Sys2Proof.Claims.completed { s with mem := t.mem } op t.code t.res0 t.res1 :=
  ⟨_, hexec, fun a => State.readByte_complete u op code r0 r1 a, rfl, rfl, rfl,
    congrArg (State.complete · op code r0 r1) hmem.1⟩

section Arrays

variable {t : State} {S P Q : Poly} (h : EccArrays t S P Q)
include h

theorem EccArrays.of_readByte_eq {u : State} (hread : ∀ a, syndBase ≤ a → u.readByte a = t.readByte a) :
    EccArrays u S P Q := by
  have hlayout := bufferLayout
  exact ⟨fun k hk => (hread _ (by omega)).trans (h.synd k hk), fun k hk => (hread _ (by omega)).trans (h.sigma k hk),
    fun k hk => (hread _ (by omega)).trans (h.omega k hk)⟩

theorem EccArrays.map_synd {f : Nat → Byte} (hS : S = polyTab f) : (List.range 64).map t.synd = S := by
  subst hS
  refine List.map_congr_left fun k hk => ?_
  rw [h.synd k (List.mem_range.mp hk), polyCoef_polyTab, if_pos (List.mem_range.mp hk)]

end Arrays

/-- The value of a polynomial at a nonzero element, by its coefficients (R197). -/
theorem polyEval_eq_valueAt (F : FieldTables) {P : Poly} {f : Nat → Byte} (hP : ∀ k, k < 64 → f k = polyCoef P k)
    {x : Byte} (hx : x ≠ 0) : polyEval F P x = Sys2Proof.Claims.valueAt F f x := by
  unfold polyEval Sys2Proof.Claims.valueAt
  rw [if_neg hx]
  exact xorSum_congr fun k hk => by rw [hP k hk]

/-! ## The format word -/

/-- Syndrome k of a format word (R221). -/
def fmtSyndrome (u : BitVec 15) (k : Nat) : Byte :=
  xorSum 15 fun j => if u.getLsbD j then exp16 (((k + 1) * j) % 15) else 0

theorem polyCoef_fmtSyndromes_eq (u : BitVec 15) (k : Nat) :
    polyCoef (fmtSyndromes u) k = if k < 6 then fmtSyndrome u k else 0 := polyCoef_fmtSyndromes u k

theorem allZero_fmtSyndromes_iff (u : BitVec 15) :
    allZero (fmtSyndromes u) fmtSynd = true ↔ ∀ k, k < 6 → fmtSyndrome u k = 0 := by
  rw [allZero_iff]
  refine forall₂_congr fun k hk => ?_
  rw [polyCoef_fmtSyndromes_eq, if_pos hk]

/-- One turn of the loop that flips the bits in error (R222). -/
def flipTurn (sigma : Poly) (acc : BitVec 15 × Nat) (i : Nat) : BitVec 15 × Nat :=
  if fmtIsError sigma i then (acc.1 ^^^ (1 <<< i), acc.2 + 1) else acc

theorem getLsbD_xor_one_shiftLeft (v : BitVec 15) {i : Nat} (n : Nat) (hi : i < 15) :
    (v ^^^ (1 <<< n)).getLsbD i = (v.getLsbD i ^^ decide (i = n)) := by
  have hbit : (BitVec.ofNat 15 (1 <<< n)).getLsbD i = decide (i = n) := by
    rw [BitVec.getLsbD_ofNat, decide_eq_true hi, Bool.true_and, Nat.one_shiftLeft, Nat.testBit_two_pow]
    exact decide_eq_decide.mpr eq_comm
  rw [BitVec.getLsbD_xor]
  exact congrArg (v.getLsbD i ^^ ·) hbit

theorem fmtFlip_eq (sigma : Poly) (u : BitVec 15) : fmtFlip sigma u = (List.range 15).foldl (flipTurn sigma) (u, 0) := rfl

/-- After `n` turns the bits in error below `n` are flipped and counted. -/
theorem flipTurns_spec (sigma : Poly) (u : BitVec 15) (n : Nat) :
    let r := (List.range n).foldl (flipTurn sigma) (u, 0)
    (∀ i, i < 15 → r.1.getLsbD i = (u.getLsbD i ^^ (decide (i < n) && fmtIsError sigma i))) ∧
      r.2 = (List.range n).countP (fmtIsError sigma) := by
  induction n with
  | zero => exact ⟨fun i _ => by simp, rfl⟩
  | succ n ih =>
    obtain ⟨hbits, hcount⟩ := ih
    simp only [List.range_succ, List.foldl_append, List.foldl_cons, List.foldl_nil, List.countP_append]
    generalize (List.range n).foldl (flipTurn sigma) (u, 0) = r at hbits hcount ⊢
    unfold flipTurn
    cases herr : fmtIsError sigma n with
    | true =>
      refine ⟨fun i hi => ?_, by simp [hcount, herr]⟩
      rw [if_pos rfl, getLsbD_xor_one_shiftLeft _ _ hi, hbits i hi]
      by_cases hin : i = n
      · subst hin; simp [herr]
      · simp [hin, show i < n + 1 ↔ i < n by omega]
    | false =>
      refine ⟨fun i hi => ?_, by simp [hcount, herr]⟩
      rw [if_neg Bool.false_ne_true, hbits i hi]
      by_cases hin : i = n
      · subst hin; simp [herr]
      · simp [show i < n + 1 ↔ i < n by omega]

/-- The flipped word: exactly the bits in error change, and they are counted (R220, R222). -/
theorem fmtFlip_spec (sigma : Poly) (u : BitVec 15) :
    (∀ i, i < 15 → (fmtFlip sigma u).1.getLsbD i = (u.getLsbD i ^^ fmtIsError sigma i)) ∧
      (fmtFlip sigma u).2 = (List.range 15).countP (fmtIsError sigma) := by
  obtain ⟨hbits, hcount⟩ := flipTurns_spec sigma u 15
  rw [fmtFlip_eq]
  refine ⟨fun i hi => (hbits i hi).trans ?_, hcount⟩
  rw [decide_eq_true hi, Bool.true_and]

/-- The root search of R222 on the coefficients in SIGMA. -/
theorem EccArrays.fmtIsError_eq {t : State} {S P Q : Poly} (h : EccArrays t S P Q) (i : Nat) :
    fmtIsError P i = decide (Sys2Proof.Claims.valueAt gf16 t.sigma (exp16 (15 - i)) = 0) := by
  rw [fmtIsError, polyEval_eq_valueAt gf16 h.sigma (exp16_ne_zero _ (Nat.sub_le _ _)), beq_eq_decide]

/-- FMT_CORRECT on a word without errors (R220). -/
theorem exec_fmtCorrect_clean {s : State} {u : BitVec 15} (hu : u = s.cur.fmtWord)
    (h : allZero (fmtSyndromes u) fmtSynd = true) :
    exec .fmtCorrect s = .next ((writeEccArrays s (fmtSyndromes u) polyOne polyZero).complete 0x5 .ok (u.setWidth 32) 0) := by
  subst hu
  exact congrArg Host.Outcome.next (fmtCommand_clean h)

/-- FMT_CORRECT on a word with errors: BM runs, the roots are flipped, and the new word's syndromes decide (R220, R223). -/
theorem exec_fmtCorrect_errors {s : State} {u : BitVec 15} (hu : u = s.cur.fmtWord)
    (h : allZero (fmtSyndromes u) fmtSynd = false) {r : BmState} (hr : r = bm gf16 (fmtSyndromes u) fmtSynd)
    {v : BitVec 15 × Nat} (hv : v = fmtFlip r.c u) :
    exec .fmtCorrect s = .next
      ((writeEccArrays s (fmtSyndromes u) r.c polyZero).complete 0x5
        (if allZero (fmtSyndromes v.1) fmtSynd then .ok else .formatEcc)
        ((if allZero (fmtSyndromes v.1) fmtSynd then v.1 else u).setWidth 32) (eccResult r.len v.2)) := by
  subst hv hr hu
  refine congrArg Host.Outcome.next ((fmtCommand_errors h).trans ?_)
  split
  · rfl
  · rfl

/-- Settles O54, by the case split on the syndromes: no error, or BM with the flipped word. -/
theorem fmtCorrectResult : Obligations.FmtCorrectResult := by
  intro s u syn
  cases hz : allZero (fmtSyndromes u) fmtSynd with
  | true =>
    obtain ⟨t, hexec, hread, hcode, hres0, hres1, hfields⟩ :=
      exists_completed (exec_fmtCorrect_clean (u := u) rfl hz) (memOnly_writeEccArrays s _ _ _)
    have harrays := (eccArrays_writeEccArrays s (fmtSyndromes u) polyOne polyZero).of_readByte_eq fun a _ => hread a
    refine ⟨t, hexec, fun k hk => ?synd, fun k hk => ?omega, fun _ => ⟨hcode, hres0, hres1, fun k hk => ?sigma⟩,
      fun herr => absurd ((allZero_fmtSyndromes_iff u).mp hz) herr,
      fun a ha => (hread a).trans (readByte_writeEccArrays_outside s _ _ _ ha), hfields⟩
    case synd => exact (harrays.synd k hk).trans (polyCoef_fmtSyndromes_eq u k)
    case omega => exact (harrays.omega k hk).trans (polyCoef_polyZero k)
    case sigma => exact (harrays.sigma k hk).trans (polyCoef_polyOne k)
  | false =>
    obtain ⟨b, hb⟩ : ∃ b, b = bm gf16 (fmtSyndromes u) fmtSynd := ⟨_, rfl⟩
    obtain ⟨v, hv⟩ : ∃ v, v = fmtFlip b.c u := ⟨_, rfl⟩
    obtain ⟨hbits, hcount⟩ := fmtFlip_spec b.c u
    rw [← hv] at hbits hcount
    obtain ⟨t, hexec, hread, hcode, hres0, hres1, hfields⟩ :=
      exists_completed (exec_fmtCorrect_errors (u := u) rfl hz hb hv) (memOnly_writeEccArrays s _ _ _)
    have harrays := (eccArrays_writeEccArrays s (fmtSyndromes u) b.c polyZero).of_readByte_eq fun a _ => hread a
    refine ⟨t, hexec, fun k hk => ?synd, fun k hk => ?omega,
      fun hclean => absurd (hz.symm.trans ((allZero_fmtSyndromes_iff u).mpr hclean)) Bool.false_ne_true,
      fun _ => ?errors, fun a ha => (hread a).trans (readByte_writeEccArrays_outside s _ _ _ ha), hfields⟩
    case synd => exact (harrays.synd k hk).trans (polyCoef_fmtSyndromes_eq u k)
    case omega => exact (harrays.omega k hk).trans (polyCoef_polyZero k)
    case errors =>
      intro r root
      have hr : r = b := (congrArg (bm gf16 · 6) (harrays.map_synd rfl)).trans hb.symm
      have hroot : root = fmtIsError b.c := funext fun i => (harrays.fmtIsError_eq i).symm
      rw [hr, hroot]
      refine ⟨_, hbits, harrays.sigma, hres1.trans (congrArg (eccResult _) hcount), fun hok => ?corrected,
        fun hbad => ?failed⟩
      case corrected =>
        rw [hcode, hres0, if_pos ((allZero_fmtSyndromes_iff _).mpr hok), if_pos ((allZero_fmtSyndromes_iff _).mpr hok)]
        exact ⟨rfl, rfl⟩
      case failed =>
        rw [hcode, hres0, if_neg (mt (allZero_fmtSyndromes_iff _).mp hbad), if_neg (mt (allZero_fmtSyndromes_iff _).mp hbad)]
        exact ⟨rfl, rfl⟩

/-! ## The Reed–Solomon block -/

/-- Syndrome k of the first `bs` bytes of BLOCK (R225). -/
def rsSyndrome (q : State) (bs k : Nat) : Byte :=
  xorSum bs fun j => if q.block (bs - 1 - j) = 0 then 0
    else exp256 ((log256 0 (q.block (bs - 1 - j)) + k * j) % 255)

theorem polyCoef_rsSyndromes_eq (q : State) (bs : Nat) {npar : Nat} (hn : npar ≤ 63) (k : Nat) :
    polyCoef (rsSyndromes (gf256 0) q bs npar) k = if k < npar then rsSyndrome q bs k else 0 :=
  polyCoef_rsSyndromes (gf256 0) q bs npar k (Nat.le_succ_of_le hn)

theorem allZero_rsSyndromes_iff (q : State) (bs : Nat) {npar : Nat} (hn : npar ≤ 63) :
    allZero (rsSyndromes (gf256 0) q bs npar) npar = true ↔ ∀ k, k < npar → rsSyndrome q bs k = 0 := by
  rw [allZero_iff]
  refine forall₂_congr fun k hk => ?_
  rw [polyCoef_rsSyndromes_eq q bs hn, if_pos hk]

theorem rsSyndrome_congr {q t : State} (h : ∀ a, t.readByte a = q.readByte a) (bs k : Nat) :
    rsSyndrome t bs k = rsSyndrome q bs k := by
  have hblock : t.block = q.block := funext fun _ => h _
  unfold rsSyndrome
  rw [hblock]

theorem rsBadParam_eq_false {bs dw : Nat} (hdw : dw < bs) (hn : bs - dw ≤ 63) : rsBadParam bs dw = false :=
  decide_eq_false (by rw [show nparMax = 63 from rfl]; omega)

theorem polyCoef_polyDeriv {P : Poly} {f : Nat → Byte} (hP : ∀ k, k < 64 → f k = polyCoef P k) (k : Nat) (hk : k < 64) :
    Sys2Proof.Claims.derivCoef f k = polyCoef (polyDeriv P) k := by
  rw [polyDeriv, polyCoef_polyTab, if_pos hk, Sys2Proof.Claims.derivCoef]
  split
  · exact hP _ (by omega)
  · rfl

/-- The evaluator's coefficients, from those in SYND and SIGMA (R227). -/
theorem EccArrays.polyCoef_evaluator {t : State} {S P Q : Poly} (h : EccArrays t S P Q) {npar : Nat} (hn : npar ≤ 63)
    {k : Nat} (hk : k < 64) :
    polyCoef (evaluator (gf256 0) S P npar) k = Sys2Proof.Claims.omegaCoef t.synd t.sigma npar k := by
  rw [evaluator, polyCoef_polyTab, if_pos hk, Sys2Proof.Claims.omegaCoef]
  split
  · refine xorSum_congr fun i hi => ?_
    rw [h.sigma i (by omega), h.synd (k - i + 1) (by omega)]
    rfl
  · rfl

/-- The magnitude at α^(−i) by R226 and R228, from the coefficients of σ and ω. -/
def rsMagnitudeAt (sigma omega : Nat → Byte) (i : Nat) : Byte :=
  exp256 ((255 - log256 0 (Sys2Proof.Claims.valueAt (gf256 0) (Sys2Proof.Claims.derivCoef sigma) (exp256 (255 - i))) +
    log256 0 (Sys2Proof.Claims.valueAt (gf256 0) omega (exp256 (255 - i)))) % 255)

/-- α^(−i) is a root of σ (R228). -/
def rsIsRoot (sigma : Nat → Byte) (i : Nat) : Bool :=
  decide (Sys2Proof.Claims.valueAt (gf256 0) sigma (exp256 (255 - i)) = 0)

theorem EccArrays.rsMagnitude_eq {t : State} {S P Q : Poly} (h : EccArrays t S P Q) (i : Nat) :
    rsMagnitude (gf256 0) P (polyDeriv P) Q i =
      if rsIsRoot t.sigma i then some (rsMagnitudeAt t.sigma t.omega i) else none := by
  have hx : exp256 (255 - i) ≠ 0 := exp256_ne_zero _ (Nat.sub_le _ _)
  have hsigma := polyEval_eq_valueAt (gf256 0) h.sigma hx
  have homega := polyEval_eq_valueAt (gf256 0) h.omega hx
  have hderiv := polyEval_eq_valueAt (gf256 0) (polyCoef_polyDeriv h.sigma) hx
  unfold rsMagnitude
  simp only [show (gf256 0).exp = exp256 from rfl, hsigma, homega, hderiv, rsIsRoot, decide_eq_true_iff]
  rfl

/-- RS_CORRECT on a block without errors (R224, R230); LOG0 is 0 on this hardware. -/
theorem exec_rsCorrect_clean {s : State} {bs npar : Nat} (hbs : bs = s.cur.blockSize) (hnpar : npar = bs - s.cur.dataWords)
    (hparam : rsBadParam bs s.cur.dataWords = false) {S : Poly} (hS : S = rsSyndromes (gf256 0) s bs npar)
    (hz : allZero S npar = true) :
    exec .rsCorrect s = .next ((writeEccArrays s S polyOne polyZero).complete 0x6 .ok 0 0) := by
  subst hS hnpar hbs
  exact congrArg Host.Outcome.next (rsCommand_clean (p := Config.params) hparam hz)

/-- RS_CORRECT on a block with errors (R224, R229, R230). -/
theorem exec_rsCorrect_errors {s : State} {bs npar : Nat} (hbs : bs = s.cur.blockSize) (hnpar : npar = bs - s.cur.dataWords)
    (hparam : rsBadParam bs s.cur.dataWords = false) {S : Poly} (hS : S = rsSyndromes (gf256 0) s bs npar)
    (hz : allZero S npar = false) {r : BmState} (hr : r = bm (gf256 0) S npar) {Q : Poly}
    (hQ : Q = evaluator (gf256 0) S r.c npar) {q : State × Nat}
    (hq : q = rsCorrectBlock (gf256 0) r.c (polyDeriv r.c) Q bs (writeEccArrays s S r.c Q)) :
    exec .rsCorrect s = .next (q.1.complete 0x6
      (if allZero (rsSyndromes (gf256 0) q.1 bs npar) npar then .ok else .dataEcc) 0 (eccResult r.len q.2)) := by
  subst hQ hbs
  exact congrArg Host.Outcome.next (rsCommand_errors (p := Config.params) hparam hnpar hS hz hr hq)

/-- Settles O57, likewise: no error, or BM with what CORRECT does to the block. -/
theorem rsCorrectResult : Obligations.RsCorrectResult := by
  intro s F bs dw npar syn _ hdw hn
  have hlayout := bufferLayout
  have hparam : rsBadParam bs dw = false := rsBadParam_eq_false hdw hn
  have hbs256 : bs < 256 := (s.cur.arg0.extractLsb' 0 8).isLt
  obtain ⟨S, hS⟩ : ∃ S, S = rsSyndromes F s bs npar := ⟨_, rfl⟩
  have hclean : allZero S npar = true ↔ ∀ k, k < npar → syn s k = 0 := hS ▸ allZero_rsSyndromes_iff s bs hn
  have hsynd : ∀ k, polyCoef S k = if k < npar then syn s k else 0 := hS ▸ polyCoef_rsSyndromes_eq s bs hn
  cases hz : allZero S npar with
  | true =>
    obtain ⟨t, hexec, hread, hcode, hres0, hres1, hfields⟩ :=
      exists_completed (exec_rsCorrect_clean (bs := bs) (npar := npar) rfl rfl hparam hS hz) (memOnly_writeEccArrays s _ _ _)
    have harrays := (eccArrays_writeEccArrays s S polyOne polyZero).of_readByte_eq fun a _ => hread a
    refine ⟨t, hexec, fun k hk => (harrays.synd k hk).trans (hsynd k),
      fun _ => ⟨hcode, hres1, fun k => ?block, fun k hk => ?sigma, fun k hk => ?omega⟩,
      fun herr => absurd (hclean.mp hz) herr,
      fun a _ ha => (hread a).trans (readByte_writeEccArrays_outside s _ _ _ ha), by rwa [hres0] at hfields⟩
    case block =>
      exact (Nat.lt_or_ge k 256).imp_left fun hk => (hread _).trans (block_writeEccArrays s S polyOne polyZero hk)
    case sigma => exact (harrays.sigma k hk).trans (polyCoef_polyOne k)
    case omega => exact (harrays.omega k hk).trans (polyCoef_polyZero k)
  | false =>
    obtain ⟨b, hb⟩ : ∃ b, b = bm F S npar := ⟨_, rfl⟩
    obtain ⟨Q, hQ⟩ : ∃ Q, Q = evaluator F S b.c npar := ⟨_, rfl⟩
    obtain ⟨q, hq⟩ : ∃ q, q = rsCorrectBlock F b.c (polyDeriv b.c) Q bs (writeEccArrays s S b.c Q) := ⟨_, rfl⟩
    obtain ⟨hmem, hkept, hblock, hcount⟩ := rsCorrectBlock_spec F b.c (polyDeriv b.c) Q bs (writeEccArrays s S b.c Q)
    rw [← hq] at hmem hkept hblock hcount
    obtain ⟨t, hexec, hread, hcode, hres0, hres1, hfields⟩ :=
      exists_completed (exec_rsCorrect_errors (bs := bs) (npar := npar) rfl rfl hparam hS hz hb hQ hq)
        ((memOnly_writeEccArrays s S b.c Q).trans hmem)
    have harrays : EccArrays t S b.c Q := (eccArrays_writeEccArrays s S b.c Q).of_readByte_eq fun a ha =>
      (hread a).trans (hkept a (by omega))
    refine ⟨t, hexec, fun k hk => (harrays.synd k hk).trans (hsynd k),
      fun hzero => absurd (hz.symm.trans (hclean.mpr hzero)) Bool.false_ne_true, fun _ => ?errors, fun a hin hout => ?frame,
      by rwa [hres0] at hfields⟩
    case frame => exact (hread a).trans ((hkept a (by omega)).trans (readByte_writeEccArrays_outside s S b.c Q hout))
    case errors =>
      intro r x root magnitude
      have hr : r = b := (congrArg (bm F · npar) (harrays.map_synd hS)).trans hb.symm
      have hmagnitude : ∀ i, rsMagnitude F b.c (polyDeriv b.c) Q i = if root i then some (magnitude i) else none :=
        harrays.rsMagnitude_eq
      have hleft : allZero (rsSyndromes F q.1 bs npar) npar = true ↔ ∀ k, k < npar → syn t k = 0 :=
        (allZero_rsSyndromes_iff q.1 bs hn).trans
          (forall₂_congr fun k _ => Eq.congr_left (rsSyndrome_congr hread bs k).symm)
      rw [hr]
      refine ⟨fun k hk => ⟨harrays.sigma k hk, (harrays.omega k hk).trans (hQ ▸ harrays.polyCoef_evaluator hn hk)⟩,
        fun i hi => ?block, hres1.trans (congrArg (eccResult _) (hcount.trans ?count)),
        fun hok => hcode.trans (if_pos (hleft.mpr hok)), fun hbad => hcode.trans (if_neg (mt hleft.mp hbad))⟩
      case block =>
        refine (hread _).trans ((hblock i hi).trans ?_)
        rw [block_writeEccArrays s S b.c Q (by omega), hmagnitude i]
        split
        · rfl
        · exact BitVec.xor_zero
      case count =>
        rw [List.countP_eq_length_filter]
        refine congrArg List.length (List.filter_congr fun i _ => ?_)
        rw [hmagnitude i]
        cases root i <;> rfl

end Sys2Proof.Machine
end

