-- ==== Sys2Proof/Proofs/FieldModel.lean ====
section
/-! The bytes up to p with exclusive or and the table product, guarded for zero, are a field, and the unguarded tables compute in
it (R190, R193). The error-correction proofs reason in this field. -/

namespace Sys2Proof.Machine

/-! ## The guarded product and inverse on bytes -/

/-- The product of two elements, zero among them. -/
def FieldTables.product (F : FieldTables) (a b : Byte) : Byte := if a = 0 ∨ b = 0 then 0 else F.mul a b

/-- The inverse of an element, 0 for the zero element. -/
def FieldTables.inverse (F : FieldTables) (a : Byte) : Byte := if a = 0 then 0 else F.exp ((F.p - F.log a) % F.p)

theorem FieldTables.product_zero (F : FieldTables) (a : Byte) : F.product a 0 = 0 := if_pos (.inr rfl)

theorem FieldTables.zero_product (F : FieldTables) (b : Byte) : F.product 0 b = 0 := if_pos (.inl rfl)

theorem FieldTables.product_of_ne_zero (F : FieldTables) {a b : Byte} (ha : a ≠ 0) (hb : b ≠ 0) :
    F.product a b = F.exp ((F.log a + F.log b) % F.p) := if_neg (not_or.mpr ⟨ha, hb⟩)

theorem FieldTables.product_comm (F : FieldTables) (a b : Byte) : F.product a b = F.product b a := by
  unfold FieldTables.product FieldTables.mul
  simp only [or_comm, Nat.add_comm]

theorem FieldTables.inverse_zero (F : FieldTables) : F.inverse 0 = 0 := if_pos rfl

theorem timesAlpha_iterate_zero (bits poly i : Nat) : (timesAlpha bits poly)^[i] 0 = 0 :=
  Function.iterate_fixed (timesAlpha_zero bits poly) i

theorem timesAlpha_iterate_xor {bits poly x y : Nat} (hlo : 2 ^ bits ≤ poly) (hhi : poly < 2 ^ (bits + 1)) (hx : x < 2 ^ bits)
    (hy : y < 2 ^ bits) (i : Nat) :
    (timesAlpha bits poly)^[i] (x ^^^ y) = (timesAlpha bits poly)^[i] x ^^^ (timesAlpha bits poly)^[i] y := by
  induction i with
  | zero => rfl
  | succ i ih =>
    rw [Function.iterate_succ_apply', Function.iterate_succ_apply', Function.iterate_succ_apply', ih,
      timesAlpha_xor poly (timesAlpha_iterate_lt hlo hhi hx i) (timesAlpha_iterate_lt hlo hhi hy i)]

section Generated

variable {F : FieldTables} {bits poly : Nat} (h : F.Generated bits poly) (hp : 0 < F.p)
include h

theorem FieldTables.Generated.le_iff (a : Byte) : a.toNat ≤ F.p ↔ a.toNat < 2 ^ bits := by
  rw [← h.order, Nat.lt_succ_iff]

theorem FieldTables.Generated.xor_le {a b : Byte} (ha : a.toNat ≤ F.p) (hb : b.toNat ≤ F.p) : (a ^^^ b).toNat ≤ F.p := by
  rw [h.le_iff] at *
  rw [BitVec.toNat_xor]
  exact Nat.xor_lt_two_pow ha hb

include hp

theorem FieldTables.Generated.exp_mod_le (k : Nat) : (F.exp (k % F.p)).toNat ≤ F.p := by
  have hone : 1 < 2 ^ bits := by rw [← h.order]; omega
  have hexp := h.exp_mod_add hp k 0
  rw [Nat.zero_mod, h.exp_zero, Nat.add_zero] at hexp
  rw [h.le_iff, hexp]
  exact timesAlpha_iterate_lt h.poly_ge h.poly_lt hone k

/-- Otherwise every later power would be 0, and α^p is 1. -/
theorem FieldTables.Generated.exp_mod_ne_zero (k : Nat) : F.exp (k % F.p) ≠ 0 := by
  intro hzero
  have hk := Nat.mod_lt k hp
  have hexp := h.exp_mod_add hp (F.p - k % F.p) (k % F.p)
  rw [Nat.sub_add_cancel (Nat.le_of_lt hk), Nat.mod_self, Nat.mod_mod, hzero, h.exp_zero] at hexp
  exact absurd (hexp.trans (timesAlpha_iterate_zero bits poly _)) (by decide)

theorem FieldTables.Generated.log_one : F.log 1 = 0 := by rw [← h.exp_zero, h.log_exp 0 hp]

theorem FieldTables.Generated.product_le (a b : Byte) : (F.product a b).toNat ≤ F.p := by
  unfold FieldTables.product
  split
  · exact Nat.zero_le _
  · exact h.exp_mod_le hp _

theorem FieldTables.Generated.inverse_le (a : Byte) : (F.inverse a).toNat ≤ F.p := by
  unfold FieldTables.inverse
  split
  · exact Nat.zero_le _
  · exact h.exp_mod_le hp _

variable {a b c : Byte} (ha : a.toNat ≤ F.p) (hb : b.toNat ≤ F.p) (hc : c.toNat ≤ F.p)

include hb in
/-- The product with a is the (LOG a)-fold product with α. -/
theorem FieldTables.Generated.toNat_product_of_ne_zero (ha0 : a ≠ 0) :
    (F.product a b).toNat = (timesAlpha bits poly)^[F.log a] b.toNat := by
  by_cases hb0 : b = 0
  · subst hb0
    rw [F.product_zero]
    exact (timesAlpha_iterate_zero bits poly _).symm
  · rw [F.product_of_ne_zero ha0 hb0, h.exp_mod_add hp, Nat.mod_eq_of_lt (h.log_lt b hb0 hb), h.exp_log b hb0 hb]

include hb hc in
theorem FieldTables.Generated.product_xor : F.product a (b ^^^ c) = F.product a b ^^^ F.product a c := by
  by_cases ha0 : a = 0
  · subst ha0
    rw [F.zero_product, F.zero_product, F.zero_product]
    rfl
  · apply BitVec.eq_of_toNat_eq
    rw [BitVec.toNat_xor, h.toNat_product_of_ne_zero hp (h.xor_le hb hc) ha0, h.toNat_product_of_ne_zero hp hb ha0,
      h.toNat_product_of_ne_zero hp hc ha0, BitVec.toNat_xor]
    exact timesAlpha_iterate_xor h.poly_ge h.poly_lt ((h.le_iff b).mp hb) ((h.le_iff c).mp hc) _

theorem FieldTables.Generated.product_assoc : F.product (F.product a b) c = F.product a (F.product b c) := by
  by_cases ha0 : a = 0
  · rw [ha0, F.zero_product, F.zero_product, F.zero_product]
  by_cases hb0 : b = 0
  · rw [hb0, F.product_zero, F.zero_product, F.product_zero]
  by_cases hc0 : c = 0
  · rw [hc0, F.product_zero, F.product_zero, F.product_zero]
  rw [F.product_of_ne_zero ha0 hb0, F.product_of_ne_zero hb0 hc0, F.product_of_ne_zero (h.exp_mod_ne_zero hp _) hc0,
    F.product_of_ne_zero ha0 (h.exp_mod_ne_zero hp _), h.log_exp _ (Nat.mod_lt _ hp), h.log_exp _ (Nat.mod_lt _ hp),
    Nat.mod_add_mod, Nat.add_mod_mod, Nat.add_assoc]

include ha in
theorem FieldTables.Generated.product_one_left : F.product 1 a = a := by
  by_cases ha0 : a = 0
  · rw [ha0, F.product_zero]
  · rw [F.product_of_ne_zero (by decide) ha0, h.log_one hp, Nat.zero_add, Nat.mod_eq_of_lt (h.log_lt a ha0 ha),
      h.exp_log a ha0 ha]

include ha in
theorem FieldTables.Generated.product_inverse (ha0 : a ≠ 0) : F.product a (F.inverse a) = 1 := by
  rw [FieldTables.inverse, if_neg ha0, F.product_of_ne_zero ha0 (h.exp_mod_ne_zero hp _), h.log_exp _ (Nat.mod_lt _ hp),
    Nat.add_mod_mod, Nat.add_sub_cancel' (Nat.le_of_lt (h.log_lt a ha0 ha)), Nat.mod_self, h.exp_zero]

end Generated

/-! ## The field -/

/-- An element of the field: a byte up to p (R190). -/
abbrev FieldTables.Element (F : FieldTables) : Type := {v : Byte // v.toNat ≤ F.p}

/-- The field of R190 to R193. -/
abbrev FieldTables.Generated.field {F : FieldTables} {bits poly : Nat} (h : F.Generated bits poly) (hp : 0 < F.p) :
    Field F.Element :=
  @Field.ofMinimalAxioms F.Element ⟨fun a b => ⟨a.1 ^^^ b.1, h.xor_le a.2 b.2⟩⟩
    ⟨fun a b => ⟨F.product a.1 b.1, h.product_le hp _ _⟩⟩ ⟨id⟩ ⟨fun a => ⟨F.inverse a.1, h.inverse_le hp _⟩⟩
    ⟨⟨0, Nat.zero_le _⟩⟩ ⟨⟨1, hp⟩⟩
    (add_assoc := fun _ _ _ => Subtype.ext (BitVec.xor_assoc _ _ _))
    (zero_add := fun _ => Subtype.ext BitVec.zero_xor)
    (neg_add_cancel := fun _ => Subtype.ext BitVec.xor_self)
    (mul_assoc := fun _ _ _ => Subtype.ext (h.product_assoc hp))
    (mul_comm := fun _ _ => Subtype.ext (F.product_comm _ _))
    (one_mul := fun a => Subtype.ext (h.product_one_left hp a.2))
    (mul_inv_cancel := fun a ha => Subtype.ext (h.product_inverse hp a.2 fun h0 => ha (Subtype.ext h0)))
    (inv_zero := Subtype.ext F.inverse_zero)
    (left_distrib := fun _ b c => Subtype.ext (h.product_xor hp b.2 c.2))
    (exists_pair_ne := ⟨⟨0, Nat.zero_le _⟩, ⟨1, hp⟩, fun h01 => absurd (congrArg Subtype.val h01) (by decide : (0 : Byte) ≠ 1)⟩)

/-- α, the generator of the nonzero elements (R191, R192). -/
def FieldTables.Generated.generator {F : FieldTables} {bits poly : Nat} (h : F.Generated bits poly) (hp : 0 < F.p) :
    F.Element := ⟨F.exp (1 % F.p), h.exp_mod_le hp 1⟩

theorem FieldTables.Generated.generator_pow {F : FieldTables} {bits poly : Nat} (h : F.Generated bits poly) (hp : 1 < F.p)
    (k : Nat) : letI := h.field (Nat.zero_lt_of_lt hp); (h.generator (Nat.zero_lt_of_lt hp) ^ k).1 = F.exp (k % F.p) := by
  have hp0 := Nat.zero_lt_of_lt hp
  have hlog : F.log (F.exp (1 % F.p)) = 1 := by rw [h.log_exp _ (Nat.mod_lt _ hp0), Nat.mod_eq_of_lt hp]
  let _ := h.field hp0
  induction k with
  | zero => rw [pow_zero, Nat.zero_mod, h.exp_zero]; rfl
  | succ k ih =>
    rw [pow_succ]
    refine (congrArg (F.product · (F.exp (1 % F.p))) ih).trans ?_
    rw [F.product_of_ne_zero (h.exp_mod_ne_zero hp0 k) (h.exp_mod_ne_zero hp0 1), hlog, h.log_exp _ (Nat.mod_lt _ hp0),
      Nat.mod_add_mod]

/-- The tables of `F` compute in the field `K`: `val` writes an element as a byte, and α generates the nonzero elements. -/
structure FieldTables.Encodes (F : FieldTables) {K : Type} [Field K] (val : K → Byte) (α : K) : Prop where
  order_pos : 0 < F.p
  val_injective : Function.Injective val
  exists_val : ∀ v, v.toNat ≤ F.p → ∃ x, val x = v
  val_add : ∀ x y, val (x + y) = val x ^^^ val y
  val_one : val 1 = 1
  exp_order : F.exp F.p = 1
  exp_mod : ∀ k, F.exp (k % F.p) = val (α ^ k)
  pow_log : ∀ x, x ≠ 0 → α ^ F.log (val x) = x
  log_lt : ∀ x, x ≠ 0 → F.log (val x) < F.p
  log_exp : ∀ k, k < F.p → F.log (F.exp k) = k

theorem FieldTables.Generated.exists_encodes {F : FieldTables} {bits poly : Nat} (h : F.Generated bits poly) (hp : 1 < F.p) :
    ∃ (K : Type) (_ : Field K) (val : K → Byte) (α : K), F.Encodes val α := by
  have hp0 := Nat.zero_lt_of_lt hp
  let _ := h.field hp0
  have hne : ∀ x : F.Element, x ≠ 0 → x.1 ≠ 0 := fun x hx h0 => hx (Subtype.ext h0)
  exact ⟨F.Element, h.field hp0, Subtype.val, h.generator hp0, {
    order_pos := hp0
    val_injective := Subtype.val_injective
    exists_val := fun v hv => ⟨⟨v, hv⟩, rfl⟩
    val_add := fun _ _ => rfl
    val_one := rfl
    exp_order := h.exp_order
    exp_mod := fun k => (h.generator_pow hp k).symm
    pow_log := fun x hx => Subtype.ext ((h.generator_pow hp _).trans (by
      rw [Nat.mod_eq_of_lt (h.log_lt x.1 (hne x hx) x.2), h.exp_log x.1 (hne x hx) x.2]))
    log_lt := fun x hx => h.log_lt x.1 (hne x hx) x.2
    log_exp := h.log_exp }⟩

/-! ## The tables in the field -/

section Encodes

variable {F : FieldTables} {K : Type} [Field K] {val : K → Byte} {α : K} (h : F.Encodes val α)
include h

theorem FieldTables.Encodes.val_zero : val 0 = 0 := by
  have hadd := h.val_add 0 0
  rwa [add_zero, BitVec.xor_self] at hadd

theorem FieldTables.Encodes.val_eq_zero_iff {x : K} : val x = 0 ↔ x = 0 := by
  rw [← h.val_zero, h.val_injective.eq_iff]

theorem FieldTables.Encodes.add_self (x : K) : x + x = 0 :=
  h.val_eq_zero_iff.mp ((h.val_add x x).trans BitVec.xor_self)

theorem FieldTables.Encodes.pow_mod (k : Nat) : α ^ (k % F.p) = α ^ k :=
  h.val_injective (by rw [← h.exp_mod, ← h.exp_mod, Nat.mod_mod])

theorem FieldTables.Encodes.pow_order : α ^ F.p = 1 := by rw [← h.pow_mod, Nat.mod_self, pow_zero]

theorem FieldTables.Encodes.generator_ne_zero : α ≠ 0 := fun h0 =>
  zero_ne_one ((zero_pow h.order_pos.ne').symm.trans (h0 ▸ h.pow_order))

theorem FieldTables.Encodes.pow_injOn : Set.InjOn (fun i => α ^ i) {i | i < F.p} := by
  intro i hi j hj hij
  have hexp : F.exp i = F.exp j := by
    rw [← Nat.mod_eq_of_lt hi, ← Nat.mod_eq_of_lt hj, h.exp_mod, h.exp_mod]
    exact congrArg val hij
  rw [← h.log_exp i hi, hexp, h.log_exp j hj]

/-- The element at which the locator is evaluated for codeword index i (R222, R228). -/
theorem FieldTables.Encodes.exp_sub {i : Nat} (hi : i ≤ F.p) : F.exp (F.p - i) = val (α ^ i)⁻¹ := by
  have hinv : α ^ (F.p - i) = (α ^ i)⁻¹ := by
    rw [pow_sub₀ _ h.generator_ne_zero hi, h.pow_order, one_mul]
  rw [← hinv, ← h.exp_mod]
  rcases Nat.eq_zero_or_pos i with rfl | hpos
  · rw [Nat.sub_zero, Nat.mod_self, h.exp_order, ← Nat.zero_mod F.p, h.exp_mod, pow_zero, h.val_one]
  · rw [Nat.mod_eq_of_lt (by omega)]

theorem FieldTables.Encodes.exp_log_mul_pow {x y : K} (hx : x ≠ 0) (hy : y ≠ 0) (i : Nat) :
    F.exp ((F.log (val x) + F.log (val y) * i) % F.p) = val (x * y ^ i) := by
  rw [h.exp_mod, pow_add, pow_mul, h.pow_log x hx, h.pow_log y hy]

theorem FieldTables.Encodes.mul_val {x y : K} (hx : x ≠ 0) (hy : y ≠ 0) : F.mul (val x) (val y) = val (x * y) := by
  rw [FieldTables.mul, h.exp_mod, pow_add, h.pow_log x hx, h.pow_log y hy]

theorem FieldTables.Encodes.div_val {x y : K} (hx : x ≠ 0) (hy : y ≠ 0) : F.div (val x) (val y) = val (x / y) := by
  rw [FieldTables.div, h.exp_mod, pow_add, pow_sub₀ _ h.generator_ne_zero (Nat.le_of_lt (h.log_lt y hy)), h.pow_order,
    one_mul, h.pow_log x hx, h.pow_log y hy, div_eq_inv_mul]

/-- A product with R193's guard for zero. -/
theorem FieldTables.Encodes.guarded_mul_val (x y : K) :
    (if val x = 0 ∨ val y = 0 then 0 else F.mul (val x) (val y)) = val (x * y) := by
  split
  · next h0 => rw [mul_eq_zero.mpr (h0.imp h.val_eq_zero_iff.mp h.val_eq_zero_iff.mp), h.val_zero]
  · next hne =>
    rw [h.val_eq_zero_iff, h.val_eq_zero_iff, not_or] at hne
    exact h.mul_val hne.1 hne.2

theorem FieldTables.Encodes.xorSum_val (n : Nat) (f : Nat → K) :
    xorSum n (fun i => val (f i)) = val (∑ i ∈ Finset.range n, f i) := by
  induction n with
  | zero => exact h.val_zero.symm
  | succ n ih => rw [xorSum_succ, ih, Finset.sum_range_succ, h.val_add]

/-- A polynomial's value by R197, in the field. -/
theorem FieldTables.Encodes.valueAt_val {f : Nat → Byte} {g : Nat → K} (hf : ∀ i, i < 64 → f i = val (g i)) {x : K}
    (hx : x ≠ 0) : Sys2Proof.Claims.valueAt F f (val x) = val (∑ i ∈ Finset.range 64, g i * x ^ i) := by
  rw [← h.xorSum_val]
  refine xorSum_congr fun i hi => ?_
  rw [hf i hi]
  split
  · next h0 => rw [h.val_eq_zero_iff.mp h0, zero_mul, h.val_zero]
  · next hne => exact h.exp_log_mul_pow (mt h.val_eq_zero_iff.mpr hne) hx i

end Encodes

end Sys2Proof.Machine
end

