-- ==== Sys2Proof/Proofs/ErrorLocator.lean ====
section
/-! Berlekamp–Massey locates the errors (R199, R231, R233). The syndromes are power sums over the errors, so the discrepancy of a
step is one too, in the values of σ at the inverse locators. By the Vandermonde determinant such a sum cannot vanish at as many
consecutive places as there are errors unless σ vanishes at every inverse locator: this bounds L, and at the end gives the
roots. -/

namespace Sys2Proof.Machine

open Polynomial

/-! ## Power sums -/

section PowerSums

variable {K : Type} [Field K]

/-- Distinct elements have independent power sequences. -/
theorem eq_zero_of_sum_mul_pow_eq_zero {E : Finset Nat} {x w : Nat → K} (hx : Set.InjOn x E)
    (h : ∀ i, i < E.card → ∑ l ∈ E, w l * x l ^ i = 0) : ∀ l ∈ E, w l = 0 := by
  have hinj : Function.Injective fun i => x (E.equivFin.symm i) := fun i j hij =>
    E.equivFin.symm.injective (Subtype.ext (hx (E.equivFin.symm i).2 (E.equivFin.symm j).2 hij))
  have hzero : (fun i => w (E.equivFin.symm i)) = 0 :=
    Matrix.eq_zero_of_forall_pow_sum_mul_pow_eq_zero hinj fun i => by
      rw [E.equivFin.symm.sum_comp fun l : E => w l * x l ^ (i : Nat), Finset.sum_coe_sort E fun l => w l * x l ^ (i : Nat)]
      exact h i i.2
  intro l hl
  simpa using congrFun hzero (E.equivFin ⟨l, hl⟩)

/-- The syndrome at k of errors of value `Y l` at the codeword indices l of `E` (R221, R225). -/
def errorSyndrome (α : K) (E : Finset Nat) (Y : Nat → K) (k : Nat) : K := ∑ l ∈ E, Y l * (α ^ l) ^ k

/-- Coefficient j of the product of `p` with the syndromes, where `p` has degree at most j. -/
def discrepancy (α : K) (E : Finset Nat) (Y : Nat → K) (p : K[X]) (j : Nat) : K :=
  ∑ l ∈ E, Y l * p.eval (α ^ l)⁻¹ * (α ^ l) ^ j

variable {α : K} {E : Finset Nat} {Y : Nat → K}

theorem discrepancy_add_C_mul (p q : K[X]) (a : K) (j : Nat) :
    discrepancy α E Y (p + C a * q) j = discrepancy α E Y p j + a * discrepancy α E Y q j := by
  unfold discrepancy
  rw [Finset.mul_sum, ← Finset.sum_add_distrib]
  refine Finset.sum_congr rfl fun l _ => ?_
  rw [eval_add, eval_C_mul]
  ring

theorem discrepancy_X_mul (hα : α ≠ 0) (p : K[X]) (j : Nat) :
    discrepancy α E Y (X * p) (j + 1) = discrepancy α E Y p j := by
  refine Finset.sum_congr rfl fun l _ => ?_
  have hl : α ^ l ≠ 0 := pow_ne_zero l hα
  rw [eval_mul, eval_X]
  linear_combination (Y l * p.eval (α ^ l)⁻¹ * (α ^ l) ^ j) * inv_mul_cancel₀ hl

theorem discrepancy_eq_sum (hα : α ≠ 0) {p : K[X]} {len j : Nat} (hp : p.natDegree ≤ len) (hj : len ≤ j) :
    discrepancy α E Y p j = ∑ i ∈ Finset.range (len + 1), p.coeff i * errorSyndrome α E Y (j - i) := by
  simp only [discrepancy, errorSyndrome, Finset.mul_sum]
  rw [Finset.sum_comm]
  refine Finset.sum_congr rfl fun l _ => ?_
  rw [eval_eq_sum_range' (Nat.lt_succ_of_le hp), Finset.mul_sum, Finset.sum_mul]
  refine Finset.sum_congr rfl fun i hi => ?_
  have hi : i ≤ j := by have := Finset.mem_range.mp hi; omega
  rw [pow_sub₀ _ (pow_ne_zero l hα) hi, inv_pow]
  ring

/-- As many vanishing discrepancies in a row as there are errors make `p` vanish at every inverse locator. -/
theorem eval_eq_zero_of_discrepancy_eq_zero (hα : α ≠ 0) (hE : Set.InjOn (fun l => α ^ l) E) (hY : ∀ l ∈ E, Y l ≠ 0)
    {p : K[X]} {a : Nat} (h : ∀ j, a ≤ j → j < a + E.card → discrepancy α E Y p j = 0) :
    ∀ l ∈ E, p.eval (α ^ l)⁻¹ = 0 := by
  intro l hl
  have hzero := eq_zero_of_sum_mul_pow_eq_zero (w := fun l => Y l * p.eval (α ^ l)⁻¹ * (α ^ l) ^ a) hE (fun i hi => by
    rw [← h (a + i) (Nat.le_add_right _ _) (Nat.add_lt_add_left hi a)]
    exact Finset.sum_congr rfl fun l _ => by rw [pow_add, mul_assoc]) l hl
  simpa [hY l hl, hα] using hzero

theorem discrepancy_eq_zero_of_eval_eq_zero {p : K[X]} (h : ∀ l ∈ E, p.eval (α ^ l)⁻¹ = 0) (j : Nat) :
    discrepancy α E Y p j = 0 :=
  Finset.sum_eq_zero fun l hl => by rw [h l hl, mul_zero, zero_mul]

end PowerSums

/-! ## Coefficients -/

/-- The register `P` holds the coefficients of `p` (R196). -/
def CoefOf {K : Type} [Field K] (val : K → Byte) (P : Poly) (p : K[X]) : Prop := ∀ i, polyCoef P i = val (p.coeff i)

section Coefficients

variable {F : FieldTables} {K : Type} [Field K] {val : K → Byte} {α : K} (h : F.Encodes val α)
include h

theorem FieldTables.Encodes.coefOf_polyOne : CoefOf val polyOne (1 : K[X]) := by
  intro i
  rw [polyCoef_polyOne, coeff_one]
  split
  · exact h.val_one.symm
  · exact h.val_zero.symm

theorem FieldTables.Encodes.coeff_shift_eq_zero {Q : Poly} {q : K[X]} (hQ : CoefOf val Q q) {m j : Nat}
    (hzero : m ≤ j → polyCoef Q (j - m) = 0) : (X ^ m * q).coeff j = 0 := by
  rw [coeff_X_pow_mul']
  split
  · next hm => exact h.val_eq_zero_iff.mp ((hQ _).symm.trans (hzero hm))
  · rfl

/-- POLY_ADD in the field, where no coefficient is lost at MAX_POLY (R198). -/
theorem FieldTables.Encodes.coefOf_polyAdd {P Q : Poly} {p q : K[X]} (hP : CoefOf val P p) (hQ : CoefOf val Q q) {a : K}
    (ha : a ≠ 0) {m : Nat} (hfit : ∀ j, 64 ≤ j → polyCoef P j = 0 ∧ (m ≤ j → polyCoef Q (j - m) = 0)) :
    CoefOf val (polyAdd F P Q (val a) m) (p + C a * (X ^ m * q)) := by
  intro j
  rw [coeff_add, coeff_C_mul, h.val_add, ← hP j]
  rcases Nat.lt_or_ge j 64 with hj | hj
  · rw [polyCoef_polyAdd F P Q _ m j (mt h.val_eq_zero_iff.mp ha) hj]
    split
    · next hadd =>
      rw [coeff_X_pow_mul', if_pos hadd.1, hQ, h.mul_val (mt h.val_eq_zero_iff.mpr (hQ _ ▸ hadd.2)) ha, mul_comm]
    · next hkeep =>
      rw [h.coeff_shift_eq_zero hQ fun hm => by_contra fun hne => hkeep ⟨hm, hne⟩, mul_zero, h.val_zero]
      exact BitVec.xor_zero.symm
  · obtain ⟨hPj, hQj⟩ := hfit j hj
    rw [polyCoef_polyAdd_eq_zero F _ hPj hQj, h.coeff_shift_eq_zero hQ hQj, hPj, mul_zero, h.val_zero]
    rfl

theorem FieldTables.Encodes.natDegree_le {P : Poly} {p : K[X]} (hP : CoefOf val P p) {len : Nat}
    (hdeg : ∀ k, len < k → polyCoef P k = 0) : p.natDegree ≤ len :=
  natDegree_le_iff_coeff_eq_zero.mpr fun k hk => h.val_eq_zero_iff.mp ((hP k).symm.trans (hdeg k hk))

theorem FieldTables.Encodes.coeff_zero_eq_one {st : BmState} {n : Nat} {c : K[X]} (hc : CoefOf val st.c c)
    (hst : st.Bounded n) : c.coeff 0 = 1 :=
  h.val_injective ((hc 0).symm.trans (hst.coef_zero.trans h.val_one.symm))

/-- The root search of R222 and R228. -/
theorem FieldTables.Encodes.valueAt_eq_zero_iff {f : Nat → Byte} {c : K[X]} (hf : ∀ k, k < 64 → f k = val (c.coeff k))
    (hc : c.natDegree < 64) {i : Nat} (hi : i < F.p) :
    Sys2Proof.Claims.valueAt F f (F.exp (F.p - i)) = 0 ↔ c.eval (α ^ i)⁻¹ = 0 := by
  rw [h.exp_sub (Nat.le_of_lt hi), h.valueAt_val hf (inv_ne_zero (pow_ne_zero i h.generator_ne_zero)),
    ← eval_eq_sum_range' hc, h.val_eq_zero_iff]

end Coefficients

/-! ## The steps of Berlekamp–Massey -/

section Steps

variable {F : FieldTables} {K : Type} [Field K] {val : K → Byte} {α : K} {E : Finset Nat} {Y : Nat → K} {S : Poly}

/-- After `n` steps σ is `c` and B is `b`. The discrepancies of `c` vanish from L on, those of the shifted `b` vanish from
n + 1 − L on up to the last, which is the register b; and L is at most the number of errors. -/
structure BmState.Locates (val : K → Byte) (α : K) (E : Finset Nat) (Y : Nat → K) (st : BmState) (n : Nat) (c b : K[X])
    (last : K) : Prop where
  coef_c : CoefOf val st.c c
  coef_b : CoefOf val st.b b
  last_eq : st.last = val last
  last_ne : last ≠ 0
  c_vanishes : ∀ j, st.len ≤ j → j < n → discrepancy α E Y c j = 0
  b_vanishes : ∀ j, n < j + st.len → j ≤ n → discrepancy α E Y (X ^ st.m * b) j = if j = n then last else 0
  len_le : st.len ≤ E.card

/-- σ after a step with a discrepancy (R199). -/
noncomputable def correctedLocator (α : K) (E : Finset Nat) (Y : Nat → K) (c b : K[X]) (last : K) (m n : Nat) : K[X] :=
  c + C (discrepancy α E Y c n / last) * (X ^ m * b)

section Step

variable (h : F.Encodes val α) {st : BmState} {n : Nat} {c b : K[X]} {last : K} (hst : st.Bounded n)
  (hL : st.Locates val α E Y n c b last)
include h

include hst in
/-- The discrepancy of R199 is the one of the errors. -/
theorem FieldTables.Encodes.bmDiscrepancy_eq (hS : ∀ k, k ≤ n → polyCoef S k = val (errorSyndrome α E Y k))
    (hc : CoefOf val st.c c) : bmDiscrepancy F S st n = val (discrepancy α E Y c n) := by
  have hone := h.coeff_zero_eq_one hc hst
  have hterm : ∀ k, k < st.len →
      (if polyCoef st.c (k + 1) = 0 ∨ polyCoef S (n - (k + 1)) = 0 then 0
        else F.mul (polyCoef st.c (k + 1)) (polyCoef S (n - (k + 1)))) =
      val (c.coeff (k + 1) * errorSyndrome α E Y (n - (k + 1))) := fun k _ => by
    rw [hc, hS _ (Nat.sub_le _ _)]
    exact h.guarded_mul_val _ _
  rw [bmDiscrepancy, xorSum_congr hterm, h.xorSum_val, hS n (Nat.le_refl n), ← h.val_add,
    discrepancy_eq_sum h.generator_ne_zero (h.natDegree_le hc hst.degree_le) hst.len_le, Finset.sum_range_succ', hone, one_mul,
    add_comm, Nat.sub_zero]

include hL

/-- Where both `c` and the shifted `b` are known, the corrected σ has no discrepancy up to n. -/
theorem BmState.Locates.corrected_vanishes {j : Nat} (hc : st.len ≤ j) (hb : n < j + st.len) (hj : j ≤ n) :
    discrepancy α E Y (correctedLocator α E Y c b last st.m n) j = 0 := by
  rw [correctedLocator, discrepancy_add_C_mul, hL.b_vanishes j hb hj]
  split
  · next hjn => rw [hjn, div_mul_cancel₀ _ hL.last_ne, h.add_self]
  · next hjn => rw [hL.c_vanishes j hc (by omega), mul_zero, add_zero]

/-- A register that lengthens stays within the number of errors: otherwise σ would vanish at every inverse locator, and there
would be no discrepancy. -/
theorem BmState.Locates.lengthened_le (hE : ∀ l ∈ E, l < F.p) (hY : ∀ l ∈ E, Y l ≠ 0) (hd : discrepancy α E Y c n ≠ 0) :
    n + 1 - st.len ≤ E.card := by
  by_contra hlong
  have hroots := eval_eq_zero_of_discrepancy_eq_zero h.generator_ne_zero (h.pow_injOn.mono hE) hY (p := c) (a := st.len)
    fun j hj hjE => hL.c_vanishes j hj (by omega)
  exact hd (discrepancy_eq_zero_of_eval_eq_zero hroots n)

include hst

/-- The discrepancies of `b` move on with its shift. -/
theorem BmState.Locates.shifted_b_vanishes {j : Nat} (hlo : n + 1 < j + st.len) (hhi : j ≤ n + 1) :
    discrepancy α E Y (X ^ (st.m + 1) * b) j = if j = n + 1 then last else 0 := by
  have hlen := hst.len_le
  obtain ⟨i, rfl⟩ : ∃ i, j = i + 1 := ⟨j - 1, by omega⟩
  rw [pow_succ', mul_assoc, discrepancy_X_mul h.generator_ne_zero, hL.b_vanishes i (by omega) (by omega)]
  simp only [Nat.add_right_cancel_iff]

theorem BmState.Locates.of_no_discrepancy (hd : discrepancy α E Y c n = 0) :
    BmState.Locates val α E Y { st with m := st.m + 1 } (n + 1) c b last :=
  { hL with
    c_vanishes := fun j hlo hhi => (Nat.lt_succ_iff_lt_or_eq.mp hhi).elim (hL.c_vanishes j hlo) fun hjn => hjn ▸ hd
    b_vanishes := fun _ hlo hhi => hL.shifted_b_vanishes h hst hlo hhi }

variable {P : Poly} (hP : CoefOf val P (correctedLocator α E Y c b last st.m n))
include hP

theorem BmState.Locates.corrects (hlen : n < 2 * st.len) :
    BmState.Locates val α E Y { st with c := P, m := st.m + 1 } (n + 1) (correctedLocator α E Y c b last st.m n) b last :=
  { hL with
    coef_c := hP
    c_vanishes := fun j (hlo : st.len ≤ j) hhi => hL.corrected_vanishes h hlo (by omega) (Nat.le_of_lt_succ hhi)
    b_vanishes := fun _ hlo hhi => hL.shifted_b_vanishes h hst hlo hhi }

theorem BmState.Locates.lengthens (hE : ∀ l ∈ E, l < F.p) (hY : ∀ l ∈ E, Y l ≠ 0) (hd : discrepancy α E Y c n ≠ 0)
    (hlen : 2 * st.len ≤ n) :
    BmState.Locates val α E Y ⟨P, st.c, n + 1 - st.len, 1, val (discrepancy α E Y c n)⟩ (n + 1)
      (correctedLocator α E Y c b last st.m n) c (discrepancy α E Y c n) where
  coef_c := hP
  coef_b := hL.coef_c
  last_eq := rfl
  last_ne := hd
  c_vanishes j (hlo : n + 1 - st.len ≤ j) hhi := hL.corrected_vanishes h (by omega) (by omega) (Nat.le_of_lt_succ hhi)
  b_vanishes j (hlo : n + 1 < j + (n + 1 - st.len)) hhi := by
    have hle := hst.len_le
    obtain ⟨i, rfl⟩ : ∃ i, j = i + 1 := ⟨j - 1, by omega⟩
    rw [pow_one, discrepancy_X_mul h.generator_ne_zero]
    simp only [Nat.add_right_cancel_iff]
    split
    · next hi => rw [hi]
    · next hi => exact hL.c_vanishes i (by omega) (by omega)
  len_le := hL.lengthened_le h hE hY hd

omit hP in
theorem BmState.Locates.bmStep (hE : ∀ l ∈ E, l < F.p) (hY : ∀ l ∈ E, Y l ≠ 0) (hn : n < 63)
    (hS : ∀ k, k ≤ n → polyCoef S k = val (errorSyndrome α E Y k)) :
    ∃ c' b' last', (bmStep F S st n).Locates val α E Y (n + 1) c' b' last' := by
  have hlen := hst.len_le
  have hdisc := h.bmDiscrepancy_eq hst hS hL.coef_c
  by_cases hd : discrepancy α E Y c n = 0
  · rw [bmStep_of_eq_zero (hdisc.trans (h.val_eq_zero_iff.mpr hd))]
    exact ⟨c, b, last, hL.of_no_discrepancy h hst hd⟩
  have hne : bmDiscrepancy F S st n ≠ 0 := fun h0 => hd (h.val_eq_zero_iff.mp (hdisc.symm.trans h0))
  have hP : CoefOf val (polyAdd F st.c st.b (F.div (bmDiscrepancy F S st n) st.last) st.m)
      (correctedLocator α E Y c b last st.m n) := by
    rw [hdisc, hL.last_eq, h.div_val hd hL.last_ne]
    exact h.coefOf_polyAdd hL.coef_c hL.coef_b (div_ne_zero hd hL.last_ne) fun j hj =>
      ⟨hst.degree_le j (by omega), fun _ => hst.shifted_le _ (by omega)⟩
  rcases Nat.lt_or_ge n (2 * st.len) with hcorrects | hlengthens
  · rw [bmStep_of_corrects hne hcorrects]
    exact ⟨_, b, last, hL.corrects h hst hP hcorrects⟩
  · rw [bmStep_of_lengthens hne hlengthens]
    rw [hdisc] at hP ⊢
    exact ⟨_, c, _, hL.lengthens h hst hP hE hY hd hlengthens⟩

end Step

variable (h : F.Encodes val α)
include h

theorem FieldTables.Encodes.locates_start : BmState.start.Locates val α E Y 0 1 1 1 where
  coef_c := h.coefOf_polyOne
  coef_b := h.coefOf_polyOne
  last_eq := h.val_one.symm
  last_ne := one_ne_zero
  c_vanishes j _ hj := absurd hj (Nat.not_lt_zero j)
  b_vanishes _ hlo hhi := absurd hlo (Nat.not_lt_of_le hhi)
  len_le := Nat.zero_le _

theorem FieldTables.Encodes.exists_locates_bm (hE : ∀ l ∈ E, l < F.p) (hY : ∀ l ∈ E, Y l ≠ 0) {n : Nat} (hn : n ≤ 63)
    (hS : ∀ k, k < n → polyCoef S k = val (errorSyndrome α E Y k)) :
    ∃ c b last, (bm F S n).Locates val α E Y n c b last := by
  induction n with
  | zero => exact ⟨1, 1, 1, h.locates_start⟩
  | succ n ih =>
    obtain ⟨c, b, last, hL⟩ := ih (by omega) fun k hk => hS k (by omega)
    rw [bm_succ]
    exact hL.bmStep h (bm_bounded F S n) hE hY (by omega) fun k hk => hS k (by omega)

/-- Distinct inverse locators are distinct roots. -/
theorem FieldTables.Encodes.card_le_natDegree {c : K[X]} (hc : c ≠ 0) {R : Finset Nat}
    (hR : ∀ l ∈ R, l < F.p ∧ c.eval (α ^ l)⁻¹ = 0) : R.card ≤ c.natDegree := by
  classical
  have hinj : Set.InjOn (fun l => (α ^ l)⁻¹) R := fun i hi j hj hij =>
    h.pow_injOn (hR i hi).1 (hR j hj).1 (inv_injective hij)
  rw [← Finset.card_image_of_injOn hinj]
  refine card_le_degree_of_subset_roots fun x hx => ?_
  obtain ⟨l, hl, rfl⟩ := Finset.mem_image.mp hx
  exact (mem_roots hc).mpr (hR l hl).2

/-- With at least twice as many syndromes as errors, L is their number, and the inverse locators are the roots of σ. -/
theorem FieldTables.Encodes.bm_locates (hE : ∀ l ∈ E, l < F.p) (hY : ∀ l ∈ E, Y l ≠ 0) {n : Nat} (hn : n ≤ 63)
    (hS : ∀ k, k < n → polyCoef S k = val (errorSyndrome α E Y k)) (hcard : 2 * E.card ≤ n) :
    (bm F S n).len = E.card ∧ ∃ c : K[X], CoefOf val (bm F S n).c c ∧ c.coeff 0 = 1 ∧ c.natDegree ≤ E.card ∧
      ∀ i, i < F.p → (c.eval (α ^ i)⁻¹ = 0 ↔ i ∈ E) := by
  obtain ⟨c, b, last, hL⟩ := h.exists_locates_bm hE hY hn hS
  have hbound := bm_bounded F S n
  have hlen := hL.len_le
  have hone : c.coeff 0 = 1 := h.coeff_zero_eq_one hL.coef_c hbound
  have hne : c ≠ 0 := fun h0 => zero_ne_one ((coeff_zero 0).symm.trans (h0 ▸ hone))
  have hdeg := h.natDegree_le hL.coef_c hbound.degree_le
  have hroots : ∀ l ∈ E, c.eval (α ^ l)⁻¹ = 0 :=
    eval_eq_zero_of_discrepancy_eq_zero h.generator_ne_zero (h.pow_injOn.mono hE) hY fun j hlo hhi =>
      hL.c_vanishes j hlo (by omega)
  have hall := h.card_le_natDegree hne fun l hl => ⟨hE l hl, hroots l hl⟩
  refine ⟨by omega, c, hL.coef_c, hone, by omega, fun i hi => ⟨fun hroot => by_contra fun hiE => ?_, hroots i⟩⟩
  have hmore := h.card_le_natDegree hne (R := insert i E) fun l hl =>
    (Finset.mem_insert.mp hl).elim (fun hli => hli ▸ ⟨hi, hroot⟩) fun hl => ⟨hE l hl, hroots l hl⟩
  rw [Finset.card_insert_of_notMem hiE] at hmore
  omega

end Steps

end Sys2Proof.Machine
end

