-- ==== Sys2Proof/Proofs/ErrorCorrection.lean ====
section
/-! What the two commands correct: a format word with up to three bit errors (R233), O55, and a block with one changed byte
(R231), O58. The operand check of RS_CORRECT (R224): O56. -/

namespace Sys2Proof.Machine

open Polynomial

theorem xorSum_xor (n : Nat) (f g : Nat → Byte) : xorSum n (fun i => f i ^^^ g i) = xorSum n f ^^^ xorSum n g := by
  induction n with
  | zero => exact BitVec.xor_self.symm
  | succ n ih =>
    rw [xorSum_succ, xorSum_succ, xorSum_succ, ih]
    ac_rfl

theorem countP_range_eq_card (p : Nat → Bool) (n : Nat) :
    (List.range n).countP p = ((Finset.range n).filter fun i => p i = true).card := by
  rw [List.countP_eq_length_filter, ← List.toFinset_card_of_nodup (List.nodup_range.filter _), List.toFinset_filter,
    List.toFinset_range]

theorem countP_range_eq_one {p : Nat → Bool} {n a : Nat} (ha : a < n) (hp : ∀ i, i < n → (p i = true ↔ i = a)) :
    (List.range n).countP p = 1 := by
  rw [countP_range_eq_card, Finset.card_eq_one]
  refine ⟨a, Finset.ext fun i => ?_⟩
  rw [Finset.mem_filter, Finset.mem_range, Finset.mem_singleton]
  exact ⟨fun ⟨hi, hpi⟩ => (hp i hi).mp hpi, fun hia => hia ▸ ⟨ha, (hp a ha).mpr rfl⟩⟩

/-- The coefficients of an array of 64 bytes (R196). -/
theorem polyCoef_map_range {f : Nat → Byte} {k : Nat} (hk : k < 64) : polyCoef ((List.range 64).map f) k = f k :=
  (polyCoef_polyTab f k).trans (if_pos hk)

/-! ## The format word -/

theorem fmtSyndrome_xor (u v : BitVec 15) (k : Nat) : fmtSyndrome (u ^^^ v) k = fmtSyndrome u k ^^^ fmtSyndrome v k := by
  unfold fmtSyndrome
  rw [← xorSum_xor]
  refine xorSum_congr fun j _ => ?_
  rw [BitVec.getLsbD_xor]
  cases u.getLsbD j <;> cases v.getLsbD j <;> simp

/-- The positions of the bits that are 1. -/
def errorPositions (error : BitVec 15) : Finset Nat := (Finset.range 15).filter fun i => error.getLsbD i = true

theorem lt_of_mem_errorPositions {error : BitVec 15} {i : Nat} (h : i ∈ errorPositions error) : i < 15 :=
  Finset.mem_range.mp (Finset.mem_filter.mp h).1

theorem mem_errorPositions {error : BitVec 15} {i : Nat} (hi : i < 15) : i ∈ errorPositions error ↔ error.getLsbD i = true := by
  rw [errorPositions, Finset.mem_filter, Finset.mem_range, and_iff_right hi]

/-- The syndromes of a format word are those of errors of value α^l at its bits l (R221). -/
theorem FieldTables.Encodes.fmtSyndrome_eq {K : Type} [Field K] {val : K → Byte} {α : K} (h : gf16.Encodes val α)
    (error : BitVec 15) (k : Nat) : fmtSyndrome error k = val (errorSyndrome α (errorPositions error) (fun l => α ^ l) k) := by
  rw [errorSyndrome, errorPositions, Finset.sum_filter, ← h.xorSum_val]
  refine xorSum_congr fun j _ => ?_
  split
  · rw [← pow_succ', ← pow_mul, Nat.mul_comm j]
    exact h.exp_mod _
  · exact h.val_zero.symm

theorem eq_zero_of_errorPositions_eq_empty {error : BitVec 15} (h : errorPositions error = ∅) : error = 0 :=
  BitVec.eq_of_getLsbD_eq fun i hi => by
    have hbit := mem_errorPositions (error := error) hi
    simpa [h] using hbit

/-- BM on the syndromes of up to three bit errors: L is their number, and σ has its roots at their positions (R222). -/
theorem bm_locates_bitErrors {error : BitVec 15} (hweight : (List.range 15).countP (fun i => error.getLsbD i) ≤ 3) {S : Poly}
    (hS : ∀ k, k < 6 → polyCoef S k = fmtSyndrome error k) {sigma : Nat → Byte}
    (hsigma : ∀ k, k < 64 → sigma k = polyCoef (bm gf16 S 6).c k) :
    (bm gf16 S 6).len = (errorPositions error).card ∧
      ∀ i, i < 15 → decide (Sys2Proof.Claims.valueAt gf16 sigma (exp16 (15 - i)) = 0) = error.getLsbD i := by
  obtain ⟨K, _, val, α, h⟩ := gf16_generated.exists_encodes (by decide)
  have hcard : (errorPositions error).card ≤ 3 := (countP_range_eq_card _ _).symm.trans_le hweight
  obtain ⟨hlen, c, hc, -, hdeg, hroots⟩ := h.bm_locates (fun _ => lt_of_mem_errorPositions)
    (fun l _ => pow_ne_zero l h.generator_ne_zero) (by decide) (fun k hk => (hS k hk).trans (h.fmtSyndrome_eq error k))
    (by omega)
  refine ⟨hlen, fun i hi => ?_⟩
  have hroot := h.valueAt_eq_zero_iff (fun k hk => (hsigma k hk).trans (hc k)) (by omega) hi
  rw [Bool.eq_iff_iff, decide_eq_true_iff]
  exact hroot.trans ((hroots i hi).trans (mem_errorPositions hi))

/-- Settles O55: BM locates the errors, and the flips undo them. -/
theorem fmtCorrectsThreeErrors : Obligations.FmtCorrectsThreeErrors := by
  intro s valid error hvalid hweight hword
  obtain ⟨t, hexec, hsynd, -, hclean, herrors, -⟩ := fmtCorrectResult s
  refine ⟨t, hexec, ?_⟩
  rw [allZero_fmtSyndromes_iff] at hvalid
  have hu : ∀ k, k < 6 → fmtSyndrome s.cur.fmtWord k = fmtSyndrome error k := fun k hk => by
    rw [hword, fmtSyndrome_xor, hvalid k hk]
    exact BitVec.zero_xor
  have hread : ∀ k, k < 6 → polyCoef ((List.range 64).map t.synd) k = fmtSyndrome s.cur.fmtWord k := fun k hk => by
    rw [polyCoef_map_range (by omega), hsynd k (by omega), if_pos hk]
    rfl
  have hlocates := fun sigma => bm_locates_bitErrors (sigma := sigma) hweight fun k hk => (hread k hk).trans (hu k hk)
  by_cases hzero : ∀ k, k < 6 → fmtSyndrome s.cur.fmtWord k = 0
  · obtain ⟨hcode, hres0, -⟩ := hclean hzero
    have hnone : (errorPositions error).card = 0 := (hlocates _ fun _ _ => rfl).1.symm.trans
      (bm_of_zero_syndromes gf16 fun k hk => (hread k hk).trans (hzero k hk)).1
    refine ⟨hcode, hres0.trans (congrArg _ (hword.trans ?_))⟩
    rw [eq_zero_of_errorPositions_eq_empty (Finset.card_eq_zero.mp hnone)]
    exact BitVec.xor_zero
  · obtain ⟨v, hbits, hsigma, -, hok, -⟩ := herrors hzero
    have hv : v = valid := BitVec.eq_of_getLsbD_eq fun i hi => by
      calc v.getLsbD i
          = (s.cur.fmtWord.getLsbD i ^^ error.getLsbD i) :=
            (hbits i hi).trans (congrArg (s.cur.fmtWord.getLsbD i ^^ ·) ((hlocates _ hsigma).2 i hi))
        _ = valid.getLsbD i := by
            rw [hword, BitVec.getLsbD_xor, Bool.xor_assoc, Bool.xor_self, Bool.xor_false]
    rw [hv] at hok
    exact hok hvalid

/-! ## The Reed–Solomon block -/

/-- Settles O56: the operand check answers before anything is written. -/
theorem rsOperandCheck : Obligations.RsOperandCheck := fun _ hillegal =>
  congrArg Host.Outcome.next (rsCommand_badParam (p := Config.params) (decide_eq_true hillegal))

section OneError

variable {K : Type} [Field K] {val : K → Byte} {α : K} (h : (gf256 0).Encodes val α)
include h

/-- The syndromes of a block (R225) in the field. -/
theorem FieldTables.Encodes.rsSyndrome_eq {q : State} {bs : Nat} {x : Nat → K}
    (hx : ∀ j, j < bs → q.block (bs - 1 - j) = val (x j)) (k : Nat) :
    rsSyndrome q bs k = val (∑ j ∈ Finset.range bs, x j * (α ^ j) ^ k) := by
  rw [← h.xorSum_val]
  refine xorSum_congr fun j hj => ?_
  rw [hx j hj]
  split
  · next h0 => rw [h.val_eq_zero_iff.mp h0, zero_mul, h.val_zero]
  · next hne =>
    refine (h.exp_mod _).trans ?_
    rw [pow_add, ← pow_mul, Nat.mul_comm k]
    exact congrArg (fun y => val (y * _)) (h.pow_log _ (mt h.val_eq_zero_iff.mpr hne))

theorem FieldTables.Encodes.rsSyndrome_of_oneError {s valid : State} {bs pos k : Nat} {e : K} (hpos : pos < bs)
    (hvalid : rsSyndrome valid bs k = 0)
    (hs : ∀ k, k < bs → s.block k = if k = pos then valid.block k ^^^ val e else valid.block k) :
    rsSyndrome s bs k = val (errorSyndrome α {bs - 1 - pos} (fun _ => e) k) := by
  choose x hx using fun v : Byte => h.exists_val v (Nat.le_of_lt_succ v.isLt)
  have hblock : ∀ j, j < bs →
      s.block (bs - 1 - j) = val (x (valid.block (bs - 1 - j)) + if j = bs - 1 - pos then e else 0) := fun j hj => by
    rw [hs _ (by omega), h.val_add, hx]
    split
    · next hjp => rw [if_pos (by omega)]
    · next hjp =>
      rw [if_neg (by omega), h.val_zero]
      exact BitVec.xor_zero.symm
  rw [h.rsSyndrome_eq (x := fun j => x (valid.block (bs - 1 - j))) (fun j _ => (hx _).symm), h.val_eq_zero_iff] at hvalid
  rw [h.rsSyndrome_eq hblock, errorSyndrome, Finset.sum_singleton]
  simp only [add_mul, Finset.sum_add_distrib, hvalid, zero_add, ite_mul, zero_mul, Finset.sum_ite_eq', Finset.mem_range]
  rw [if_pos (by omega)]

variable {c : K[X]} {j : Nat} (hone : c.coeff 0 = 1) (hdeg : c.natDegree ≤ 1) (hroot : c.eval (α ^ j)⁻¹ = 0)
include hone hdeg hroot

/-- σ of one error is 1 + α^j·x. -/
theorem FieldTables.Encodes.coeff_one_of_oneError : c.coeff 1 = α ^ j := by
  have hj : α ^ j ≠ 0 := pow_ne_zero j h.generator_ne_zero
  rw [eval_eq_sum_range' (Nat.lt_succ_of_le hdeg), Finset.sum_range_succ, Finset.sum_range_one, hone, pow_zero, pow_one,
    one_mul] at hroot
  field_simp at hroot
  linear_combination hroot - h.add_self (α ^ j)

variable {sigma : Nat → Byte} (hsigma : ∀ k, k < 64 → sigma k = val (c.coeff k))
include hsigma

/-- σ′ of one error is α^j (R226). -/
theorem FieldTables.Encodes.derivCoef_of_oneError {k : Nat} (hk : k < 64) :
    Sys2Proof.Claims.derivCoef sigma k = val (if k = 0 then α ^ j else 0) := by
  rw [Sys2Proof.Claims.derivCoef]
  rcases Nat.eq_zero_or_pos k with rfl | hpos
  · rw [if_pos (by decide), if_pos rfl, hsigma 1 (by decide), h.coeff_one_of_oneError hone hdeg hroot]
  · rw [if_neg (by omega : k ≠ 0), h.val_zero]
    split
    · rw [hsigma _ (by omega), coeff_eq_zero_of_natDegree_lt (by omega), h.val_zero]
    · rfl

variable {e : K} {synd : Nat → Byte} {npar : Nat} (hlo : 2 ≤ npar) (hhi : npar ≤ 63)
  (hsynd : ∀ k, k < npar → synd k = val (errorSyndrome α {j} (fun _ => e) k))
include hlo hhi hsynd

/-- ω of one error is S[1]: from there on its coefficients are discrepancies of σ (R227). -/
theorem FieldTables.Encodes.omegaCoef_of_oneError (k : Nat) :
    Sys2Proof.Claims.omegaCoef synd sigma npar k = val (if k = 0 then e * α ^ j else 0) := by
  rw [Sys2Proof.Claims.omegaCoef]
  split
  · next hk =>
    have hterm : ∀ i, i < k + 1 → (if sigma i = 0 ∨ synd (k - i + 1) = 0 then 0
        else exp256 ((log256 0 (sigma i) + log256 0 (synd (k - i + 1))) % 255)) =
        val (c.coeff i * errorSyndrome α {j} (fun _ => e) (k + 1 - i)) := fun i hi => by
      rw [hsigma i (by omega), hsynd _ (by omega), Nat.sub_add_comm (Nat.le_of_lt_succ hi)]
      exact h.guarded_mul_val _ _
    rw [xorSum_congr hterm, h.xorSum_val]
    split
    · next h0 =>
      subst h0
      rw [Finset.sum_range_one, hone, one_mul, errorSyndrome, Finset.sum_singleton, Nat.sub_zero, Nat.zero_add, pow_one]
    · next hne =>
      rw [← discrepancy_eq_sum h.generator_ne_zero (by omega) (Nat.le_succ k)]
      exact congrArg val (discrepancy_eq_zero_of_eval_eq_zero (fun l hl => by rwa [Finset.mem_singleton.mp hl]) _)
  · next hk => rw [if_neg (by omega), h.val_zero]

/-- Forney's quotient is the error's value (R228). -/
theorem FieldTables.Encodes.rsMagnitudeAt_of_oneError (hj : j < 255) (he : e ≠ 0) {omega : Nat → Byte}
    (homega : ∀ k, k < 64 → omega k = Sys2Proof.Claims.omegaCoef synd sigma npar k) : rsMagnitudeAt sigma omega j = val e := by
  have hα : α ^ j ≠ 0 := pow_ne_zero j h.generator_ne_zero
  have hx : exp256 (255 - j) = val (α ^ j)⁻¹ := h.exp_sub (Nat.le_of_lt hj)
  have hderiv : Sys2Proof.Claims.valueAt (gf256 0) (Sys2Proof.Claims.derivCoef sigma) (exp256 (255 - j)) = val (α ^ j) := by
    rw [hx, h.valueAt_val (fun k => h.derivCoef_of_oneError hone hdeg hroot hsigma) (inv_ne_zero hα)]
    simp
  have hvalue : Sys2Proof.Claims.valueAt (gf256 0) omega (exp256 (255 - j)) = val (e * α ^ j) := by
    rw [hx, h.valueAt_val (fun k hk => (homega k hk).trans
      (h.omegaCoef_of_oneError hone hdeg hroot hsigma hlo hhi hsynd k)) (inv_ne_zero hα)]
    simp
  rw [rsMagnitudeAt, hderiv, hvalue]
  refine (h.div_val (mul_ne_zero he hα) hα).trans ?_
  rw [mul_div_cancel_right₀ _ hα]

end OneError

/-- What the arithmetic of RS_CORRECT answers on the syndromes of one changed byte, at codeword index j (R226 to R228). -/
theorem rs_locates_oneError {s valid : State} {bs npar pos : Nat} {e : Byte} (hpos : pos < bs) (hbs : bs < 256) (he : e ≠ 0)
    (hlo : 2 ≤ npar) (hhi : npar ≤ 63) (hvalid : ∀ k, k < npar → rsSyndrome valid bs k = 0)
    (hs : ∀ k, k < bs → s.block k = if k = pos then valid.block k ^^^ e else valid.block k) {synd sigma omega : Nat → Byte}
    (hsynd : ∀ k, k < 64 → synd k = if k < npar then rsSyndrome s bs k else 0)
    (hsigma : ∀ k, k < 64 → sigma k = polyCoef (bm (gf256 0) ((List.range 64).map synd) npar).c k)
    (homega : ∀ k, k < 64 → omega k = Sys2Proof.Claims.omegaCoef synd sigma npar k) :
    rsSyndrome s bs 0 ≠ 0 ∧ (bm (gf256 0) ((List.range 64).map synd) npar).len = 1 ∧
      (∀ i, i < bs → (rsIsRoot sigma i = true ↔ i = bs - 1 - pos)) ∧ rsMagnitudeAt sigma omega (bs - 1 - pos) = e := by
  obtain ⟨K, _, val, α, h⟩ := (gf256_generated 0).exists_encodes (by decide)
  obtain ⟨x, rfl⟩ := h.exists_val e (Nat.le_of_lt_succ e.isLt)
  have hx : x ≠ 0 := mt h.val_eq_zero_iff.mpr he
  have hS : ∀ k, k < npar → rsSyndrome s bs k = val (errorSyndrome α {bs - 1 - pos} (fun _ => x) k) := fun k hk =>
    h.rsSyndrome_of_oneError hpos (hvalid k hk) hs
  have hsynd' : ∀ k, k < npar → synd k = val (errorSyndrome α {bs - 1 - pos} (fun _ => x) k) := fun k hk => by
    rw [hsynd k (by omega), if_pos hk, hS k hk]
  have hj : bs - 1 - pos < 255 := by omega
  obtain ⟨hlen, c, hc, hone, hdeg, hroots⟩ := h.bm_locates (E := {bs - 1 - pos}) (Y := fun _ => x)
    (fun l hl => (Finset.mem_singleton.mp hl).symm ▸ hj) (fun _ _ => hx) hhi
    (fun k hk => (polyCoef_map_range (by omega)).trans (hsynd' k hk)) hlo
  have hcoef : ∀ k, k < 64 → sigma k = val (c.coeff k) := fun k hk => (hsigma k hk).trans (hc k)
  rw [Finset.card_singleton] at hlen hdeg
  refine ⟨?_, hlen, fun i hi => ?_, ?_⟩
  · rw [hS 0 (by omega), errorSyndrome, Finset.sum_singleton, pow_zero, mul_one]
    exact he
  · have hi255 : i < 255 := by omega
    exact decide_eq_true_iff.trans ((h.valueAt_eq_zero_iff hcoef (by omega) hi255).trans
      ((hroots i hi255).trans Finset.mem_singleton))
  · exact h.rsMagnitudeAt_of_oneError hone hdeg ((hroots _ hj).mpr (Finset.mem_singleton_self _)) hcoef hlo hhi hsynd' hj hx
      homega

/-- XORing the change in again at its one position restores the block (R228). -/
theorem block_restored {s t valid : State} {bs pos : Nat} {e : Byte} (hpos : pos < bs)
    (hs : ∀ k, k < bs → s.block k = if k = pos then valid.block k ^^^ e else valid.block k) {root : Nat → Bool}
    {magnitude : Nat → Byte}
    (hblock : ∀ i, i < bs →
      t.block (bs - 1 - i) = if root i then s.block (bs - 1 - i) ^^^ magnitude i else s.block (bs - 1 - i))
    (hroot : ∀ i, i < bs → (root i = true ↔ i = bs - 1 - pos)) (hmagnitude : magnitude (bs - 1 - pos) = e) (k : Nat)
    (hk : k < bs) : t.block k = valid.block k := by
  have hindex : bs - 1 - (bs - 1 - k) = k := by omega
  have hback := hblock (bs - 1 - k) (by omega)
  have hr := hroot (bs - 1 - k) (by omega)
  rw [hindex, hs k hk] at hback
  by_cases hkp : k = pos
  · subst hkp
    rw [hback, if_pos (hr.mpr rfl), if_pos rfl, hmagnitude, BitVec.xor_assoc, BitVec.xor_self, BitVec.xor_zero]
  · rw [hback, if_neg (mt hr.mp (by omega)), if_neg hkp]

/-- Settles O58: BM locates the changed byte, and the quotient is its change. -/
theorem rsCorrectsOneError : Obligations.RsCorrectsOneError := by
  intro s valid pos e bs dw hbs hdw hhi hlo hpos he hvalid hs
  obtain ⟨t, hexec, hsynd, -, herrors, -⟩ := rsCorrectResult s hbs hdw hhi
  rw [allZero_rsSyndromes_iff valid bs hhi] at hvalid
  have hlocates := fun sigma omega => rs_locates_oneError (sigma := sigma) (omega := omega) hpos
    (s.cur.arg0.extractLsb' 0 8).isLt he hlo hhi hvalid hs hsynd
  have hne := (hlocates _ _ (fun _ _ => rfl) fun _ _ => rfl).1
  obtain ⟨harrays, hblock, hres1, hok, -⟩ := herrors fun hzero => hne (hzero 0 (by omega))
  obtain ⟨-, hlen, hroot, hmagnitude⟩ := hlocates _ _ (fun k hk => (harrays k hk).1) fun k hk => (harrays k hk).2
  have hrestored := block_restored hpos hs hblock hroot hmagnitude
  refine ⟨t, hexec, hok fun k hk => ?syndromes, hres1.trans ?result, hrestored⟩
  case syndromes =>
    refine (xorSum_congr fun j hj => ?_).trans (hvalid k hk)
    rw [hrestored _ (by omega)]
  case result =>
    refine (congrArg (eccResult _) (countP_range_eq_one (by omega : bs - 1 - pos < bs) hroot)).trans ?_
    rw [hlen]
    rfl

end Sys2Proof.Machine
end

