-- ==== Sys2Proof/Proofs/StepOutcome.lean ====
section
/-! Which steps are refused (R70, R250): O7. What the interrupt output is in the bits the host reads (R255): O48. -/

namespace Sys2Proof.Machine

theorem step_of_host_outside {s : State} {a : Access} {rest : List Event} (h : s.agenda = .host a :: rest)
    (hout : apertureEnd ≤ a.offset) : step s = .refused .outsideAperture :=
  (step_of_agenda_host h).trans (hostAccess_outside _ hout)

/-- Every other step answers: a turn, a platform reset, and a host access inside the aperture. -/
theorem step_next_of_host_inside {s : State}
    (hin : ∀ a rest, s.agenda = .host a :: rest → a.offset < apertureEnd) : ∃ t, step s = .next t := by
  obtain ⟨-, hstep⟩ | ⟨rest, -, hstep⟩ | ⟨a, rest, hagenda, hstep⟩ | ⟨rest, -, hstep⟩ := step_cases s
  case inl => rw [hstep]; exact engineStep_next s
  case inr.inl => rw [hstep]; exact engineStep_next _
  case inr.inr.inl => exact ⟨_, hstep.trans (hostAccess_inside _ (hin a rest hagenda))⟩
  case inr.inr.inr => exact ⟨_, hstep⟩

/-- What a step can answer (R70, R250): the named refusal, to an access beyond the aperture only, or a next state. -/
theorem step_outcome (s : State) :
    (step s = .refused .outsideAperture ∧ ∃ a rest, s.agenda = .host a :: rest ∧ apertureEnd ≤ a.offset) ∨
    ((∃ t, step s = .next t) ∧ ¬ ∃ a rest, s.agenda = .host a :: rest ∧ apertureEnd ≤ a.offset) := by
  by_cases hout : ∃ a rest, s.agenda = .host a :: rest ∧ apertureEnd ≤ a.offset
  · obtain ⟨a, rest, hagenda, hoffset⟩ := hout
    exact .inl ⟨step_of_host_outside hagenda hoffset, a, rest, hagenda, hoffset⟩
  · exact .inr ⟨step_next_of_host_inside fun a rest hagenda =>
      Nat.lt_of_not_le fun hoffset => hout ⟨a, rest, hagenda, hoffset⟩, hout⟩

/-- Settles O7: by what a step can answer (`step_outcome`). -/
theorem onlyOutsideAccessesAreRefused : Obligations.OnlyOutsideAccessesAreRefused := by
  intro s
  obtain ⟨hstep, hout⟩ | ⟨⟨t, hstep⟩, hin⟩ := step_outcome s
  · rw [hstep]
    exact ⟨fun _ => nofun, ⟨fun _ => hout, fun _ => ⟨_, rfl⟩⟩, fun _ h => (Host.Outcome.refused.inj h).symm⟩
  · rw [hstep]
    exact ⟨fun _ => nofun, ⟨nofun, fun hout => absurd hout hin⟩, fun _ => nofun⟩

/-- Settles O48: bit 0 of each word is the DONE flag and bit 1 the SPAN flag (`flagWord_fields`). -/
theorem irqIsPendingAndEnabled : Obligations.IrqIsPendingAndEnabled := by
  refine ⟨fun s => ?formula, rfl⟩
  obtain ⟨hdone, hspan, -⟩ := flagWord_fields s.spanNe s.intDone s.intStatusWord rfl
  obtain ⟨hdoneEn, hspanEn, -⟩ := flagWord_fields s.spanEn s.doneEn s.intEnableWord rfl
  rw [hdone, hspan, hdoneEn, hspanEn]
  rfl

end Sys2Proof.Machine
end

