-- ==== Sys2Proof/Proofs/Reset.lean ====
section
/-! The state after reset, and the platform reset (R280 to R283): O49, O50, O59. -/

namespace Sys2Proof.Machine

/-- With REGION_NEXT at its reset value no entry is allocated, so the whole table reads 0 (R29, R43). -/
theorem regionWord_of_regionNext_two {s : State} (h : s.regionNext = 2) (id : BitVec 8) (k : Nat) :
    s.regionWord id k = 0 := by
  refine regionWord_unallocated (decide_eq_false ?_) k
  rw [h]
  exact fun ⟨hlo, hhi⟩ => absurd hlo (Nat.not_le.mpr hhi)

/-- A 32-bit read of CMD, SPAN_Y or SPAN_X after reset returns 0 (R21, R33, R34, R281). -/
theorem hostAccess_rd_reset {r : Reg} (hr : r = .cmd ∨ r = .spanY ∨ r = .spanX) :
    ∃ t, hostAccess (.rd .w32 (4 * r.word)) State.reset = .next t ∧ t.readData = 0 := by
  refine ⟨_, hostAccess_rd_reg r State.reset, ?_⟩
  obtain rfl | rfl | rfl := hr <;> rfl

/-- Settles O49: the fields are those of `State.reset`, and every word of the table and the three registers read 0. -/
theorem resetValues : Obligations.ResetValues := by
  refine ⟨rfl, rfl, irqIsPendingAndEnabled.2, by decide, by decide, by decide, by decide, rfl, rfl, rfl, rfl, rfl, rfl, rfl,
    by decide, regionWord_of_regionNext_two rfl, ?registers⟩
  rintro _ (rfl | rfl | rfl)
  · exact hostAccess_rd_reset (r := .cmd) (.inl rfl)
  · exact hostAccess_rd_reset (r := .spanY) (.inr (.inl rfl))
  · exact hostAccess_rd_reset (r := .spanX) (.inr (.inr rfl))

/-- Settles O50: the step is `State.platformReset`, which takes nothing of the block but the draws. -/
theorem platformResetAbandonsCommand : Obligations.PlatformResetAbandonsCommand := fun _ _ hagenda =>
  ⟨_, step_of_agenda_reset hagenda, rfl, rfl, rfl, regionWord_of_regionNext_two rfl⟩

/-- Settles O59: a platform reset gives the invariant, and the state after reset agrees with it on all the invariant
speaks of. -/
theorem resetMeetsInvariant : Obligations.ResetMeetsInvariant :=
  (inv_platformReset _ State.reset).congr rfl

end Sys2Proof.Machine
end
